-- ==== Sys2Proof/Word.lean ====
section
/-! DEFINITION. The machine's word types and the one builder of fixed-size tables. -/

namespace Sys2Proof

/-- An 8-bit general register, timer or memory byte (R7, R20). -/
abbrev Byte := BitVec 8

/-- A 16-bit address, as `pc`, `I` and `SP` hold it (R7, R71). -/
abbrev Addr := BitVec 16

/-- A 4-bit register number, the `x` and `y` fields (R13, R102). -/
abbrev Reg := BitVec 4

/-- A 32-bit count of milliseconds or hertz (R6, R38, R40, R51). -/
abbrev Millis := BitVec 32

/-- The number of the flag register VF, `V[15]` (R21). -/
abbrev regVF : Reg := 15

/-- The fixed-size table whose entry `i` is `f i`. -/
def tabulate {α : Type} (n : Nat) (f : Nat → α) : Vector α n :=
  ⟨⟨(List.range n).map f⟩, by simp⟩

end Sys2Proof
end

