-- ==== Sys2Proof/Config.lean ====
section
/-! DEFINITION. What is fixed for one machine: the configuration given at construction (R6, R8, R28), the
parameters the spec leaves open (R9), and the free values no one may see the inside of. -/

namespace Sys2Proof

/-- The nine quirk flags, by the spec's names and in its index order (R8).
The order of the indices is the spec's own and no rule uses an index. -/
structure Quirks where
  /-- index 0, `Q_RAM_INIT`: memory bytes after a reset are unspecified (R343) -/
  ramInit : Bool
  /-- index 1, `Q_SHIFT`: 8xy6 and 8xyE shift Vx in place (R162, R164) -/
  shift : Bool
  /-- index 2, `Q_LOADSTORE`: Fx55 and Fx65 leave `I` unchanged (R192, R193) -/
  loadStore : Bool
  /-- index 3, `Q_JUMP`: Bnnn adds Vx instead of V0 (R136) -/
  jump : Bool
  /-- index 4, `Q_BIGSPRITE_LORES`: Dxy0 in lo-res draws 8x16 (R221) -/
  bigSpriteLores : Bool
  /-- index 5, `Q_MODE_KEEP`: a mode switch keeps the buffer (R216, R217) -/
  modeKeep : Bool
  /-- index 6, `Q_CLIP`: sprite pixels past an edge are clipped, not wrapped (R223) -/
  clip : Bool
  /-- index 7, `Q_COLLISION_COUNT`: VF counts the rows with a collision (R225) -/
  collisionCount : Bool
  /-- index 8, `Q_BOTTOM_COLLISION`: rows clipped below the bottom count too (R225) -/
  bottomCollision : Bool
  deriving DecidableEq, Repr

/-- The configuration registers (R6, R28): given at construction, read-only afterwards. -/
structure Config where
  cpuFreq      : Millis
  timerFreq    : Millis
  refreshFreq  : Millis
  programStart : Addr
  quirks       : Quirks
  deriving DecidableEq, Repr

/-- All nine quirks false. -/
def Quirks.legacy : Quirks :=
  { ramInit := false, shift := false, loadStore := false, jump := false, bigSpriteLores := false,
    modeKeep := false, clip := false, collisionCount := false, bottomCollision := false }

/-- The configuration of the spec's test conventions (95_test_vectors.md): every frequency 0, program start
0x200, every quirk false. DESIGN CHOICE (assumption 3): the spec fixes no configuration. -/
def Config.default : Config :=
  { cpuFreq := 0, timerFreq := 0, refreshFreq := 0, programStart := 0x200, quirks := Quirks.legacy }

/-- `LORES_SCROLL_SCALE` (R9, R207): physical pixels per unit of scroll amount in lo-res mode. -/
inductive ScrollScale where
  | one
  | two
  deriving DecidableEq, Repr

/-- The state of the random generator: `RngState` of R9, as a number. -/
abbrev RngState := Nat

/-- The parameters the spec adds (R9). They never change; they stand in the machine's state so that
every statement about a state holds for every value of them. -/
structure Params where
  /-- `STACK_END`, the first address above the stack region (R83) -/
  stackEnd    : Addr
  /-- `FONT_IMAGE`, the bytes of the font load (R84, R341) -/
  fontImage   : Vector Byte 240
  /-- `RNG_SEED`, the generator's state at construction (R37, R340) -/
  rngSeed     : RngState
  /-- `LORES_SCROLL_SCALE` (R207) -/
  scrollScale : ScrollScale
  deriving DecidableEq, Repr

/-- The standard glyphs 0 to F, 5 bytes each, as R84 lists them. -/
def standardGlyphs : List Byte :=
  [0xF0, 0x90, 0x90, 0x90, 0xF0, 0x20, 0x60, 0x20, 0x20, 0x70, 0xF0, 0x10, 0xF0, 0x80, 0xF0,
   0xF0, 0x10, 0xF0, 0x10, 0xF0] ++
  [0x90, 0x90, 0xF0, 0x10, 0x10, 0xF0, 0x80, 0xF0, 0x10, 0xF0, 0xF0, 0x80, 0xF0, 0x90, 0xF0,
   0xF0, 0x10, 0x20, 0x40, 0x40] ++
  [0xF0, 0x90, 0xF0, 0x90, 0xF0, 0xF0, 0x90, 0xF0, 0x10, 0xF0, 0xF0, 0x90, 0xF0, 0x90, 0x90,
   0xE0, 0x90, 0xE0, 0x90, 0xE0] ++
  [0xF0, 0x80, 0x80, 0x80, 0xF0, 0xE0, 0x90, 0x90, 0x90, 0xE0, 0xF0, 0x80, 0xF0, 0x80, 0xF0,
   0xF0, 0x80, 0xF0, 0x80, 0x80]

/-- The extended glyphs 0 to F, 10 bytes each, as R84 lists one commonly used set.
No statement rests on these bytes. -/
def extendedGlyphs : List Byte :=
  [0xFF, 0xFF, 0xC3, 0xC3, 0xC3, 0xC3, 0xC3, 0xC3, 0xFF, 0xFF,
   0x18, 0x78, 0x78, 0x18, 0x18, 0x18, 0x18, 0x18, 0xFF, 0xFF,
   0xFF, 0xFF, 0x03, 0x03, 0xFF, 0xFF, 0xC0, 0xC0, 0xFF, 0xFF,
   0xFF, 0xFF, 0x03, 0x03, 0xFF, 0xFF, 0x03, 0x03, 0xFF, 0xFF] ++
  [0xC3, 0xC3, 0xC3, 0xC3, 0xFF, 0xFF, 0x03, 0x03, 0x03, 0x03,
   0xFF, 0xFF, 0xC0, 0xC0, 0xFF, 0xFF, 0x03, 0x03, 0xFF, 0xFF,
   0xFF, 0xFF, 0xC0, 0xC0, 0xFF, 0xFF, 0xC3, 0xC3, 0xFF, 0xFF,
   0xFF, 0xFF, 0x03, 0x03, 0x06, 0x0C, 0x18, 0x18, 0x18, 0x18] ++
  [0xFF, 0xFF, 0xC3, 0xC3, 0xFF, 0xFF, 0xC3, 0xC3, 0xFF, 0xFF,
   0xFF, 0xFF, 0xC3, 0xC3, 0xFF, 0xFF, 0x03, 0x03, 0xFF, 0xFF,
   0x7E, 0xFF, 0xC3, 0xC3, 0xC3, 0xFF, 0xFF, 0xC3, 0xC3, 0xC3,
   0xFC, 0xFC, 0xC3, 0xC3, 0xFC, 0xFC, 0xC3, 0xC3, 0xFC, 0xFC] ++
  [0x3C, 0xFF, 0xC3, 0xC0, 0xC0, 0xC0, 0xC0, 0xC3, 0xFF, 0x3C,
   0xFC, 0xFE, 0xC3, 0xC3, 0xC3, 0xC3, 0xC3, 0xC3, 0xFE, 0xFC,
   0xFF, 0xFF, 0xC0, 0xC0, 0xFF, 0xFF, 0xC0, 0xC0, 0xFF, 0xFF,
   0xFF, 0xFF, 0xC0, 0xC0, 0xFF, 0xFF, 0xC0, 0xC0, 0xC0, 0xC0]

/-- `FONT_IMAGE` as R84 gives it for tests: the standard set, then the extended set (R80). -/
def defaultFont : Vector Byte 240 :=
  ⟨⟨standardGlyphs ++ extendedGlyphs⟩, rfl⟩

/-- The parameters at their default values (R9).
DESIGN CHOICE (assumption 7): the seed, which has no default, is 0. -/
def Params.default : Params :=
  { stackEnd := 0x200, fontImage := defaultFont, rngSeed := 0, scrollScale := .one }

/-- `STACK_BASE` (R9, R82): the lowest stack address. -/
abbrev stackBase : Addr := 0x00F0

/-- `rng_next` (R9, R168): one draw of the generator, a parameter with no value here (U8). -/
opaque Config.rngNext : RngState → RngState × Byte

/-- The byte an address holds after the `k`-th reset with `Q_RAM_INIT` true: unspecified (R343, U10, U21). -/
opaque Config.freeRamByte : Nat → Nat → Byte

end Sys2Proof
end

