-- ==== Sys2Proof/Syntax.lean ====
section
/-! DEFINITION. The instructions: one constructor for each row of spec/opcode_table.json, in the table's order,
with the row's operand fields (R102 to R109). -/

namespace Sys2Proof

/-- One instruction. Unknown words (R110) are no rows of the table and have no constructor. -/
inductive Instr where
  /-- 00Cn, scroll down -/
  | scd (n : BitVec 4)
  /-- 00Dn, scroll up -/
  | scu (n : BitVec 4)
  /-- 00E0, clear the display -/
  | cls
  /-- 00EE, return from subroutine -/
  | ret
  /-- 00FB, scroll right by 4 -/
  | scr
  /-- 00FC, scroll left by 4 -/
  | scl
  /-- 00FD, ask the host to stop -/
  | exit
  /-- 00FE, enter lo-res mode -/
  | low
  /-- 00FF, enter hi-res mode -/
  | high
  /-- 1nnn, jump -/
  | jp (nnn : BitVec 12)
  /-- 2nnn, call subroutine -/
  | call (nnn : BitVec 12)
  /-- 3xkk, skip if Vx = kk -/
  | seImm (x : Reg) (kk : Byte)
  /-- 4xkk, skip if Vx differs from kk -/
  | sneImm (x : Reg) (kk : Byte)
  /-- 5xy0, skip if Vx = Vy -/
  | seReg (x y : Reg)
  /-- 6xkk, load immediate -/
  | ldImm (x : Reg) (kk : Byte)
  /-- 7xkk, add immediate, no flag -/
  | addImm (x : Reg) (kk : Byte)
  /-- 8xy0, copy register -/
  | ldReg (x y : Reg)
  /-- 8xy1 -/
  | orReg (x y : Reg)
  /-- 8xy2 -/
  | andReg (x y : Reg)
  /-- 8xy3 -/
  | xorReg (x y : Reg)
  /-- 8xy4, add with carry out -/
  | addReg (x y : Reg)
  /-- 8xy5, subtract -/
  | subReg (x y : Reg)
  /-- 8xy6, shift right by one -/
  | shr (x y : Reg)
  /-- 8xy7, reverse subtract -/
  | subn (x y : Reg)
  /-- 8xyE, shift left by one -/
  | shl (x y : Reg)
  /-- 9xy0, skip if Vx differs from Vy -/
  | sneReg (x y : Reg)
  /-- Annn, load the index register -/
  | ldI (nnn : BitVec 12)
  /-- Bnnn, indexed jump; the table gives the word's bits 11:8 twice, as the top digit of `nnn` and as `x` -/
  | jpV0 (nnn : BitVec 12) (x : Reg)
  /-- Cxkk, random byte masked -/
  | rnd (x : Reg) (kk : Byte)
  /-- Dxyn, draw a sprite -/
  | drw (x y : Reg) (n : BitVec 4)
  /-- Ex9E, skip if key down -/
  | skp (x : Reg)
  /-- ExA1, skip if key not down -/
  | sknp (x : Reg)
  /-- Fx07, read the delay timer -/
  | ldVxDT (x : Reg)
  /-- Fx0A, wait for a key release -/
  | ldVxK (x : Reg)
  /-- Fx15, set the delay timer -/
  | ldDTVx (x : Reg)
  /-- Fx18, set the sound timer -/
  | ldSTVx (x : Reg)
  /-- Fx1E, add a register to the index register -/
  | addI (x : Reg)
  /-- Fx29, address of a standard glyph -/
  | ldF (x : Reg)
  /-- Fx30, address of an extended glyph -/
  | ldHF (x : Reg)
  /-- Fx33, store binary-coded decimal -/
  | ldB (x : Reg)
  /-- Fx55, store V0 to Vx -/
  | storeRegs (x : Reg)
  /-- Fx65, load V0 to Vx -/
  | loadRegs (x : Reg)
  /-- Fx75, save user flags: a no-op -/
  | saveFlags (x : Reg)
  /-- Fx85, restore user flags: a no-op -/
  | restoreFlags (x : Reg)
  deriving DecidableEq, Repr

end Sys2Proof
end

