-- ==== Sys2Proof/WellFormed.lean ====
section
/-! DEFINITION. The checks on raw data that its types do not make: an instruction's overlapping fields and the
bounds of the stack parameter. -/

namespace Sys2Proof

/-- An instruction some word encodes. Every field's every value is legal (R104); only Bnnn, whose `x` is the
top digit of its own `nnn` (R104, R136), can be written down inconsistently. -/
def Instr.wf : Instr → Bool
  | .jpV0 nnn x => x == nnn.extractLsb' 8 4
  | .scd _ | .scu _ | .cls | .ret | .scr | .scl | .exit | .low | .high | .jp _ | .call _
  | .seImm _ _ | .sneImm _ _ | .seReg _ _ | .ldImm _ _ | .addImm _ _ | .ldReg _ _ | .orReg _ _
  | .andReg _ _ | .xorReg _ _ | .addReg _ _ | .subReg _ _ | .shr _ _ | .subn _ _ | .shl _ _
  | .sneReg _ _ | .ldI _ | .rnd _ _ | .drw _ _ _ | .skp _ | .sknp _ | .ldVxDT _ | .ldVxK _
  | .ldDTVx _ | .ldSTVx _ | .addI _ | .ldF _ | .ldHF _ | .ldB _ | .storeRegs _ | .loadRegs _
  | .saveFlags _ | .restoreFlags _ => true

/-- What R9 requires of `STACK_END`: above `STACK_BASE`, at most 0x1000, a whole number of entries. -/
def Params.wf (p : Params) : Bool :=
  decide (stackBase.toNat < p.stackEnd.toNat) && decide (p.stackEnd.toNat ≤ 0x1000) &&
    decide ((p.stackEnd.toNat - stackBase.toNat) % 2 = 0)

end Sys2Proof
end

