-- ==== Sys2Proof/Decode.lean ====
section
/-! DEFINITION. From the bytes of an instruction to the instruction, total and rejecting by name (R100 to R110),
and back (the encoder, from the same tables R103, R106 to R109). -/

namespace Sys2Proof

/-- `c = w[15:12]`, the opcode class (R13, R102). -/
def fieldC (w : BitVec 16) : BitVec 4 := w.extractLsb' 12 4
/-- `x = w[11:8]` (R13, R102). -/
def fieldX (w : BitVec 16) : Reg := w.extractLsb' 8 4
/-- `y = w[7:4]` (R13, R102). -/
def fieldY (w : BitVec 16) : Reg := w.extractLsb' 4 4
/-- `n = w[3:0]` (R13, R102). -/
def fieldN (w : BitVec 16) : BitVec 4 := w.extractLsb' 0 4
/-- `kk = w[7:0]` (R13, R102). -/
def fieldKK (w : BitVec 16) : Byte := w.extractLsb' 0 8
/-- `nnn = w[11:0]` (R13, R102). -/
def fieldNNN (w : BitVec 16) : BitVec 12 := w.extractLsb' 0 12

/-- Class 0 (R106): every fixed digit must match, `x` among them. -/
def decodeClass0 (x y n : BitVec 4) (kk : Byte) : Option Instr :=
  if x ≠ 0 then none
  else if y = 0xC then some (.scd n)
  else if y = 0xD then some (.scu n)
  else if kk = 0xE0 then some .cls
  else if kk = 0xEE then some .ret
  else if kk = 0xFB then some .scr
  else if kk = 0xFC then some .scl
  else if kk = 0xFD then some .exit
  else if kk = 0xFE then some .low
  else if kk = 0xFF then some .high
  else none

/-- Class 8 (R108), sub-opcode `n`. -/
def decodeClass8 (x y : Reg) (n : BitVec 4) : Option Instr :=
  if n = 0x0 then some (.ldReg x y)
  else if n = 0x1 then some (.orReg x y)
  else if n = 0x2 then some (.andReg x y)
  else if n = 0x3 then some (.xorReg x y)
  else if n = 0x4 then some (.addReg x y)
  else if n = 0x5 then some (.subReg x y)
  else if n = 0x6 then some (.shr x y)
  else if n = 0x7 then some (.subn x y)
  else if n = 0xE then some (.shl x y)
  else none

/-- Class E (R109), sub-opcode `kk`. -/
def decodeClassE (x : Reg) (kk : Byte) : Option Instr :=
  if kk = 0x9E then some (.skp x)
  else if kk = 0xA1 then some (.sknp x)
  else none

/-- Class F (R109), sub-opcode `kk`. -/
def decodeClassF (x : Reg) (kk : Byte) : Option Instr :=
  if kk = 0x07 then some (.ldVxDT x)
  else if kk = 0x0A then some (.ldVxK x)
  else if kk = 0x15 then some (.ldDTVx x)
  else if kk = 0x18 then some (.ldSTVx x)
  else if kk = 0x1E then some (.addI x)
  else if kk = 0x29 then some (.ldF x)
  else if kk = 0x30 then some (.ldHF x)
  else if kk = 0x33 then some (.ldB x)
  else if kk = 0x55 then some (.storeRegs x)
  else if kk = 0x65 then some (.loadRegs x)
  else if kk = 0x75 then some (.saveFlags x)
  else if kk = 0x85 then some (.restoreFlags x)
  else none

/-- The instruction a 16-bit word encodes, or none for an unknown encoding (R105 to R110). -/
def decodeWord (w : BitVec 16) : Option Instr :=
  let c := fieldC w
  let x := fieldX w
  let y := fieldY w
  let n := fieldN w
  let kk := fieldKK w
  let nnn := fieldNNN w
  if c = 0x0 then decodeClass0 x y n kk
  else if c = 0x1 then some (.jp nnn)
  else if c = 0x2 then some (.call nnn)
  else if c = 0x3 then some (.seImm x kk)
  else if c = 0x4 then some (.sneImm x kk)
  else if c = 0x5 then (if n = 0x0 then some (.seReg x y) else none)
  else if c = 0x6 then some (.ldImm x kk)
  else if c = 0x7 then some (.addImm x kk)
  else if c = 0x8 then decodeClass8 x y n
  else if c = 0x9 then (if n = 0x0 then some (.sneReg x y) else none)
  else if c = 0xA then some (.ldI nnn)
  else if c = 0xB then some (.jpV0 nnn x)
  else if c = 0xC then some (.rnd x kk)
  else if c = 0xD then some (.drw x y n)
  else if c = 0xE then decodeClassE x kk
  else decodeClassF x kk

/-- The word two bytes make, the byte at the lower address the more significant (R72, R101). -/
def wordOfBytes (hi lo : Byte) : BitVec 16 := hi ++ lo

/-- Why bytes are no instruction. -/
inductive DecodeReject where
  /-- fewer than the two bytes every instruction has (R100) -/
  | truncated
  /-- a word that matches no row of the opcode table (R110); the executor runs it as the no-op of R262 -/
  | unknownEncoding (w : BitVec 16)
  deriving DecidableEq, Repr

/-- Read one instruction from the front of a list of bytes and return the bytes after it. -/
def decode : List Byte → Except DecodeReject (Instr × List Byte)
  | hi :: lo :: rest =>
    match decodeWord (wordOfBytes hi lo) with
    | some i => .ok (i, rest)
    | none => .error (.unknownEncoding (wordOfBytes hi lo))
  | _ => .error .truncated

/-- Format A (R103): class and address. -/
def packA (c : BitVec 4) (nnn : BitVec 12) : BitVec 16 := c ++ nnn
/-- Formats K and X (R103): class, register, immediate or sub-opcode. -/
def packK (c : BitVec 4) (x : Reg) (kk : Byte) : BitVec 16 := c ++ x ++ kk
/-- Formats R and ZN (R103): class and three digits. -/
def packR (c x y n : BitVec 4) : BitVec 16 := c ++ x ++ y ++ n

/-- The word of an instruction (R103, R106 to R109). -/
def encode : Instr → BitVec 16
  | .scd n => packR 0x0 0x0 0xC n
  | .scu n => packR 0x0 0x0 0xD n
  | .cls => packK 0x0 0x0 0xE0
  | .ret => packK 0x0 0x0 0xEE
  | .scr => packK 0x0 0x0 0xFB
  | .scl => packK 0x0 0x0 0xFC
  | .exit => packK 0x0 0x0 0xFD
  | .low => packK 0x0 0x0 0xFE
  | .high => packK 0x0 0x0 0xFF
  | .jp nnn => packA 0x1 nnn
  | .call nnn => packA 0x2 nnn
  | .seImm x kk => packK 0x3 x kk
  | .sneImm x kk => packK 0x4 x kk
  | .seReg x y => packR 0x5 x y 0x0
  | .ldImm x kk => packK 0x6 x kk
  | .addImm x kk => packK 0x7 x kk
  | .ldReg x y => packR 0x8 x y 0x0
  | .orReg x y => packR 0x8 x y 0x1
  | .andReg x y => packR 0x8 x y 0x2
  | .xorReg x y => packR 0x8 x y 0x3
  | .addReg x y => packR 0x8 x y 0x4
  | .subReg x y => packR 0x8 x y 0x5
  | .shr x y => packR 0x8 x y 0x6
  | .subn x y => packR 0x8 x y 0x7
  | .shl x y => packR 0x8 x y 0xE
  | .sneReg x y => packR 0x9 x y 0x0
  | .ldI nnn => packA 0xA nnn
  | .jpV0 nnn _ => packA 0xB nnn
  | .rnd x kk => packK 0xC x kk
  | .drw x y n => packR 0xD x y n
  | .skp x => packK 0xE x 0x9E
  | .sknp x => packK 0xE x 0xA1
  | .ldVxDT x => packK 0xF x 0x07
  | .ldVxK x => packK 0xF x 0x0A
  | .ldDTVx x => packK 0xF x 0x15
  | .ldSTVx x => packK 0xF x 0x18
  | .addI x => packK 0xF x 0x1E
  | .ldF x => packK 0xF x 0x29
  | .ldHF x => packK 0xF x 0x30
  | .ldB x => packK 0xF x 0x33
  | .storeRegs x => packK 0xF x 0x55
  | .loadRegs x => packK 0xF x 0x65
  | .saveFlags x => packK 0xF x 0x75
  | .restoreFlags x => packK 0xF x 0x85

/-- The byte at the instruction's own address: the word's upper half (R101). -/
def highByte (w : BitVec 16) : Byte := w.extractLsb' 8 8
/-- The byte at the next address: the word's lower half (R101). -/
def lowByte (w : BitVec 16) : Byte := w.extractLsb' 0 8

/-- The bytes of an instruction in memory order (R101). -/
def encodeBytes (i : Instr) : List Byte := [highByte (encode i), lowByte (encode i)]

/-- The instruction the decoder reads from an instruction whose bits are `w`, numbered as the opcode table
numbers them: one 16-bit word, stored high byte first (R101). Nothing is longer than 16 bits (R100). -/
def decodeTableWord (nbits w : Nat) : Option Instr :=
  if 16 < nbits then none
  else
    let word := BitVec.ofNat 16 (w % 2 ^ nbits)
    match decode [highByte word, lowByte word] with
    | .ok (i, _) => some i
    | .error _ => none

/-- One row of the opcode table: the words `w` with `w & mask = value` (R105). -/
structure OpcodeRow where
  value : BitVec 16
  mask  : BitVec 16
  deriving DecidableEq, Repr

/-- A word selects a row when its fixed digits match exactly (R105). -/
def OpcodeRow.selects (r : OpcodeRow) (w : BitVec 16) : Bool := w &&& r.mask == r.value

/-- The row of spec/opcode_table.json an instruction stands for, as the tables of R106 to R109 print it. -/
def Instr.row : Instr → OpcodeRow
  | .scd _ => ⟨0x00C0, 0xFFF0⟩
  | .scu _ => ⟨0x00D0, 0xFFF0⟩
  | .cls => ⟨0x00E0, 0xFFFF⟩
  | .ret => ⟨0x00EE, 0xFFFF⟩
  | .scr => ⟨0x00FB, 0xFFFF⟩
  | .scl => ⟨0x00FC, 0xFFFF⟩
  | .exit => ⟨0x00FD, 0xFFFF⟩
  | .low => ⟨0x00FE, 0xFFFF⟩
  | .high => ⟨0x00FF, 0xFFFF⟩
  | .jp _ => ⟨0x1000, 0xF000⟩
  | .call _ => ⟨0x2000, 0xF000⟩
  | .seImm _ _ => ⟨0x3000, 0xF000⟩
  | .sneImm _ _ => ⟨0x4000, 0xF000⟩
  | .seReg _ _ => ⟨0x5000, 0xF00F⟩
  | .ldImm _ _ => ⟨0x6000, 0xF000⟩
  | .addImm _ _ => ⟨0x7000, 0xF000⟩
  | .ldReg _ _ => ⟨0x8000, 0xF00F⟩
  | .orReg _ _ => ⟨0x8001, 0xF00F⟩
  | .andReg _ _ => ⟨0x8002, 0xF00F⟩
  | .xorReg _ _ => ⟨0x8003, 0xF00F⟩
  | .addReg _ _ => ⟨0x8004, 0xF00F⟩
  | .subReg _ _ => ⟨0x8005, 0xF00F⟩
  | .shr _ _ => ⟨0x8006, 0xF00F⟩
  | .subn _ _ => ⟨0x8007, 0xF00F⟩
  | .shl _ _ => ⟨0x800E, 0xF00F⟩
  | .sneReg _ _ => ⟨0x9000, 0xF00F⟩
  | .ldI _ => ⟨0xA000, 0xF000⟩
  | .jpV0 _ _ => ⟨0xB000, 0xF000⟩
  | .rnd _ _ => ⟨0xC000, 0xF000⟩
  | .drw _ _ _ => ⟨0xD000, 0xF000⟩
  | .skp _ => ⟨0xE09E, 0xF0FF⟩
  | .sknp _ => ⟨0xE0A1, 0xF0FF⟩
  | .ldVxDT _ => ⟨0xF007, 0xF0FF⟩
  | .ldVxK _ => ⟨0xF00A, 0xF0FF⟩
  | .ldDTVx _ => ⟨0xF015, 0xF0FF⟩
  | .ldSTVx _ => ⟨0xF018, 0xF0FF⟩
  | .addI _ => ⟨0xF01E, 0xF0FF⟩
  | .ldF _ => ⟨0xF029, 0xF0FF⟩
  | .ldHF _ => ⟨0xF030, 0xF0FF⟩
  | .ldB _ => ⟨0xF033, 0xF0FF⟩
  | .storeRegs _ => ⟨0xF055, 0xF0FF⟩
  | .loadRegs _ => ⟨0xF065, 0xF0FF⟩
  | .saveFlags _ => ⟨0xF075, 0xF0FF⟩
  | .restoreFlags _ => ⟨0xF085, 0xF0FF⟩

/-- The whole opcode table, in its order. -/
def opcodeTable : List OpcodeRow :=
  [⟨0x00C0, 0xFFF0⟩, ⟨0x00D0, 0xFFF0⟩, ⟨0x00E0, 0xFFFF⟩, ⟨0x00EE, 0xFFFF⟩, ⟨0x00FB, 0xFFFF⟩,
   ⟨0x00FC, 0xFFFF⟩, ⟨0x00FD, 0xFFFF⟩, ⟨0x00FE, 0xFFFF⟩, ⟨0x00FF, 0xFFFF⟩, ⟨0x1000, 0xF000⟩, ⟨0x2000, 0xF000⟩] ++
  [⟨0x3000, 0xF000⟩, ⟨0x4000, 0xF000⟩, ⟨0x5000, 0xF00F⟩, ⟨0x6000, 0xF000⟩, ⟨0x7000, 0xF000⟩,
   ⟨0x8000, 0xF00F⟩, ⟨0x8001, 0xF00F⟩, ⟨0x8002, 0xF00F⟩, ⟨0x8003, 0xF00F⟩, ⟨0x8004, 0xF00F⟩, ⟨0x8005, 0xF00F⟩] ++
  [⟨0x8006, 0xF00F⟩, ⟨0x8007, 0xF00F⟩, ⟨0x800E, 0xF00F⟩, ⟨0x9000, 0xF00F⟩, ⟨0xA000, 0xF000⟩,
   ⟨0xB000, 0xF000⟩, ⟨0xC000, 0xF000⟩, ⟨0xD000, 0xF000⟩, ⟨0xE09E, 0xF0FF⟩, ⟨0xE0A1, 0xF0FF⟩, ⟨0xF007, 0xF0FF⟩] ++
  [⟨0xF00A, 0xF0FF⟩, ⟨0xF015, 0xF0FF⟩, ⟨0xF018, 0xF0FF⟩, ⟨0xF01E, 0xF0FF⟩, ⟨0xF029, 0xF0FF⟩,
   ⟨0xF030, 0xF0FF⟩, ⟨0xF033, 0xF0FF⟩, ⟨0xF055, 0xF0FF⟩, ⟨0xF065, 0xF0FF⟩, ⟨0xF075, 0xF0FF⟩, ⟨0xF085, 0xF0FF⟩]

end Sys2Proof
end

