-- ==== Sys2Proof/Machine/FrameBuffer.lean ====
section
/-! DEFINITION. The display buffer `FB` (R35) and the primitives every other rule reaches it by
(R200 to R206). -/

namespace Sys2Proof.Machine

/-- The 128 x 64 buffer as 64 rows of 128 bits: the 16 bytes of a row joined, the leftmost pixel the most
significant bit (R35). The 1024 bytes `FB[i]` are `FrameBuffer.byte`. -/
abbrev FrameBuffer := Vector (BitVec 128) 64

/-- Every pixel 0. -/
def FrameBuffer.clear : FrameBuffer := Vector.replicate 64 0

/-- Row `py` of the buffer. -/
def FrameBuffer.row (fb : FrameBuffer) (py : Nat) : BitVec 128 := fb[py]?.getD 0

/-- Byte `FB[k]` in the layout of R35: row `k / 16`, columns `8 * (k mod 16)` to `8 * (k mod 16) + 7`. -/
def FrameBuffer.byte (fb : FrameBuffer) (k : Nat) : Byte :=
  (fb.row (k / 16)).extractLsb' (8 * (15 - k % 16)) 8

/-- `GetPixel(px, py)`, physical coordinates in range (R201). -/
def FrameBuffer.getPixel (fb : FrameBuffer) (px py : Nat) : Bool := (fb.row py).getMsbD px

/-- The row word with only column `px` set. -/
def columnBit (px : Nat) : BitVec 128 := BitVec.twoPow 128 (127 - px)

/-- `SetPixel(px, py, b)`, physical coordinates in range (R202). -/
def FrameBuffer.setPixel (fb : FrameBuffer) (px py : Nat) (b : Bool) : FrameBuffer :=
  let row := fb.row py
  fb.setIfInBounds py (if b then row ||| columnBit px else row &&& ~~~columnBit px)

/-- Set the 2 x 2 physical block of a lo-res logical pixel (R200, R204). -/
def FrameBuffer.setBlock (fb : FrameBuffer) (lx ly : Nat) (b : Bool) : FrameBuffer :=
  (((fb.setPixel (2 * lx) (2 * ly) b).setPixel (2 * lx + 1) (2 * ly) b).setPixel (2 * lx) (2 * ly + 1) b).setPixel
    (2 * lx + 1) (2 * ly + 1) b

/-- Logical width `W` (R16, R200). -/
def logicalWidth (hires : Bool) : Nat := if hires then 128 else 64

/-- Logical height `H` (R16, R200). -/
def logicalHeight (hires : Bool) : Nat := if hires then 64 else 32

/-- The value of a logical pixel: in lo-res mode its block's top-left physical pixel (R204). -/
def FrameBuffer.getLogical (hires : Bool) (fb : FrameBuffer) (lx ly : Nat) : Bool :=
  if hires then fb.getPixel lx ly else fb.getPixel (2 * lx) (2 * ly)

/-- Set a logical pixel: in lo-res mode all four physical pixels of its block (R204). -/
def FrameBuffer.setLogical (hires : Bool) (fb : FrameBuffer) (lx ly : Nat) (b : Bool) : FrameBuffer :=
  if hires then fb.setPixel lx ly b else fb.setBlock lx ly b

/-- `ToggleLogical(lx, ly)` (R204): the old value and the buffer with the pixel inverted. -/
def FrameBuffer.toggleLogical (hires : Bool) (fb : FrameBuffer) (lx ly : Nat) : Bool × FrameBuffer :=
  let old := fb.getLogical hires lx ly
  (old, fb.setLogical hires lx ly (!old))

/-- One row moved right by `dx` columns, left for a negative `dx`, zeros coming in (R206). -/
def shiftRow (row : BitVec 128) (dx : Int) : BitVec 128 :=
  if 0 ≤ dx then row >>> dx.toNat else row <<< (-dx).toNat

/-- `Scroll(dx, dy)` (R206): a fresh buffer; row `py` comes from row `py - dy`, or is zero. -/
def FrameBuffer.scroll (fb : FrameBuffer) (dx dy : Int) : FrameBuffer :=
  tabulate 64 fun py =>
    let sy : Int := (py : Int) - dy
    if 0 ≤ sy ∧ sy ≤ 63 then shiftRow (fb.row sy.toNat) dx else 0

end Sys2Proof.Machine
end

