-- ==== Sys2Proof/Machine/Memory.lean ====
section
/-! DEFINITION. Main memory `MEM` as a sparse list of bytes in one canonical form, and its primitives
(R34, R70 to R73). -/

namespace Sys2Proof.Machine

/-- Main memory: (address, byte) pairs, addresses strictly rising, no byte equal to `Memory.unlisted`. -/
abbrev Memory := List Host.Cell

/-- The size of memory: addresses 0x000 to 0xFFF (R70). -/
abbrev memSize : Nat := 0x1000

/-- What an address with no entry reads as: 0x00, the value of R45 for memory outside font and program. -/
abbrev Memory.unlisted : Byte := 0#8

/-- One byte of memory: `MemRead(addr, 1)` (R72). -/
def Memory.read : Memory → Nat → Byte
  | [], _ => Memory.unlisted
  | (b, w) :: rest, a => if a = b then w else Memory.read rest a

/-- Write one byte: `MemWrite(addr, 1, v)` (R73). Writing the unlisted byte removes the entry. -/
def Memory.write : Memory → Nat → Byte → Memory
  | [], a, v => if v = Memory.unlisted then [] else [(a, v)]
  | (b, w) :: rest, a, v =>
    if a < b then (if v = Memory.unlisted then (b, w) :: rest else (a, v) :: (b, w) :: rest)
    else if a = b then (if v = Memory.unlisted then rest else (a, v) :: rest)
    else (b, w) :: Memory.write rest a v

/-- `MemRead(addr, 2)`: the byte at the lower address is the more significant (R72). -/
def Memory.read2 (m : Memory) (a : Nat) : BitVec 16 := m.read a ++ m.read (a + 1)

/-- `MemWrite(addr, 2, v)`: the more significant byte at the lower address (R73). -/
def Memory.write2 (m : Memory) (a : Nat) (v : BitVec 16) : Memory :=
  (m.write a (v.extractLsb' 8 8)).write (a + 1) (v.extractLsb' 0 8)

/-- Write a run of bytes upward from an address, in ascending order. -/
def Memory.writeBytes : Memory → Nat → List Byte → Memory
  | m, _, [] => m
  | m, a, v :: rest => Memory.writeBytes (m.write a v) (a + 1) rest

/-- The memory that holds just a run of bytes from an address upward. -/
def Memory.ofRun : Nat → List Byte → Memory
  | _, [] => []
  | a, v :: rest => if v = Memory.unlisted then Memory.ofRun (a + 1) rest else (a, v) :: Memory.ofRun (a + 1) rest

/-- The memory whose byte at every address below `memSize` is given. -/
def Memory.ofBytes (f : Nat → Byte) : Memory :=
  Memory.ofRun 0 ((List.range memSize).map f)

/-- The canonical form: addresses strictly rising and below `memSize`, no entry equal to the unlisted byte. -/
abbrev Memory.wf (m : Memory) : Prop :=
  m.Pairwise (fun c d => c.1 < d.1) ∧ ∀ c ∈ m, c.1 < memSize ∧ c.2 ≠ Memory.unlisted

end Sys2Proof.Machine
end

