-- ==== Sys2Proof/Machine/State.lean ====
section
/-! DEFINITION. The machine's state (10_state.md), the reasons a step can stop, and the state after
construction, the spec's power-on reset (R16, R340). -/

namespace Sys2Proof.Machine

/-- The four synchronous faults of the core (R300). They are latched, not stops of the model. -/
inductive Cause where
  /-- cause code 1 (R301): the fetch at `pc` leaves memory -/
  | fetchRange
  /-- cause code 2 (R302): an access through `I` leaves memory -/
  | memRange
  /-- cause code 3 (R303): 2nnn with the stack region full -/
  | stackOverflow
  /-- cause code 4 (R304): 00EE with the stack empty -/
  | stackUnderflow
  deriving DecidableEq, Repr

/-- The fault latch `FAULT`, `FAULT_PC`, `FAULT_ADDR` (R33); no cause is `FAULT` = 0. -/
structure FaultLatch where
  cause : Option Cause
  pc    : Addr
  addr  : Addr
  deriving DecidableEq, Repr

/-- The latch with no fault in it, as every reset leaves it (R45, R308). -/
def FaultLatch.clear : FaultLatch := { cause := none, pc := 0, addr := 0 }

/-- A keypad cell (R36, R240). -/
inductive KeyState where
  | up
  | down
  | released
  deriving DecidableEq, Repr

/-- What the host may do between two steps (R53, R54, R340 to R344, R356). -/
inductive HostAction where
  /-- present new levels at the input ports `clock_ms` and `key_level` (R51, R52) -/
  | setInputs (clockMs : Millis) (keyLevel : BitVec 16)
  /-- `construct(cfg)` (R340) -/
  | construct (cfg : Config)
  /-- `reset` (R343) -/
  | reset
  /-- `soft reset` (R344) -/
  | softReset
  /-- `load_font` (R341) -/
  | loadFont
  /-- `load_program` with this image (R342) -/
  | loadProgram (image : List Byte)
  /-- one write through the host memory port, addresses 0x000 to 0xFFF (R54) -/
  | writeByte (a : BitVec 12) (value : Byte)
  deriving DecidableEq, Repr

/-- The state of the machine. -/
structure State where
  /-- `V[0]` to `V[15]` (R20, R21) -/
  v              : Vector Byte 16
  /-- program counter (R22) -/
  pc             : Addr
  /-- index register `I` (R23) -/
  i              : Addr
  /-- stack pointer `SP` (R24) -/
  sp             : Addr
  /-- delay timer (R25) -/
  dt             : Byte
  /-- sound timer (R26) -/
  st             : Byte
  /-- hi-res mode flag (R27) -/
  hires          : Bool
  /-- the outer loop should terminate (R29) -/
  exit           : Bool
  /-- the tone sounds (R30) -/
  beep           : Bool
  /-- a refresh interval has elapsed (R31) -/
  displayUpdated : Bool
  /-- the last step executed an instruction (R32) -/
  executed       : Bool
  /-- the fault latch (R33) -/
  latch          : FaultLatch
  /-- main memory (R34) -/
  mem            : Memory
  /-- the display buffer (R35) -/
  fb             : FrameBuffer
  /-- the keypad cells (R36) -/
  keys           : Vector KeyState 16
  /-- random generator state (R37) -/
  rng            : RngState
  /-- cumulative counters (R38) -/
  cpuCum         : Millis
  delayCum       : Millis
  soundCum       : Millis
  refreshCum     : Millis
  /-- timestamps (R40) -/
  prevTime       : Millis
  curTime        : Millis
  elapsed        : Millis
  /-- configuration registers (R28) -/
  config         : Config
  /-- the parameters of R9, never written (R41) -/
  params         : Params
  /-- the image of the last program load (R342, R344) -/
  programImage   : List Byte
  /-- the level at the input port `clock_ms` (R51) -/
  clockMs        : Millis
  /-- the level at the input port `key_level` (R52) -/
  keyLevel       : BitVec 16
  /-- the model's own: for each coming step, what the host does just before it (assumption 2) -/
  hostPlan       : List (List HostAction)
  /-- the model's own: how many resets have left memory unspecified (assumption 8) -/
  ramDraws       : Nat
  deriving DecidableEq, Repr

/-- Why a step stops. The spec's own faults are latched in a next state (R306) and are none of these. -/
inductive Fault where
  /-- Raised by 2nnn and 00EE when the stack entry they would touch lies above 0x0FFF, an address that does not
  exist (R71). Only a state that breaks the stack bounds of R24 gets here. Safe: the model stops. -/
  | noSuchAddress (a : Nat)
  deriving DecidableEq, Repr

/-- Why a step gives an instruction no meaning. -/
inductive Refusal where
  /-- Raised by an arm of `exec` whose instruction has no meaning yet; no arm is left. Safe: the model stops. -/
  | notModelled (mnemonic : String)
  deriving DecidableEq, Repr

/-- The result of executing an instruction. -/
abbrev Result := Host.Outcome State Fault Refusal

/-- The machine right after reset: construction (R340, the power-on reset of R16) with the configuration
`Config.default`, the parameters `Params.default` and the clock at 0, every field as R45 gives it.
DESIGN CHOICE (assumptions 1 to 8): the configuration, the input levels and the model's own fields. -/
def State.reset : State :=
  { v := Vector.replicate 16 0
    pc := Config.default.programStart
    i := 0
    sp := stackBase
    dt := 0
    st := 0
    hires := false
    exit := false
    beep := false
    displayUpdated := false
    executed := false
    latch := FaultLatch.clear
    mem := Memory.ofRun 0 defaultFont.toList
    fb := FrameBuffer.clear
    keys := Vector.replicate 16 .up
    rng := Params.default.rngSeed
    cpuCum := 0
    delayCum := 0
    soundCum := 0
    refreshCum := 0
    prevTime := 0
    curTime := 0
    elapsed := 0
    config := Config.default
    params := Params.default
    programImage := []
    clockMs := 0
    keyLevel := 0
    hostPlan := []
    ramDraws := 0 }

end Sys2Proof.Machine
end

