-- ==== Sys2Proof/Machine/Ops.lean ====
section
/-! DEFINITION. The named operations on registers, memory and the fault latch that the meanings are written over. -/

namespace Sys2Proof.Machine

/-- Read `V[x]` (R12, R20). -/
def State.getV (s : State) (x : Reg) : Byte := s.v[x.toNat]'x.isLt

/-- Write `V[x]` (R12, R20). No register is hardwired. -/
def State.setV (s : State) (x : Reg) (b : Byte) : State := { s with v := s.v.set x.toNat b x.isLt }

/-- Write the program counter. -/
def State.setPc (s : State) (a : Addr) : State := { s with pc := a }

/-- Write the index register. -/
def State.setI (s : State) (a : Addr) : State := { s with i := a }

/-- Write the stack pointer. -/
def State.setSp (s : State) (a : Addr) : State := { s with sp := a }

/-- Write the delay timer. -/
def State.setDT (s : State) (b : Byte) : State := { s with dt := b }

/-- Write the sound timer. -/
def State.setST (s : State) (b : Byte) : State := { s with st := b }

/-- Write the mode flag. -/
def State.setHires (s : State) (b : Bool) : State := { s with hires := b }

/-- Raise the output flag `exit` (R29). -/
def State.setExit (s : State) : State := { s with exit := true }

/-- Replace main memory. -/
def State.setMem (s : State) (m : Memory) : State := { s with mem := m }

/-- Replace the display buffer. -/
def State.setFb (s : State) (f : FrameBuffer) : State := { s with fb := f }

/-- Replace the keypad cells. -/
def State.setKeys (s : State) (k : Vector KeyState 16) : State := { s with keys := k }

/-- Replace the generator's state. -/
def State.setRng (s : State) (r : RngState) : State := { s with rng := r }

/-- The 3-bit cause code at the port `FAULT` (R33, R301 to R304). -/
def FaultLatch.code (l : FaultLatch) : BitVec 3 :=
  match l.cause with
  | none => 0
  | some .fetchRange => 1
  | some .memRange => 2
  | some .stackOverflow => 3
  | some .stackUnderflow => 4

/-- A fault is latched: `FAULT` is not 0 (R307). -/
def State.faulted (s : State) : Bool := s.latch.cause.isSome

/-- Taking a fault (R306): `pc` is the faulting instruction's address again and the latch records the cause, that
address and the offending one. The instruction's own writes are discarded because the state given is the one
before them. There is no return from a fault; the host's resets clear the latch (R308, `resetCore`). -/
def takeFault (c : Cause) (pc0 a : Addr) (s : State) : State :=
  { s with pc := pc0, latch := { cause := some c, pc := pc0, addr := a } }

/-- `raise F(a)` inside an instruction (R12, R306). `pc` has already advanced by 2 (R130), so the instruction's own
address is `pc - 2`. -/
def raise (c : Cause) (a : Addr) (s : State) : Result := .next (takeFault c (s.pc - 2) a s)

/-- Continue from a next state; a stop stays a stop. -/
def onNext (o : Result) (f : State → Result) : Result :=
  match o with
  | .next s => f s
  | .fault r => .fault r
  | .refused r => .refused r

/-- Highest legal data address (R71). -/
abbrev lastAddr : Nat := 0x0FFF

/-- `max(I, 0x1000)`: the lowest out-of-range address an access through `I` would touch (R76). -/
def firstBeyond (i : Addr) : Addr := if i.toNat < memSize then 0x1000 else i

/-- An access through `I` whose last byte is at `I + lastOffset`: the whole range is checked first (R76), then the
instruction's effect happens. -/
def throughI (lastOffset : Nat) (effect : State → State) (s : State) : Result :=
  if s.i.toNat + lastOffset ≤ lastAddr then .next (effect s) else raise .memRange (firstBeyond s.i) s

/-- Push a return address, then go on (R132): checked against `STACK_END`, stored big-endian at `SP`, `SP` advanced
by 2. -/
def push (ret : Addr) (andThen : State → State) (s : State) : Result :=
  if s.params.stackEnd.toNat < s.sp.toNat + 2 then raise .stackOverflow s.sp s
  else if lastAddr < s.sp.toNat + 1 then .fault (.noSuchAddress (s.sp.toNat + 1))
  else .next (andThen ((s.setMem (s.mem.write2 s.sp.toNat ret)).setSp (s.sp + 2)))

/-- Pop a return address into `pc` (R134): checked against `STACK_BASE`. -/
def popPc (s : State) : Result :=
  if s.sp.toNat < stackBase.toNat + 2 then raise .stackUnderflow s.sp s
  else if lastAddr + 1 < s.sp.toNat then .fault (.noSuchAddress (s.sp.toNat - 1))
  else .next ((s.setSp (s.sp - 2)).setPc (s.mem.read2 (s.sp.toNat - 2)))

/-- The two bytes of the instruction at `pc`, as one word (R101). -/
def fetchWord (s : State) : BitVec 16 := s.mem.read2 s.pc.toNat

/-- `pc` moved past the instruction's two bytes (R130). -/
def advancePc (s : State) : State := s.setPc (s.pc + 2)

/-- A keypad cell after input sampling (R241). -/
def sampleCell (held : Bool) (k : KeyState) : KeyState :=
  if held then .down else if k = .down then .released else k

/-- Input sampling at the start of a step (R241). -/
def sampleKeys (s : State) : State :=
  s.setKeys (tabulate 16 fun k => sampleCell (s.keyLevel.getLsbD k) (s.keys[k]?.getD .up))

/-- A keypad cell after the collapse (R243). -/
def collapseCell (k : KeyState) : KeyState := if k = .released then .up else k

/-- The collapse at the end of every executed instruction (R243). -/
def collapseKeys (s : State) : State := s.setKeys (s.keys.map collapseCell)

/-- Keypad cell `KEY[k]` (R36). -/
def State.key (s : State) (k : BitVec 4) : KeyState := s.keys[k.toNat]'k.isLt

/-- The lowest key number whose cell is released (R248). -/
def firstReleased (s : State) : Option Nat :=
  (List.range 16).find? fun k => s.keys[k]?.getD .up = .released

end Sys2Proof.Machine
end

