-- ==== Sys2Proof/Machine/Flags.lean ====
section
/-! DEFINITION. Every flag computation (R150, R151): results computed from temporaries on unbounded integers,
then reduced; the destination is written first, VF second. -/

namespace Sys2Proof.Machine

/-- A result and the flag that goes with it. -/
structure Flagged where
  value : Byte
  flag  : Bool
  deriving DecidableEq, Repr

/-- A flag as the register value 0x00 or 0x01 (R151). -/
def flagByte (b : Bool) : Byte := if b then 1 else 0

/-- Sum, and carry out when it exceeds 255 (R158). -/
def addFlagged (a b : Byte) : Flagged :=
  { value := BitVec.ofNat 8 (a.toNat + b.toNat), flag := decide (255 < a.toNat + b.toNat) }

/-- Difference minuend - subtrahend, and 1 when no borrow occurs (R160, R163). -/
def subFlagged (minuend subtrahend : Byte) : Flagged :=
  { value := BitVec.ofInt 8 ((minuend.toNat : Int) - subtrahend.toNat),
    flag := decide (subtrahend.toNat ≤ minuend.toNat) }

/-- Right by one, and the bit shifted out (R162). -/
def shrFlagged (s : Byte) : Flagged := { value := s >>> 1, flag := s.getLsbD 0 }

/-- Left by one, and the bit shifted out (R164). -/
def shlFlagged (s : Byte) : Flagged := { value := s <<< 1, flag := s.getLsbD 7 }

/-- Write the destination, then the flag register (R151). -/
def State.setFlagged (s : State) (x : Reg) (r : Flagged) : State :=
  (s.setV x r.value).setV regVF (flagByte r.flag)

/-- The value VF gets from a draw (R225). -/
def collisionByte (q : Quirks) (count : Nat) : Byte :=
  if q.collisionCount then BitVec.ofNat 8 count else flagByte (decide (0 < count))

end Sys2Proof.Machine
end

