-- ==== Sys2Proof/Machine/Operands.lean ====
section
/-! DEFINITION. Every operand form: immediates, quirk-selected registers, glyph addresses, scroll amounts,
key numbers, sprite shape and sprite bits. -/

namespace Sys2Proof.Machine

/-- A 12-bit address as 16 bits (R104). -/
def addrOf (nnn : BitVec 12) : Addr := nnn.setWidth 16

/-- A register's value as 16 bits (R136, R182). -/
def wide (b : Byte) : Addr := b.setWidth 16

/-- The value 8xy6 and 8xyE shift: Vy, or Vx under `Q_SHIFT` (R162, R164). -/
def shiftSource (s : State) (x y : Reg) : Byte := if s.config.quirks.shift then s.getV x else s.getV y

/-- The target of Bnnn: `nnn` plus V0, or plus Vx under `Q_JUMP`, all 16 bits kept (R136). -/
def indexedTarget (s : State) (nnn : BitVec 12) (x : Reg) : Addr :=
  addrOf nnn + wide (if s.config.quirks.jump then s.getV x else s.getV 0)

/-- Address of standard glyph `d`: 5 bytes each from 0x000 (R184). -/
def standardGlyph (d : Byte) : Addr := BitVec.ofNat 16 (5 * d.toNat)

/-- Address of extended glyph `d`: 10 bytes each from 0x050 (R185). -/
def extendedGlyph (d : Byte) : Addr := BitVec.ofNat 16 (0x50 + 10 * d.toNat)

/-- The three decimal digits of a byte, hundreds first (R187). -/
def decimalDigits (v : Byte) : List Byte :=
  [BitVec.ofNat 8 (v.toNat / 100), BitVec.ofNat 8 (v.toNat / 10 % 10), BitVec.ofNat 8 (v.toNat % 10)]

/-- `I` after Fx55 and Fx65: advanced past the registers moved, unless `Q_LOADSTORE` (R192, R193). -/
def indexAfterMove (s : State) (x : Reg) : Addr :=
  if s.config.quirks.loadStore then s.i else s.i + BitVec.ofNat 16 (x.toNat + 1)

/-- The key a key skip tests: the low four bits of a register (R245, R246). -/
def keyNumber (b : Byte) : BitVec 4 := b.extractLsb' 0 4

/-- `LORES_SCROLL_SCALE` as a number (R9). -/
def scaleFactor : ScrollScale → Nat
  | .one => 1
  | .two => 2

/-- A scroll amount in physical pixels (R207). -/
def scrollPixels (s : State) (amount : Nat) : Nat :=
  if s.hires then amount else amount * scaleFactor s.params.scrollScale

/-- Rows of a sprite and bytes per row (R221). -/
structure SpriteShape where
  rows : Nat
  bpr  : Nat
  deriving DecidableEq, Repr

/-- The shape Dxyn's `n` selects (R221). -/
def spriteShape (hires : Bool) (q : Quirks) (n : BitVec 4) : SpriteShape :=
  if n ≠ 0 then { rows := n.toNat, bpr := 1 }
  else if hires || !q.bigSpriteLores then { rows := 16, bpr := 2 }
  else { rows := 16, bpr := 1 }

/-- How many bytes a sprite has (R221). -/
def SpriteShape.len (p : SpriteShape) : Nat := p.rows * p.bpr

/-- The sprite bit at row `r`, column `c`, of the sprite stored at `base`: rows in order, left byte first, the most
significant bit leftmost (R220, R221). -/
def spriteBit (m : Memory) (base bpr r c : Nat) : Bool :=
  (m.read (base + r * bpr + c / 8)).getLsbD (7 - c % 8)

end Sys2Proof.Machine
end

