-- ==== Sys2Proof/Machine/ControlFlow.lean ====
section
/-! DEFINITION. Jumps, call, return, skips (40_control_flow.md). Every meaning starts in the state whose `pc` the
executor has already moved past the instruction (R130). -/

namespace Sys2Proof.Machine

/-- A taken skip moves `pc` a further 2 (R138 to R141, R245, R246). -/
def skipWhen (taken : Bool) (s : State) : Result := .next (if taken then s.setPc (s.pc + 2) else s)

/-- 1nnn (R131). -/
def execJp (nnn : BitVec 12) (s : State) : Result := .next (s.setPc (addrOf nnn))

/-- 2nnn (R132): push the address after this instruction, then jump; nothing happens on a full stack. -/
def execCall (nnn : BitVec 12) (s : State) : Result :=
  push s.pc (fun t => t.setPc (addrOf nnn)) s

/-- 00EE (R134). -/
def execRet (s : State) : Result := popPc s

/-- Bnnn (R136). -/
def execJpV0 (nnn : BitVec 12) (x : Reg) (s : State) : Result := .next (s.setPc (indexedTarget s nnn x))

/-- 3xkk (R138). -/
def execSeImm (x : Reg) (kk : Byte) (s : State) : Result := skipWhen (s.getV x == kk) s

/-- 4xkk (R139). -/
def execSneImm (x : Reg) (kk : Byte) (s : State) : Result := skipWhen (s.getV x != kk) s

/-- 5xy0 (R140). -/
def execSeReg (x y : Reg) (s : State) : Result := skipWhen (s.getV x == s.getV y) s

/-- 9xy0 (R141). -/
def execSneReg (x y : Reg) (s : State) : Result := skipWhen (s.getV x != s.getV y) s

end Sys2Proof.Machine
end

