-- ==== Sys2Proof/Machine/Display.lean ====
section
/-! DEFINITION. Clear, scroll, mode switch and sprite draw (43_display.md). -/

namespace Sys2Proof.Machine

/-- 00E0 (R210). -/
def execCls (s : State) : Result := .next (s.setFb FrameBuffer.clear)

/-- 00Cn (R211): down. -/
def execScd (n : BitVec 4) (s : State) : Result := .next (s.setFb (s.fb.scroll 0 (scrollPixels s n.toNat)))

/-- 00Dn (R212): up. -/
def execScu (n : BitVec 4) (s : State) : Result := .next (s.setFb (s.fb.scroll 0 (-(scrollPixels s n.toNat))))

/-- 00FB (R213): right by 4. -/
def execScr (s : State) : Result := .next (s.setFb (s.fb.scroll (scrollPixels s 4) 0))

/-- 00FC (R214): left by 4. -/
def execScl (s : State) : Result := .next (s.setFb (s.fb.scroll (-(scrollPixels s 4)) 0))

/-- The buffer a mode switch leaves: clear, unless `Q_MODE_KEEP` (R216, R217). -/
def modeSwitchFb (s : State) : FrameBuffer := if s.config.quirks.modeKeep then s.fb else FrameBuffer.clear

/-- 00FE (R216). -/
def execLow (s : State) : Result := .next ((s.setHires false).setFb (modeSwitchFb s))

/-- 00FF (R217). -/
def execHigh (s : State) : Result := .next ((s.setHires true).setFb (modeSwitchFb s))

/-- One 1-bit of a sprite at logical column `lx`, not yet wrapped (R220, R223, R224): clipped past the right edge
under `Q_CLIP`, else wrapped and toggled. The Bool says whether the row has collided. -/
def drawBit (hires clip : Bool) (ly lx : Nat) (acc : FrameBuffer × Bool) : FrameBuffer × Bool :=
  if clip && decide (logicalWidth hires ≤ lx) then acc
  else
    let t := acc.1.toggleLogical hires (lx % logicalWidth hires) ly
    (t.2, acc.2 || t.1)

/-- One row of a sprite, columns ascending (R220): the buffer after it and whether it collided. -/
def drawRow (hires clip : Bool) (bit : Nat → Bool) (width x0 ly : Nat) (fb : FrameBuffer) : FrameBuffer × Bool :=
  (List.range width).foldl (fun acc c => if bit c then drawBit hires clip ly (x0 + c) acc else acc) (fb, false)

/-- A whole sprite, rows ascending (R220, R223, R225): the buffer after it and the row count. `bit r c` is the sprite's
bit; a row past the bottom edge is wrapped, or under `Q_CLIP` skipped and counted when `Q_BOTTOM_COLLISION`. -/
def drawRows (hires : Bool) (q : Quirks) (bit : Nat → Nat → Bool) (shape : SpriteShape) (x0 y0 : Nat)
    (fb : FrameBuffer) : FrameBuffer × Nat :=
  (List.range shape.rows).foldl
    (fun acc r =>
      if q.clip && decide (logicalHeight hires ≤ y0 + r) then
        (acc.1, if q.bottomCollision then acc.2 + 1 else acc.2)
      else
        let row := drawRow hires q.clip (bit r) (8 * shape.bpr) x0 ((y0 + r) % logicalHeight hires) acc.1
        (row.1, if row.2 then acc.2 + 1 else acc.2))
    (fb, 0)

/-- The draw of Dxyn in this state (R220 to R225), with the origin reduced to the screen (R222). -/
def drawSprite (x y : Reg) (n : BitVec 4) (s : State) : FrameBuffer × Nat :=
  let shape := spriteShape s.hires s.config.quirks n
  drawRows s.hires s.config.quirks (spriteBit s.mem s.i.toNat shape.bpr) shape
    ((s.getV x).toNat % logicalWidth s.hires) ((s.getV y).toNat % logicalHeight s.hires) s.fb

/-- Dxyn (R220): all the sprite's bytes checked (R226), then the draw, then VF, last. -/
def execDrw (x y : Reg) (n : BitVec 4) (s : State) : Result :=
  throughI ((spriteShape s.hires s.config.quirks n).len - 1)
    (fun s =>
      let d := drawSprite x y n s
      (s.setFb d.1).setV regVF (collisionByte s.config.quirks d.2)) s

end Sys2Proof.Machine
end

