-- ==== Sys2Proof/Machine/IndexMemory.lean ====
section
/-! DEFINITION. The index register, glyph addresses, decimal digits, register store and load, and the user-flag
stubs (42_index_memory.md). -/

namespace Sys2Proof.Machine

/-- Annn (R181). -/
def execLdI (nnn : BitVec 12) (s : State) : Result := .next (s.setI (addrOf nnn))

/-- Fx1E (R182): 16 bits kept, no flag. -/
def execAddI (x : Reg) (s : State) : Result := .next (s.setI (s.i + wide (s.getV x)))

/-- Fx29 (R184). -/
def execLdF (x : Reg) (s : State) : Result := .next (s.setI (standardGlyph (s.getV x)))

/-- Fx30 (R185). -/
def execLdHF (x : Reg) (s : State) : Result := .next (s.setI (extendedGlyph (s.getV x)))

/-- Fx33 (R187). -/
def execLdB (x : Reg) (s : State) : Result :=
  throughI 2 (fun s => s.setMem (s.mem.writeBytes s.i.toNat (decimalDigits (s.getV x)))) s

/-- Fx55 (R192): V0 to Vx to memory, ascending, then `I`. -/
def execStoreRegs (x : Reg) (s : State) : Result :=
  throughI x.toNat
    (fun s => (s.setMem (s.mem.writeBytes s.i.toNat (s.v.toList.take (x.toNat + 1)))).setI (indexAfterMove s x)) s

/-- The registers with V0 to Vx loaded from memory (R193). -/
def loadedRegs (x : Reg) (s : State) : Vector Byte 16 :=
  tabulate 16 fun k => if k ≤ x.toNat then s.mem.read (s.i.toNat + k) else s.v[k]?.getD 0

/-- Fx65 (R193): V0 to Vx from memory, then `I`. -/
def execLoadRegs (x : Reg) (s : State) : Result :=
  throughI x.toNat (fun s => { s with v := loadedRegs x s, i := indexAfterMove s x }) s

/-- Fx75 (R196): an explicit no-op for every `x`. -/
def execSaveFlags (_x : Reg) (s : State) : Result := .next s

/-- Fx85 (R197): an explicit no-op for every `x`. -/
def execRestoreFlags (_x : Reg) (s : State) : Result := .next s

end Sys2Proof.Machine
end

