-- ==== Sys2Proof/Machine/KeypadTimers.lean ====
section
/-! DEFINITION. Key skips, wait for key, timer reads and writes (44_keypad_timers.md). -/

namespace Sys2Proof.Machine

/-- Ex9E (R245). -/
def execSkp (x : Reg) (s : State) : Result := skipWhen (decide (s.key (keyNumber (s.getV x)) = .down)) s

/-- ExA1 (R246): a released cell is not down. -/
def execSknp (x : Reg) (s : State) : Result := skipWhen (decide (s.key (keyNumber (s.getV x)) ≠ .down)) s

/-- Fx0A (R248): take the lowest released key, or wait with `pc` back at this instruction. -/
def execLdVxK (x : Reg) (s : State) : Result :=
  match firstReleased s with
  | some k => .next (s.setV x (BitVec.ofNat 8 k))
  | none => .next (s.setPc (s.pc - 2))

/-- Fx07 (R250). -/
def execLdVxDT (x : Reg) (s : State) : Result := .next (s.setV x s.dt)

/-- Fx15 (R251). -/
def execLdDTVx (x : Reg) (s : State) : Result := .next (s.setDT (s.getV x))

/-- Fx18 (R252). -/
def execLdSTVx (x : Reg) (s : State) : Result := .next (s.setST (s.getV x))

end Sys2Proof.Machine
end

