-- ==== Sys2Proof/Machine/LoadAlu.lean ====
section
/-! DEFINITION. Loads, arithmetic, logic, shifts and the random byte (41_load_alu.md). -/

namespace Sys2Proof.Machine

/-- 6xkk (R152). -/
def execLdImm (x : Reg) (kk : Byte) (s : State) : Result := .next (s.setV x kk)

/-- 7xkk (R153): no flag is written. -/
def execAddImm (x : Reg) (kk : Byte) (s : State) : Result := .next (s.setV x (s.getV x + kk))

/-- 8xy0 (R154). -/
def execLdReg (x y : Reg) (s : State) : Result := .next (s.setV x (s.getV y))

/-- 8xy1 (R155): VF is not written. -/
def execOrReg (x y : Reg) (s : State) : Result := .next (s.setV x (s.getV x ||| s.getV y))

/-- 8xy2 (R156): VF is not written. -/
def execAndReg (x y : Reg) (s : State) : Result := .next (s.setV x (s.getV x &&& s.getV y))

/-- 8xy3 (R157): VF is not written. -/
def execXorReg (x y : Reg) (s : State) : Result := .next (s.setV x (s.getV x ^^^ s.getV y))

/-- 8xy4 (R158). -/
def execAddReg (x y : Reg) (s : State) : Result := .next (s.setFlagged x (addFlagged (s.getV x) (s.getV y)))

/-- 8xy5 (R160): Vx - Vy. -/
def execSubReg (x y : Reg) (s : State) : Result := .next (s.setFlagged x (subFlagged (s.getV x) (s.getV y)))

/-- 8xy6 (R162). -/
def execShr (x y : Reg) (s : State) : Result := .next (s.setFlagged x (shrFlagged (shiftSource s x y)))

/-- 8xy7 (R163): Vy - Vx. -/
def execSubn (x y : Reg) (s : State) : Result := .next (s.setFlagged x (subFlagged (s.getV y) (s.getV x)))

/-- 8xyE (R164). -/
def execShl (x y : Reg) (s : State) : Result := .next (s.setFlagged x (shlFlagged (shiftSource s x y)))

/-- Cxkk (R168): one draw of the generator, masked. -/
def execRnd (x : Reg) (kk : Byte) (s : State) : Result :=
  let draw := Config.rngNext s.rng
  .next ((s.setRng draw.1).setV x (draw.2 &&& kk))

end Sys2Proof.Machine
end

