-- ==== Sys2Proof/Machine/System.lean ====
section
/-! DEFINITION. Exit, and the no-op every unknown word is (45_system.md). -/

namespace Sys2Proof.Machine

/-- 00FD (R260): the flag is set; the core goes on. -/
def execExit (s : State) : Result := .next s.setExit

/-- Any word that matches no row of the opcode table (R110, R262): nothing. -/
def execUnknown (s : State) : Result := .next s

end Sys2Proof.Machine
end

