-- ==== Sys2Proof/Machine/HostOps.lean ====
section
/-! DEFINITION. What the host does between steps: construction, the resets, the loads, the memory port and the input
ports (R53, R54, R340 to R344). -/

namespace Sys2Proof.Machine

/-- Memory after `reset` (R343): all zero, or, with `Q_RAM_INIT` true, a byte no one knows at every address. -/
def memoryAfterReset (s : State) : Memory :=
  if s.config.quirks.ramInit then Memory.ofBytes (Config.freeRamByte s.ramDraws) else []

/-- `reset` (R343): the `reset` column of R45. Configuration, generator and parameters stay. -/
def resetCore (s : State) : State :=
  { s with
    v := Vector.replicate 16 0
    pc := s.config.programStart
    i := 0
    sp := stackBase
    dt := 0
    st := 0
    hires := false
    exit := false
    beep := false
    displayUpdated := false
    executed := false
    latch := FaultLatch.clear
    mem := memoryAfterReset s
    fb := FrameBuffer.clear
    keys := Vector.replicate 16 .up
    cpuCum := 0
    delayCum := 0
    soundCum := 0
    refreshCum := 0
    prevTime := s.clockMs
    curTime := s.clockMs
    elapsed := 0
    ramDraws := if s.config.quirks.ramInit then s.ramDraws + 1 else s.ramDraws }

/-- `load_font` (R341). -/
def loadFont (s : State) : State := s.setMem (s.mem.writeBytes 0 s.params.fontImage.toList)

/-- Whether an image fits from `PROGRAM_START` (R342). -/
def imageFits (s : State) (image : List Byte) : Bool :=
  decide (s.config.programStart.toNat + image.length ≤ memSize)

/-- `load_program` (R342): refused whole when it does not fit; the image is remembered for `soft reset`. -/
def loadProgram (image : List Byte) (s : State) : State :=
  if imageFits s image then
    { s with mem := s.mem.writeBytes s.config.programStart.toNat image, programImage := image }
  else s

/-- `construct(cfg)` (R340): configuration, seed, `reset`, `load_font`. -/
def construct (cfg : Config) (s : State) : State :=
  loadFont (resetCore { s with config := cfg, rng := s.params.rngSeed })

/-- `soft reset` (R344): `reset`, `load_font`, then the last program again. -/
def softReset (s : State) : State :=
  let t := loadFont (resetCore s)
  loadProgram t.programImage t

/-- One host action. -/
def applyAction (s : State) : HostAction → State
  | .setInputs clockMs keyLevel => { s with clockMs := clockMs, keyLevel := keyLevel }
  | .construct cfg => construct cfg s
  | .reset => resetCore s
  | .softReset => softReset s
  | .loadFont => loadFont s
  | .loadProgram image => loadProgram image s
  | .writeByte a value => s.setMem (s.mem.write a.toNat value)

/-- The host's turn before a step (R10, R356): its actions for this step, in order; with no plan left, nothing. -/
def hostTurn (s : State) : State :=
  match s.hostPlan with
  | [] => s
  | actions :: rest => actions.foldl applyAction { s with hostPlan := rest }

end Sys2Proof.Machine
end

