-- ==== Sys2Proof/Machine/Scheduler.lean ====
section
/-! DEFINITION. The executor wrapper and the parts of the scheduler step (46_scheduler_step.md). -/

namespace Sys2Proof.Machine

/-- A threshold in milliseconds: `1000 / frequency`, floor; unused, and 0, for frequency 0 (R39). -/
def threshold (freq : Millis) : Millis := if freq = 0 then 0 else 1000 / freq

/-- `cpu_max` (R39). -/
def cpuMax (c : Config) : Millis := threshold c.cpuFreq
/-- `timer_max` (R39). -/
def timerMax (c : Config) : Millis := threshold c.timerFreq
/-- `refresh_max` (R39). -/
def refreshMax (c : Config) : Millis := threshold c.refreshFreq

/-- A paced action is due: frequency 0, or the counter has reached the threshold (R282, R284, R287). -/
def due (freq counter max : Millis) : Bool := freq == 0 || decide (max.toNat ≤ counter.toNat)

/-- The instruction at `pc`, or the no-op of an unknown word (R262, R270). -/
def runWord (w : BitVec 16) (s : State) : Result :=
  match decodeWord w with
  | some i => exec i s
  | none => execUnknown s

/-- `Execute()` (R270): fetch check, fetch, advance, effect, and the keypad collapse unless it faulted. -/
def execute (s : State) : Result :=
  if lastAddr < s.pc.toNat + 1 then .next (takeFault .fetchRange s.pc s.pc s)
  else onNext (runWord (fetchWord s) (advancePc s)) fun t => .next (if t.faulted then t else collapseKeys t)

/-- Part (a), elapsed time (R281). -/
def elapsedPart (s : State) : State :=
  { s with prevTime := s.curTime, curTime := s.clockMs, elapsed := s.clockMs - s.curTime }

/-- The CPU counter with this step's time added (R282). -/
def accumulateCpu (s : State) : State := { s with cpuCum := s.cpuCum + s.elapsed }

/-- The pacing condition of part (b) (R282): no latched fault, and the executor is due. -/
def executorDue (s : State) : Bool := !s.faulted && due s.config.cpuFreq s.cpuCum (cpuMax s.config)

/-- Part (b), executor pacing, and the `executed` output (R282, R283). -/
def executorPart (s : State) : Result :=
  let s := accumulateCpu s
  if executorDue s then
    onNext (execute { s with cpuCum := 0 }) fun t => .next { t with executed := !t.faulted }
  else .next { s with executed := false }

/-- A count-down timer after one tick: it stops at zero (R284, R285). -/
def tick (t : Byte) : Byte := if t = 0 then 0 else t - 1

/-- Part (c), delay timer (R284). -/
def delayPart (s : State) : State :=
  let cum := s.delayCum + s.elapsed
  if due s.config.timerFreq cum (timerMax s.config) then { s with dt := tick s.dt, delayCum := 0 }
  else { s with delayCum := cum }

/-- Part (c), sound timer (R285). -/
def soundPart (s : State) : State :=
  let cum := s.soundCum + s.elapsed
  if due s.config.timerFreq cum (timerMax s.config) then { s with st := tick s.st, soundCum := 0 }
  else { s with soundCum := cum }

/-- Part (d), sound flag (R286). -/
def beepPart (s : State) : State := { s with beep := s.st != 0 }

/-- Part (e), refresh flag (R287). -/
def refreshPart (s : State) : State :=
  let cum := s.refreshCum + s.elapsed
  if due s.config.refreshFreq cum (refreshMax s.config) then { s with displayUpdated := true, refreshCum := 0 }
  else { s with displayUpdated := false, refreshCum := cum }

/-- Parts (c), (d), (e), in the order of R280. -/
def timingParts (s : State) : State := refreshPart (beepPart (soundPart (delayPart s)))

/-- The state part (b) starts in: keys sampled, then part (a) (R280). -/
def sampled (s : State) : State := elapsedPart (sampleKeys s)

/-- `Step()` (R280): sampling, (a), (b), (c), (d), (e). -/
def schedulerStep (s : State) : Result := onNext (executorPart (sampled s)) fun t => .next (timingParts t)

end Sys2Proof.Machine
end

