-- ==== Sys2Proof/Machine/Step.lean ====
section
/-! DEFINITION. One step of the machine: the host's turn, then one scheduler step (R10, R50, R280). -/

namespace Sys2Proof.Machine

/-- One step: what the host does between steps, then the scheduler step. -/
def step (s : State) : Host.Outcome State Fault Refusal := schedulerStep (hostTurn s)

/-- Where `withFetchWord` puts the instruction: at `pc`, or at 0x200 when no fetch at `pc` is possible. -/
def fetchPlace (s : State) : Addr := if lastAddr < s.pc.toNat + 1 then 0x200 else s.pc

/-- The CPU counter with which the executor is due in the next step: the present one if it already is. -/
def dueCpuCum (s : State) : Millis :=
  let gap := s.clockMs - s.curTime
  if due s.config.cpuFreq (s.cpuCum + gap) (cpuMax s.config) then s.cpuCum else cpuMax s.config - gap

/-- `s` with one instruction stored where the next step fetches, so that the next step runs exactly it: the word high
byte first at `pc`; no host action before that step; the fault latch empty; the executor due. -/
def State.withFetchWord (s : State) (nbits w : Nat) : State :=
  let word := BitVec.ofNat 16 (w % 2 ^ nbits)
  let place := fetchPlace s
  { s with
    pc := place
    mem := s.mem.write2 place.toNat word
    latch := if s.faulted then FaultLatch.clear else s.latch
    hostPlan := if s.hostPlan.isEmpty then [] else [] :: s.hostPlan
    cpuCum := dueCpuCum s }

end Sys2Proof.Machine
end

