-- ==== Sys2Proof/Safety.lean ====
section
/-! DEFINITION. What a legal state and a good run are, in the terms the statements use. -/

namespace Sys2Proof.Machine

/-- `SP` lies in the stack region at a whole number of entries from its base (R24). -/
abbrev State.stackOk (s : State) : Prop :=
  stackBase.toNat ≤ s.sp.toNat ∧ s.sp.toNat ≤ s.params.stackEnd.toNat ∧ (s.sp.toNat - stackBase.toNat) % 2 = 0

/-- The fault latch is consistent: empty registers with no cause; with a cause, `pc` is frozen at the faulting
instruction and the last step executed nothing (R33, R306, R307). -/
abbrev State.latchOk (s : State) : Prop :=
  if s.faulted then s.latch.pc = s.pc ∧ s.executed = false else s.latch = FaultLatch.clear

/-- After an executed instruction no cell is released (R243). -/
abbrev State.keysOk (s : State) : Prop := s.executed = true → ∀ k : BitVec 4, s.key k ≠ .released

/-- What holds at every step boundary: memory in its canonical form, a legal stack parameter, the stack bounds
(R24), equal sound and delay counters (R285), `beep` telling whether `ST` runs (R286), a consistent latch, and no
release left after an executed instruction. -/
structure State.Inv (s : State) : Prop where
  memory  : s.mem.wf
  params  : s.params.wf = true
  stack   : s.stackOk
  ticks   : s.soundCum = s.delayCum
  sound   : s.beep = (s.st != 0)
  latch   : s.latchOk
  keypad  : s.keysOk

/-- The end-to-end check of R310: no fault is reported. -/
abbrev State.Good (s : State) : Prop := s.faulted = false

/-- A step boundary at which the program has ended normally (R260, R358): `exit` is raised and no fault is latched.
DESIGN CHOICE (assumption 24): R358 calls `exit` = 1 a normal end and `FAULT` ≠ 0 an abnormal one and gives no
precedence where both hold (steps taken after 00FD until a fault); here the fault wins. -/
abbrev State.EndedNormally (s : State) : Prop := s.exit = true ∧ s.faulted = false

/-- A state the machine can come to from construction with some configuration and parameters, by steps and by
the host's choice of its coming actions (R10, R345). -/
inductive Reachable : State → Prop where
  /-- construction, whatever stood before, with legal parameters -/
  | constructed (cfg : Config) (s : State) (h : s.params.wf = true) : Reachable (construct cfg s)
  /-- the host decides what it will do -/
  | planned (s : State) (plan : List (List HostAction)) (h : Reachable s) : Reachable { s with hostPlan := plan }
  /-- one step -/
  | stepped (s t : State) (h : Reachable s) (e : step s = .next t) : Reachable t

/-! What a sprite draw amounts to, said without its loops: where each sprite row and column lands on the logical
screen, which logical pixels it covers, which rows collide (R222 to R225). -/

/-- Where offset `k` from an origin lands on an axis of this size: itself, wrapped, or nowhere when clipped (R223). -/
def landing (size : Nat) (clip : Bool) (origin k : Nat) : Option Nat :=
  if origin + k < size then some (origin + k) else if clip then none else some ((origin + k) % size)

/-- A draw: mode, quirks, sprite bits, shape and reduced origin. -/
structure Drawing where
  hires : Bool
  q     : Quirks
  bit   : Nat → Nat → Bool
  shape : SpriteShape
  x0    : Nat
  y0    : Nat

/-- The draw of Dxyn in a state (R221, R222). -/
def drawingOf (x y : Reg) (n : BitVec 4) (s : State) : Drawing :=
  let shape := spriteShape s.hires s.config.quirks n
  { hires := s.hires
    q := s.config.quirks
    bit := spriteBit s.mem s.i.toNat shape.bpr
    shape := shape
    x0 := (s.getV x).toNat % logicalWidth s.hires
    y0 := (s.getV y).toNat % logicalHeight s.hires }

/-- The logical row sprite row `r` lands on. -/
def Drawing.rowAt (d : Drawing) (r : Nat) : Option Nat := landing (logicalHeight d.hires) d.q.clip d.y0 r

/-- The logical column sprite column `c` lands on. -/
def Drawing.colAt (d : Drawing) (c : Nat) : Option Nat := landing (logicalWidth d.hires) d.q.clip d.x0 c

/-- Some 1-bit of the sprite lands on this logical pixel. -/
def Drawing.Covers (d : Drawing) (lx ly : Nat) : Prop :=
  ∃ r c, r < d.shape.rows ∧ c < 8 * d.shape.bpr ∧ d.bit r c = true ∧ d.rowAt r = some ly ∧ d.colAt c = some lx

/-- Some 1-bit of sprite row `r` lands on a logical pixel that is 1. -/
def Drawing.RowCollides (d : Drawing) (fb : FrameBuffer) (r : Nat) : Prop :=
  ∃ c lx ly, c < 8 * d.shape.bpr ∧ d.bit r c = true ∧ d.rowAt r = some ly ∧ d.colAt c = some lx ∧
    fb.getLogical d.hires lx ly = true

/-- Sprite row `r` counts as a collision (R225): it collides, or it is clipped below the bottom edge and
`Q_BOTTOM_COLLISION` says such rows count. -/
def Drawing.RowCounts (d : Drawing) (fb : FrameBuffer) (r : Nat) : Prop :=
  d.RowCollides fb r ∨ (d.rowAt r = none ∧ d.q.bottomCollision = true)

/-- The logical coordinate a physical one belongs to (R200). -/
def blockOf (hires : Bool) (p : Nat) : Nat := if hires then p else p / 2

/-! What instructions may write, read off the spec's rules, and what no instruction may depend on. -/

/-- The instruction may write VF: the six that write it as a flag, and those whose destination it is (R21). -/
def mayWriteVF : Instr → Bool
  | .addReg _ _ | .subReg _ _ | .shr _ _ | .subn _ _ | .shl _ _ | .drw _ _ _ => true
  | .ldImm x _ | .addImm x _ | .ldReg x _ | .orReg x _ | .andReg x _ | .xorReg x _ | .rnd x _ | .ldVxDT x
  | .ldVxK x | .loadRegs x => x == regVF
  | .scd _ | .scu _ | .cls | .ret | .scr | .scl | .exit | .low | .high | .jp _ | .call _ | .seImm _ _ | .sneImm _ _
  | .seReg _ _ | .sneReg _ _ | .ldI _ | .jpV0 _ _ | .skp _ | .sknp _ | .ldDTVx _ | .ldSTVx _ | .addI _ | .ldF _
  | .ldHF _ | .ldB _ | .storeRegs _ | .saveFlags _ | .restoreFlags _ => false

/-- The instruction may write main memory (R77). -/
def mayWriteMemory : Instr → Bool
  | .call _ | .ldB _ | .storeRegs _ => true
  | .scd _ | .scu _ | .cls | .ret | .scr | .scl | .exit | .low | .high | .jp _ | .seImm _ _ | .sneImm _ _ | .seReg _ _
  | .ldImm _ _ | .addImm _ _ | .ldReg _ _ | .orReg _ _ | .andReg _ _ | .xorReg _ _ | .addReg _ _ | .subReg _ _
  | .shr _ _ | .subn _ _ | .shl _ _ | .sneReg _ _ | .ldI _ | .jpV0 _ _ | .rnd _ _ | .drw _ _ _ | .skp _ | .sknp _
  | .ldVxDT _ | .ldVxK _ | .ldDTVx _ | .ldSTVx _ | .addI _ | .ldF _ | .ldHF _ | .loadRegs _ | .saveFlags _
  | .restoreFlags _ => false

/-- The instruction may write the display buffer (R35: only draw, scroll and clear operations). -/
def mayWriteDisplay : Instr → Bool
  | .scd _ | .scu _ | .cls | .scr | .scl | .low | .high | .drw _ _ _ => true
  | .ret | .exit | .jp _ | .call _ | .seImm _ _ | .sneImm _ _ | .seReg _ _ | .ldImm _ _ | .addImm _ _ | .ldReg _ _
  | .orReg _ _ | .andReg _ _ | .xorReg _ _ | .addReg _ _ | .subReg _ _ | .shr _ _ | .subn _ _ | .shl _ _ | .sneReg _ _
  | .ldI _ | .jpV0 _ _ | .rnd _ _ | .skp _ | .sknp _ | .ldVxDT _ | .ldVxK _ | .ldDTVx _ | .ldSTVx _ | .addI _ | .ldF _
  | .ldHF _ | .ldB _ | .storeRegs _ | .loadRegs _ | .saveFlags _ | .restoreFlags _ => false

/-- A state with another's timing: counters, timestamps, frequencies and input levels (R360). -/
def State.withTimingOf (s e : State) : State :=
  { s with
    cpuCum := e.cpuCum
    delayCum := e.delayCum
    soundCum := e.soundCum
    refreshCum := e.refreshCum
    prevTime := e.prevTime
    curTime := e.curTime
    elapsed := e.elapsed
    clockMs := e.clockMs
    keyLevel := e.keyLevel
    config := { s.config with
      cpuFreq := e.config.cpuFreq, timerFreq := e.config.timerFreq, refreshFreq := e.config.refreshFreq } }

/-- The pacing condition with the thresholds of R39 written out (R282). -/
abbrev State.PacedNow (u : State) : Prop :=
  u.config.cpuFreq = 0 ∨ (1000 / u.config.cpuFreq).toNat ≤ (u.cpuCum + u.elapsed).toNat

end Sys2Proof.Machine
end

