-- ==== Sys2Proof/Certificates/Slice0/Obligations.lean ====
section
/-! DEFINITION. The statements for the provers. In a statement about one instruction, `s` is the state the executor hands
to the instruction, `pc` already moved past its two bytes (R130), so the instruction's own address is `s.pc - 2`;
`t = { s with v := t.v }` says that nothing but the general registers differs, so no byte of memory, no pixel, no other
register and no flag of the core. In a statement about a step, `u` is the state part (b) of the step starts in: the
host's turn taken, the keys sampled, the elapsed time computed (R280). -/

open Sys2Proof Sys2Proof.Machine

/-! Encoding. -/

/-- Words written out from the spec's patterns decode to the instructions they stand for, and malformed words to none
(95_test_vectors.md 2.1 to 2.7). A sanity statement. -/
def Obligations.SpecWordsDecode : Prop :=
  decodeWord 0x612A = some (.ldImm 1 0x2A) ∧ decodeWord 0x1ABC = some (.jp 0xABC) ∧
  decodeWord 0x8F14 = some (.addReg 15 1) ∧ decodeWord 0xD012 = some (.drw 0 1 2) ∧
  decodeWord 0xB210 = some (.jpV0 0x210 2) ∧ decodeWord 0xE29E = some (.skp 2) ∧
  decodeWord 0xF30A = some (.ldVxK 3) ∧ decodeWord 0xF255 = some (.storeRegs 2) ∧
  decodeWord 0x00C3 = some (.scd 3) ∧ decodeWord 0x00EE = some .ret ∧
  decodeWord 0x01E0 = none ∧ decodeWord 0x5121 = none ∧ decodeWord 0x0000 = none ∧
  decode [0x61, 0x2A, 0x00] = .ok (.ldImm 1 0x2A, [0x00])

/-- Decoding the words, and the bytes, of any well-formed instruction gives that instruction back, every operand at
every value (R102 to R109). -/
def Obligations.DecodeOfEncodeIsTheInstruction : Prop :=
  ∀ i : Instr, i.wf = true →
    decodeWord (encode i) = some i ∧
    (∀ rest : List Byte, decode (encodeBytes i ++ rest) = .ok (i, rest)) ∧
    decodeTableWord 16 (encode i).toNat = some i

/-- What decodes is well formed, and encodes back to the very word: no bit of a word is dropped (R102, R105). -/
def Obligations.EncodeOfDecodeIsTheWord : Prop :=
  ∀ (w : BitVec 16) (i : Instr), decodeWord w = some i → i.wf = true ∧ encode i = w

/-- R105: an instruction word selects the row for which `w & mask = match`; no word matches two rows; a word that
matches none is unknown. -/
def Obligations.DecodingSelectsTheMatchingRow : Prop :=
  ∀ w : BitVec 16,
    match decodeWord w with
    | some i => opcodeTable.filter (fun r => w &&& r.mask == r.value) = [i.row]
    | none => ∀ r ∈ opcodeTable, w &&& r.mask ≠ r.value

/-- The unknown words are exactly those R111 lists, class by class (its word counts are not restated). -/
def Obligations.UnknownWordsAreExactlyThoseListed : Prop :=
  ∀ w : BitVec 16, decodeWord w = none ↔
    (w.toNat / 4096 = 0 ∧ ¬ (0x00C0 ≤ w.toNat ∧ w.toNat ≤ 0x00DF) ∧ w.toNat ≠ 0x00E0 ∧ w.toNat ≠ 0x00EE ∧
      ¬ (0x00FB ≤ w.toNat ∧ w.toNat ≤ 0x00FF)) ∨
    (w.toNat / 4096 = 5 ∧ w.toNat % 16 ≠ 0) ∨
    (w.toNat / 4096 = 8 ∧ w.toNat % 16 ∈ [8, 9, 10, 11, 12, 13, 15]) ∨
    (w.toNat / 4096 = 9 ∧ w.toNat % 16 ≠ 0) ∨
    (w.toNat / 4096 = 14 ∧ w.toNat % 256 ≠ 0x9E ∧ w.toNat % 256 ≠ 0xA1) ∨
    (w.toNat / 4096 = 15 ∧
      w.toNat % 256 ∉ [0x07, 0x0A, 0x15, 0x18, 0x1E, 0x29, 0x30, 0x33, 0x55, 0x65, 0x75, 0x85])

/-! Fetch and the step around an instruction. -/

/-- A step runs the decoded instruction: when the executor is due, no fault is latched and the two bytes at `pc` decode
to `i`, the step is `exec i` with `pc` moved past the word and the CPU counter cleared, then the keypad collapse unless
the instruction faulted, `executed`, and the timing parts (R130, R270, R280, R282, R283). -/
def Obligations.StepRunsTheDecodedInstruction : Prop :=
  ∀ (s u : State) (i : Instr), u = sampled (hostTurn s) → u.faulted = false → u.PacedNow →
    u.pc.toNat + 1 ≤ 0x0FFF →
    decode [u.mem.read u.pc.toNat, u.mem.read (u.pc.toNat + 1)] = .ok (i, []) →
    step s = onNext (exec i { u with cpuCum := 0, pc := u.pc + 2 }) fun t =>
      .next (timingParts { (if t.faulted then t else collapseKeys t) with executed := !t.faulted })

/-- R110, R262: a word that matches no row of the opcode table is a no-op that counts as an executed instruction: only
`pc`, the keypad collapse, the CPU counter and `executed`, then the timing parts every step has. -/
def Obligations.UnknownWordIsAnExecutedNoOp : Prop :=
  ∀ s u : State, u = sampled (hostTurn s) → u.faulted = false → u.PacedNow → u.pc.toNat + 1 ≤ 0x0FFF →
    (∀ r ∈ opcodeTable, (u.mem.read u.pc.toNat ++ u.mem.read (u.pc.toNat + 1)) &&& r.mask ≠ r.value) →
    ∃ t : State, step s = .next t ∧ t.executed = true ∧ t.cpuCum = 0 ∧ t.pc = u.pc + 2 ∧
      (∀ k, t.key k = if u.key k = .released then .up else u.key k) ∧
      t.v = u.v ∧ t.i = u.i ∧ t.sp = u.sp ∧ t.hires = u.hires ∧ t.exit = u.exit ∧ t.mem = u.mem ∧ t.fb = u.fb ∧
      t.rng = u.rng ∧ t.faulted = false ∧
      t.dt = (delayPart u).dt ∧ t.st = (soundPart u).st

/-- R301: a fetch either of whose bytes lies outside memory raises FetchRange, cause code 1, with `FAULT_ADDR` = `pc`;
no other fetch does. -/
def Obligations.FetchBeyondMemoryFaults : Prop :=
  (∀ s u : State, u = sampled (hostTurn s) → u.faulted = false → u.PacedNow → 0x0FFF < u.pc.toNat + 1 →
    step s = .next (timingParts { u with
      cpuCum := 0, executed := false, latch := { cause := some .fetchRange, pc := u.pc, addr := u.pc } })) ∧
  (∀ p a : Addr, ({ cause := some .fetchRange, pc := p, addr := a } : FaultLatch).code = 1) ∧
  (∀ u t : State, u.faulted = false → u.pc.toNat + 1 ≤ 0x0FFF → execute u = .next t →
    t.latch.cause ≠ some .fetchRange)

/-- Placing a word for the next step works in every state with canonical memory: the next step runs exactly that
word's instruction, and nothing but what the fetch needs was changed. The placing is the model's own (entry 17). -/
def Obligations.PlacedWordRunsNext : Prop :=
  ∀ (s f u : State) (w : BitVec 16) (i : Instr), s.mem.wf → decodeWord w = some i →
    f = s.withFetchWord 16 w.toNat → u = sampled (hostTurn f) →
    step f = onNext (exec i { u with cpuCum := 0, pc := u.pc + 2 }) (fun t =>
      .next (timingParts { (if t.faulted then t else collapseKeys t) with executed := !t.faulted })) ∧
    u.pc = f.pc ∧ u.mem.read2 u.pc.toNat = w ∧ (s.pc.toNat + 1 ≤ 0x0FFF → f.pc = s.pc) ∧
    (∀ a, a ≠ f.pc.toNat → a ≠ f.pc.toNat + 1 → f.mem.read a = s.mem.read a) ∧
    f = { s with pc := f.pc, mem := f.mem, latch := f.latch, hostPlan := f.hostPlan, cpuCum := f.cpuCum }

/-! Control transfer. -/

/-- R131: 1nnn. -/
def Obligations.JumpGoesToItsTarget : Prop :=
  ∀ (nnn : BitVec 12) (s : State), (Instr.jp nnn).row = ⟨0x1000, 0xF000⟩ ∧
    ∃ t : State, exec (.jp nnn) s = .next t ∧ t.pc.toNat = nnn.toNat ∧ t = { s with pc := t.pc }

/-- R132, R303: 2nnn pushes the return address, high byte at `SP`, and jumps; with the stack region full it raises
StackOverflow, cause code 3, with nothing pushed. -/
def Obligations.CallPushesAndJumps : Prop :=
  ∀ (nnn : BitVec 12) (s : State), s.params.wf = true → s.mem.wf → (Instr.call nnn).row = ⟨0x2000, 0xF000⟩ ∧
    (s.sp.toNat + 2 ≤ s.params.stackEnd.toNat →
      ∃ t : State, exec (.call nnn) s = .next t ∧ t.pc.toNat = nnn.toNat ∧ t.sp.toNat = s.sp.toNat + 2 ∧
        (t.mem.read s.sp.toNat).toNat = s.pc.toNat / 256 ∧
        (t.mem.read (s.sp.toNat + 1)).toNat = s.pc.toNat % 256 ∧
        (∀ a, a ≠ s.sp.toNat → a ≠ s.sp.toNat + 1 → t.mem.read a = s.mem.read a) ∧
        t = { s with pc := t.pc, sp := t.sp, mem := t.mem }) ∧
    (s.params.stackEnd.toNat < s.sp.toNat + 2 →
      ∃ t : State, exec (.call nnn) s = .next t ∧ t.latch.code = 3 ∧
        t = { s with pc := s.pc - 2, latch := { cause := some .stackOverflow, pc := s.pc - 2, addr := s.sp } })

/-- R134, R304: 00EE takes the two bytes below `SP` as `pc`, all 16 bits; with the stack empty it raises StackUnderflow,
cause code 4, with nothing popped. `SP` within `STACK_END` is the invariant of R24. -/
def Obligations.ReturnPopsTheAddress : Prop :=
  ∀ s : State, s.params.wf = true → s.sp.toNat ≤ s.params.stackEnd.toNat → Instr.ret.row = ⟨0x00EE, 0xFFFF⟩ ∧
    (0x00F0 + 2 ≤ s.sp.toNat →
      ∃ t : State, exec .ret s = .next t ∧ t.sp.toNat = s.sp.toNat - 2 ∧
        t.pc.toNat = 256 * (s.mem.read (s.sp.toNat - 2)).toNat + (s.mem.read (s.sp.toNat - 1)).toNat ∧
        t = { s with pc := t.pc, sp := t.sp }) ∧
    (s.sp.toNat < 0x00F0 + 2 →
      ∃ t : State, exec .ret s = .next t ∧ t.latch.code = 4 ∧
        t = { s with pc := s.pc - 2, latch := { cause := some .stackUnderflow, pc := s.pc - 2, addr := s.sp } })

/-- R136: Bnnn adds V0, or under `Q_JUMP` the register its own top digit names, and keeps the sum in full. -/
def Obligations.IndexedJumpAddsTheRegister : Prop :=
  ∀ (nnn : BitVec 12) (x : Reg) (s : State), x.toNat = nnn.toNat / 256 →
    (Instr.jpV0 nnn x).row = ⟨0xB000, 0xF000⟩ ∧
    ∃ t : State, exec (.jpV0 nnn x) s = .next t ∧ t = { s with pc := t.pc } ∧
      t.pc.toNat = nnn.toNat + (if s.config.quirks.jump then s.getV x else s.getV 0).toNat

/-- R138 to R141: the four compare skips move `pc` a further 2 exactly when their condition holds. -/
def Obligations.CompareSkipsMovePcByTwo : Prop :=
  ∀ (x y : Reg) (kk : Byte) (s : State),
    ((Instr.seImm x kk).row = ⟨0x3000, 0xF000⟩ ∧
      exec (.seImm x kk) s = .next { s with pc := if s.getV x = kk then s.pc + 2 else s.pc }) ∧
    ((Instr.sneImm x kk).row = ⟨0x4000, 0xF000⟩ ∧
      exec (.sneImm x kk) s = .next { s with pc := if s.getV x = kk then s.pc else s.pc + 2 }) ∧
    ((Instr.seReg x y).row = ⟨0x5000, 0xF00F⟩ ∧
      exec (.seReg x y) s = .next { s with pc := if s.getV x = s.getV y then s.pc + 2 else s.pc }) ∧
    ((Instr.sneReg x y).row = ⟨0x9000, 0xF00F⟩ ∧
      exec (.sneReg x y) s = .next { s with pc := if s.getV x = s.getV y then s.pc else s.pc + 2 })

/-- R245, R246: the key skips test the cell the low four bits of Vx name; a released cell is not down. -/
def Obligations.KeySkipsTestTheCell : Prop :=
  ∀ (x : Reg) (k : BitVec 4) (s : State), k.toNat = (s.getV x).toNat % 16 →
    ((Instr.skp x).row = ⟨0xE09E, 0xF0FF⟩ ∧
      exec (.skp x) s = .next { s with pc := if s.key k = .down then s.pc + 2 else s.pc }) ∧
    ((Instr.sknp x).row = ⟨0xE0A1, 0xF0FF⟩ ∧
      exec (.sknp x) s = .next { s with pc := if s.key k = .down then s.pc else s.pc + 2 })

/-! Loads, arithmetic, logic, shifts, random. -/

/-- R152, R153, R154: the loads, and the immediate add modulo 256 that writes no flag. -/
def Obligations.LoadsAndImmediateAdd : Prop :=
  ∀ (x y : Reg) (kk : Byte) (s : State),
    ((Instr.ldImm x kk).row = ⟨0x6000, 0xF000⟩ ∧
      ∃ t : State, exec (.ldImm x kk) s = .next t ∧ t.getV x = kk ∧ (∀ r, r ≠ x → t.getV r = s.getV r) ∧
        t = { s with v := t.v }) ∧
    ((Instr.addImm x kk).row = ⟨0x7000, 0xF000⟩ ∧
      ∃ t : State, exec (.addImm x kk) s = .next t ∧
        (t.getV x).toNat = ((s.getV x).toNat + kk.toNat) % 256 ∧ (∀ r, r ≠ x → t.getV r = s.getV r) ∧
        t = { s with v := t.v }) ∧
    ((Instr.ldReg x y).row = ⟨0x8000, 0xF00F⟩ ∧
      ∃ t : State, exec (.ldReg x y) s = .next t ∧ t.getV x = s.getV y ∧ (∀ r, r ≠ x → t.getV r = s.getV r) ∧
        t = { s with v := t.v })

/-- R155, R156, R157: OR, AND, XOR bit by bit; no other register, so VF is not written unless it is Vx. -/
def Obligations.LogicIsBitwiseAndLeavesVF : Prop :=
  ∀ (x y : Reg) (s : State),
    ((Instr.orReg x y).row = ⟨0x8001, 0xF00F⟩ ∧
      ∃ t : State, exec (.orReg x y) s = .next t ∧
        (∀ j, (t.getV x).getLsbD j = ((s.getV x).getLsbD j || (s.getV y).getLsbD j)) ∧
        (∀ r, r ≠ x → t.getV r = s.getV r) ∧ t = { s with v := t.v }) ∧
    ((Instr.andReg x y).row = ⟨0x8002, 0xF00F⟩ ∧
      ∃ t : State, exec (.andReg x y) s = .next t ∧
        (∀ j, (t.getV x).getLsbD j = ((s.getV x).getLsbD j && (s.getV y).getLsbD j)) ∧
        (∀ r, r ≠ x → t.getV r = s.getV r) ∧ t = { s with v := t.v }) ∧
    ((Instr.xorReg x y).row = ⟨0x8003, 0xF00F⟩ ∧
      ∃ t : State, exec (.xorReg x y) s = .next t ∧
        (∀ j, (t.getV x).getLsbD j = ((s.getV x).getLsbD j != (s.getV y).getLsbD j)) ∧
        (∀ r, r ≠ x → t.getV r = s.getV r) ∧ t = { s with v := t.v })

/-- R158: 8xy4, the sum modulo 256 and then the carry in VF, which ends as the carry also when it is the destination. -/
def Obligations.AddWritesSumThenCarry : Prop :=
  ∀ (x y : Reg) (s : State), (Instr.addReg x y).row = ⟨0x8004, 0xF00F⟩ ∧
    ∃ t : State, exec (.addReg x y) s = .next t ∧
      (x ≠ 15 → (t.getV x).toNat = ((s.getV x).toNat + (s.getV y).toNat) % 256) ∧
      (t.getV 15).toNat = (if 255 < (s.getV x).toNat + (s.getV y).toNat then 1 else 0) ∧
      (∀ r, r ≠ x → r ≠ 15 → t.getV r = s.getV r) ∧ t = { s with v := t.v }

/-- R160, R163: 8xy5 is Vx - Vy and 8xy7 is Vy - Vx, modulo 256; then VF is 1 exactly when no borrow occurs. -/
def Obligations.SubtractsWriteDifferenceThenNoBorrow : Prop :=
  ∀ (x y : Reg) (s : State),
    ((Instr.subReg x y).row = ⟨0x8005, 0xF00F⟩ ∧
      ∃ t : State, exec (.subReg x y) s = .next t ∧
        (x ≠ 15 → (t.getV x).toNat = ((s.getV x).toNat + 256 - (s.getV y).toNat) % 256) ∧
        (t.getV 15).toNat = (if (s.getV y).toNat ≤ (s.getV x).toNat then 1 else 0) ∧
        (∀ r, r ≠ x → r ≠ 15 → t.getV r = s.getV r) ∧ t = { s with v := t.v }) ∧
    ((Instr.subn x y).row = ⟨0x8007, 0xF00F⟩ ∧
      ∃ t : State, exec (.subn x y) s = .next t ∧
        (x ≠ 15 → (t.getV x).toNat = ((s.getV y).toNat + 256 - (s.getV x).toNat) % 256) ∧
        (t.getV 15).toNat = (if (s.getV x).toNat ≤ (s.getV y).toNat then 1 else 0) ∧
        (∀ r, r ≠ x → r ≠ 15 → t.getV r = s.getV r) ∧ t = { s with v := t.v })

/-- R162, R164: the shifts by one of Vy, or of Vx under `Q_SHIFT`; then VF is the bit shifted out. -/
def Obligations.ShiftsMoveOneBitIntoVF : Prop :=
  ∀ (x y : Reg) (s : State) (v : Byte), v = (if s.config.quirks.shift then s.getV x else s.getV y) →
    ((Instr.shr x y).row = ⟨0x8006, 0xF00F⟩ ∧
      ∃ t : State, exec (.shr x y) s = .next t ∧
        (x ≠ 15 → (t.getV x).toNat = v.toNat / 2) ∧ (t.getV 15).toNat = v.toNat % 2 ∧
        (∀ r, r ≠ x → r ≠ 15 → t.getV r = s.getV r) ∧ t = { s with v := t.v }) ∧
    ((Instr.shl x y).row = ⟨0x800E, 0xF00F⟩ ∧
      ∃ t : State, exec (.shl x y) s = .next t ∧
        (x ≠ 15 → (t.getV x).toNat = 2 * v.toNat % 256) ∧ (t.getV 15).toNat = v.toNat / 128 ∧
        (∀ r, r ≠ x → r ≠ 15 → t.getV r = s.getV r) ∧ t = { s with v := t.v })

/-- R168: Cxkk makes one draw of the generator, whatever the generator is, and masks it; no other instruction and no
unknown word draws. -/
def Obligations.RandomDrawsOnceAndMasks : Prop :=
  (∀ (x : Reg) (kk : Byte) (s : State), (Instr.rnd x kk).row = ⟨0xC000, 0xF000⟩ ∧
    ∃ t : State, exec (.rnd x kk) s = .next t ∧ t.rng = (Config.rngNext s.rng).1 ∧
      (∀ j, (t.getV x).getLsbD j = ((Config.rngNext s.rng).2.getLsbD j && kk.getLsbD j)) ∧
      (∀ r, r ≠ x → t.getV r = s.getV r) ∧ t = { s with v := t.v, rng := t.rng }) ∧
  (∀ (i : Instr) (s t : State), exec i s = .next t → (∀ x kk, i ≠ .rnd x kk) → t.rng = s.rng) ∧
  (∀ s t : State, execUnknown s = .next t → t.rng = s.rng)

/-! Index register and memory. -/

/-- R181, R182, R184, R185: the instructions that write `I` and nothing else, VF included. -/
def Obligations.IndexRegisterLoads : Prop :=
  ∀ (nnn : BitVec 12) (x : Reg) (s : State),
    ((Instr.ldI nnn).row = ⟨0xA000, 0xF000⟩ ∧
      ∃ t : State, exec (.ldI nnn) s = .next t ∧ t.i.toNat = nnn.toNat ∧ t = { s with i := t.i }) ∧
    ((Instr.addI x).row = ⟨0xF01E, 0xF0FF⟩ ∧
      ∃ t : State, exec (.addI x) s = .next t ∧ t.i.toNat = (s.i.toNat + (s.getV x).toNat) % 65536 ∧
        t = { s with i := t.i }) ∧
    ((Instr.ldF x).row = ⟨0xF029, 0xF0FF⟩ ∧
      ∃ t : State, exec (.ldF x) s = .next t ∧ t.i.toNat = 5 * (s.getV x).toNat ∧ t = { s with i := t.i }) ∧
    ((Instr.ldHF x).row = ⟨0xF030, 0xF0FF⟩ ∧
      ∃ t : State, exec (.ldHF x) s = .next t ∧ t.i.toNat = 0x50 + 10 * (s.getV x).toNat ∧ t = { s with i := t.i })

/-- R187: Fx33 stores the three decimal digits of Vx from `I` upward; out of range it raises MemRange before any
byte is written. -/
def Obligations.DecimalDigitsAreStored : Prop :=
  ∀ (x : Reg) (s : State), s.mem.wf → (Instr.ldB x).row = ⟨0xF033, 0xF0FF⟩ ∧
    (s.i.toNat + 2 ≤ 0x0FFF →
      ∃ t : State, exec (.ldB x) s = .next t ∧
        (t.mem.read s.i.toNat).toNat = (s.getV x).toNat / 100 ∧
        (t.mem.read (s.i.toNat + 1)).toNat = (s.getV x).toNat / 10 % 10 ∧
        (t.mem.read (s.i.toNat + 2)).toNat = (s.getV x).toNat % 10 ∧
        (∀ a, (a < s.i.toNat ∨ s.i.toNat + 2 < a) → t.mem.read a = s.mem.read a) ∧
        t = { s with mem := t.mem }) ∧
    (0x0FFF < s.i.toNat + 2 →
      exec (.ldB x) s = .next { s with
        pc := s.pc - 2
        latch := { cause := some .memRange, pc := s.pc - 2, addr := if s.i.toNat < 0x1000 then 0x1000 else s.i } })

/-- R192: Fx55 stores V0 to Vx from `I` upward and, without `Q_LOADSTORE`, moves `I` past them; out of range it raises
MemRange before any byte is written. -/
def Obligations.RegistersAreStored : Prop :=
  ∀ (x : Reg) (s : State), s.mem.wf → (Instr.storeRegs x).row = ⟨0xF055, 0xF0FF⟩ ∧
    (s.i.toNat + x.toNat ≤ 0x0FFF →
      ∃ t : State, exec (.storeRegs x) s = .next t ∧
        (∀ r : Reg, r.toNat ≤ x.toNat → t.mem.read (s.i.toNat + r.toNat) = s.getV r) ∧
        (∀ a, (a < s.i.toNat ∨ s.i.toNat + x.toNat < a) → t.mem.read a = s.mem.read a) ∧
        t.i.toNat = (if s.config.quirks.loadStore then s.i.toNat else s.i.toNat + x.toNat + 1) ∧
        t = { s with mem := t.mem, i := t.i }) ∧
    (0x0FFF < s.i.toNat + x.toNat →
      exec (.storeRegs x) s = .next { s with
        pc := s.pc - 2
        latch := { cause := some .memRange, pc := s.pc - 2, addr := if s.i.toNat < 0x1000 then 0x1000 else s.i } })

/-- R193: Fx65 loads V0 to Vx from `I` upward, leaves the registers above, and moves `I` as Fx55 does; out of range it
raises MemRange before any register is written; and the round-trip law: a load after a store, with the same `I`, gives
the stored registers back whatever stands in the registers and whatever the quirk of either. -/
def Obligations.RegistersAreLoadedAndRoundTrip : Prop :=
  (∀ (x : Reg) (s : State), (Instr.loadRegs x).row = ⟨0xF065, 0xF0FF⟩ ∧
    (s.i.toNat + x.toNat ≤ 0x0FFF →
      ∃ t : State, exec (.loadRegs x) s = .next t ∧
        (∀ r : Reg, r.toNat ≤ x.toNat → t.getV r = s.mem.read (s.i.toNat + r.toNat)) ∧
        (∀ r : Reg, x.toNat < r.toNat → t.getV r = s.getV r) ∧
        t.i.toNat = (if s.config.quirks.loadStore then s.i.toNat else s.i.toNat + x.toNat + 1) ∧
        t = { s with v := t.v, i := t.i }) ∧
    (0x0FFF < s.i.toNat + x.toNat →
      exec (.loadRegs x) s = .next { s with
        pc := s.pc - 2
        latch := { cause := some .memRange, pc := s.pc - 2, addr := if s.i.toNat < 0x1000 then 0x1000 else s.i } })) ∧
  (∀ (x : Reg) (s t u w : State), s.mem.wf → s.i.toNat + x.toNat ≤ 0x0FFF → exec (.storeRegs x) s = .next t →
    u.mem = t.mem → u.i = s.i → exec (.loadRegs x) u = .next w →
    ∀ r : Reg, r.toNat ≤ x.toNat → w.getV r = s.getV r)

/-- R196, R197: the user-flag instructions change nothing, for every `x`. -/
def Obligations.UserFlagStubsDoNothing : Prop :=
  ∀ (x : Reg) (s : State),
    (Instr.saveFlags x).row = ⟨0xF075, 0xF0FF⟩ ∧ exec (.saveFlags x) s = .next s ∧
    (Instr.restoreFlags x).row = ⟨0xF085, 0xF0FF⟩ ∧ exec (.restoreFlags x) s = .next s

/-- R226, R302: the four instructions that access memory through `I` raise MemRange, cause code 2, exactly when the
highest address they would access is above 0x0FFF; the check covers all of a sprite's bytes whatever is clipped; the
offending address is the larger of `I` and 0x1000; nothing else changes. -/
def Obligations.AccessBeyondMemoryFaults : Prop :=
  ∀ (i : Instr) (x y : Reg) (n : BitVec 4) (s : State) (highest : Nat),
    ((i = .ldB x ∧ highest = s.i.toNat + 2) ∨
     (i = .storeRegs x ∧ highest = s.i.toNat + x.toNat) ∨
     (i = .loadRegs x ∧ highest = s.i.toNat + x.toNat) ∨
     (i = .drw x y n ∧ n ≠ 0 ∧ highest = s.i.toNat + n.toNat - 1) ∨
     (i = .drw x y n ∧ n = 0 ∧ (s.hires = true ∨ s.config.quirks.bigSpriteLores = false) ∧
        highest = s.i.toNat + 31) ∨
     (i = .drw x y n ∧ n = 0 ∧ s.hires = false ∧ s.config.quirks.bigSpriteLores = true ∧
        highest = s.i.toNat + 15)) →
    ∃ t : State, exec i s = .next t ∧
      (0x0FFF < highest →
        t.latch.code = 2 ∧ t.latch.addr.toNat = max s.i.toNat 0x1000 ∧ t.latch.pc = s.pc - 2 ∧
        t = { s with pc := s.pc - 2, latch := t.latch }) ∧
      (highest ≤ 0x0FFF → t.latch = s.latch ∧ t.pc = s.pc)

/-! Display. -/

/-- R201, R202: the two pixel primitives against the 1024 bytes of the buffer: `GetPixel` is bit `7 - (px mod 8)` of byte
`py*16 + px/8`; `SetPixel` assigns that bit, leaves every other, and is idempotent. -/
def Obligations.PixelPrimitivesAddressOneBit : Prop :=
  ∀ (fb : FrameBuffer) (px py : Nat) (b : Bool), px < 128 → py < 64 →
    fb.getPixel px py = (fb.byte (py * 16 + px / 8)).getLsbD (7 - px % 8) ∧
    (∀ k j, k < 1024 → j < 8 → ((fb.setPixel px py b).byte k).getLsbD j =
      if k = py * 16 + px / 8 ∧ j = 7 - px % 8 then b else (fb.byte k).getLsbD j) ∧
    (fb.setPixel px py b).setPixel px py b = fb.setPixel px py b

/-- R204: `ToggleLogical` returns the old value of the logical pixel, in lo-res mode that of its block's top-left pixel,
and sets every physical pixel of the logical one to its complement. -/
def Obligations.ToggleInvertsOneLogicalPixel : Prop :=
  ∀ (hires : Bool) (fb : FrameBuffer) (lx ly : Nat), lx < logicalWidth hires → ly < logicalHeight hires →
    (fb.toggleLogical hires lx ly).1 = (if hires then fb.getPixel lx ly else fb.getPixel (2 * lx) (2 * ly)) ∧
    ∀ px py, px < 128 → py < 64 → (fb.toggleLogical hires lx ly).2.getPixel px py =
      if (if hires then px = lx ∧ py = ly else px / 2 = lx ∧ py / 2 = ly)
      then !(fb.toggleLogical hires lx ly).1 else fb.getPixel px py

/-- R206: `Scroll` pixel by pixel; by nothing it is the identity; two scrolls in one direction compose. -/
def Obligations.ScrollShiftsTheWholeBuffer : Prop :=
  (∀ (fb : FrameBuffer) (dx dy : Int) (px py : Nat), dx = 0 ∨ dy = 0 → px < 128 → py < 64 →
    (fb.scroll dx dy).getPixel px py =
      if 0 ≤ (px : Int) - dx ∧ (px : Int) - dx ≤ 127 ∧ 0 ≤ (py : Int) - dy ∧ (py : Int) - dy ≤ 63
      then fb.getPixel ((px : Int) - dx).toNat ((py : Int) - dy).toNat else false) ∧
  (∀ fb : FrameBuffer, fb.scroll 0 0 = fb) ∧
  (∀ (fb : FrameBuffer) (a b : Int), (0 ≤ a ∧ 0 ≤ b) ∨ (a ≤ 0 ∧ b ≤ 0) →
    (fb.scroll a 0).scroll b 0 = fb.scroll (a + b) 0 ∧ (fb.scroll 0 a).scroll 0 b = fb.scroll 0 (a + b))

/-- R210: 00E0 clears all 1024 bytes and changes nothing else, neither the mode nor VF. -/
def Obligations.ClearZeroesTheDisplay : Prop :=
  ∀ s : State, Instr.cls.row = ⟨0x00E0, 0xFFFF⟩ ∧
    ∃ t : State, exec .cls s = .next t ∧ (∀ k, k < 1024 → t.fb.byte k = 0) ∧ t = { s with fb := t.fb }

/-- R207, R211 to R214: the scroll instructions pixel by pixel, by the amount itself in hi-res mode and by the amount
times `LORES_SCROLL_SCALE` in lo-res mode; vacated rows and columns become 0, nothing else changes. -/
def Obligations.ScrollInstructionsMoveThePicture : Prop :=
  ∀ (n : BitVec 4) (s : State) (p q : Nat),
    p = (if s.hires then n.toNat else n.toNat * (if s.params.scrollScale = .two then 2 else 1)) →
    q = (if s.hires then 4 else 4 * (if s.params.scrollScale = .two then 2 else 1)) →
    ((Instr.scd n).row = ⟨0x00C0, 0xFFF0⟩ ∧
      ∃ t : State, exec (.scd n) s = .next t ∧ t = { s with fb := t.fb } ∧
        ∀ px py, px < 128 → py < 64 →
          t.fb.getPixel px py = if p ≤ py then s.fb.getPixel px (py - p) else false) ∧
    ((Instr.scu n).row = ⟨0x00D0, 0xFFF0⟩ ∧
      ∃ t : State, exec (.scu n) s = .next t ∧ t = { s with fb := t.fb } ∧
        ∀ px py, px < 128 → py < 64 →
          t.fb.getPixel px py = if py + p < 64 then s.fb.getPixel px (py + p) else false) ∧
    (Instr.scr.row = ⟨0x00FB, 0xFFFF⟩ ∧
      ∃ t : State, exec .scr s = .next t ∧ t = { s with fb := t.fb } ∧
        ∀ px py, px < 128 → py < 64 →
          t.fb.getPixel px py = if q ≤ px then s.fb.getPixel (px - q) py else false) ∧
    (Instr.scl.row = ⟨0x00FC, 0xFFFF⟩ ∧
      ∃ t : State, exec .scl s = .next t ∧ t = { s with fb := t.fb } ∧
        ∀ px py, px < 128 → py < 64 →
          t.fb.getPixel px py = if px + q < 128 then s.fb.getPixel (px + q) py else false)

/-- R216, R217: the mode switches write the mode, and clear the buffer on every execution unless `Q_MODE_KEEP`. -/
def Obligations.ModeSwitchesClearUnlessKept : Prop :=
  ∀ s : State,
    (Instr.low.row = ⟨0x00FE, 0xFFFF⟩ ∧
      ∃ t : State, exec .low s = .next t ∧ t.hires = false ∧ t = { s with hires := t.hires, fb := t.fb } ∧
        (s.config.quirks.modeKeep = true → t.fb = s.fb) ∧
        (s.config.quirks.modeKeep = false → ∀ k, k < 1024 → t.fb.byte k = 0)) ∧
    (Instr.high.row = ⟨0x00FF, 0xFFFF⟩ ∧
      ∃ t : State, exec .high s = .next t ∧ t.hires = true ∧ t = { s with hires := t.hires, fb := t.fb } ∧
        (s.config.quirks.modeKeep = true → t.fb = s.fb) ∧
        (s.config.quirks.modeKeep = false → ∀ k, k < 1024 → t.fb.byte k = 0))

/-- R221: the sprite's size, and where its bits stand: one byte per row, or two, left byte first, the most significant
bit leftmost. -/
def Obligations.SpriteShapeAndBits : Prop :=
  (∀ (hires : Bool) (q : Quirks) (n : BitVec 4),
    (n ≠ 0 → spriteShape hires q n = { rows := n.toNat, bpr := 1 }) ∧
    (n = 0 → (hires = true ∨ q.bigSpriteLores = false) → spriteShape hires q n = { rows := 16, bpr := 2 }) ∧
    (n = 0 → hires = false → q.bigSpriteLores = true → spriteShape hires q n = { rows := 16, bpr := 1 }) ∧
    (spriteShape hires q n).len = (spriteShape hires q n).rows * (spriteShape hires q n).bpr) ∧
  (∀ (m : Memory) (base r c : Nat), c < 8 →
    spriteBit m base 1 r c = (m.read (base + r)).getLsbD (7 - c) ∧
    spriteBit m base 2 r c = (m.read (base + 2 * r)).getLsbD (7 - c) ∧
    spriteBit m base 2 r (c + 8) = (m.read (base + 2 * r + 1)).getLsbD (7 - c))

open Classical in
/-- R220, R222 to R225: a draw whose sprite lies in memory completes; a logical pixel some 1-bit of the sprite lands on,
wrapped or clipped from the reduced origin, ends as the complement of its old value, every other pixel is unchanged; VF is
the number of sprite rows that collided or count as bottom rows, or 1 if there is any; nothing else changes. Out of range it
raises MemRange before any pixel or VF changes. `Drawing.colAt`, `Drawing.rowAt` say where a bit lands (R223), `drawingOf`
the origin (R222), `Drawing.RowCounts` which rows count (R225). -/
def Obligations.DrawXorsTheSpriteAndCountsCollisions : Prop :=
  ∀ (x y : Reg) (n : BitVec 4) (s : State) (d : Drawing), d = drawingOf x y n s →
    (Instr.drw x y n).row = ⟨0xD000, 0xF000⟩ ∧
    (s.i.toNat + d.shape.rows * d.shape.bpr - 1 ≤ 0x0FFF →
      ∃ t : State, exec (.drw x y n) s = .next t ∧
        (∀ px py, px < 128 → py < 64 → t.fb.getPixel px py =
          if d.Covers (blockOf s.hires px) (blockOf s.hires py)
          then !(s.fb.getLogical s.hires (blockOf s.hires px) (blockOf s.hires py)) else s.fb.getPixel px py) ∧
        (t.getV 15).toNat =
          (if s.config.quirks.collisionCount then Nat.count (fun r => d.RowCounts s.fb r) d.shape.rows
           else min 1 (Nat.count (fun r => d.RowCounts s.fb r) d.shape.rows)) ∧
        (∀ r, r ≠ 15 → t.getV r = s.getV r) ∧ t = { s with v := t.v, fb := t.fb }) ∧
    (0x0FFF < s.i.toNat + d.shape.rows * d.shape.bpr - 1 →
      exec (.drw x y n) s = .next { s with
        pc := s.pc - 2
        latch := { cause := some .memRange, pc := s.pc - 2, addr := if s.i.toNat < 0x1000 then 0x1000 else s.i } })

/-- The XOR law of R227 (1): a sprite drawn twice at the same place leaves a clear display clear, with no collision the
first time (unless bottom rows count) and one the second time if any pixel was drawn; in hi-res mode a second draw undoes
the first on any display. -/
def Obligations.DrawingTwiceRestores : Prop :=
  ∀ (x y : Reg) (n : BitVec 4) (s : State) (d : Drawing), d = drawingOf x y n s →
    s.i.toNat + d.shape.rows * d.shape.bpr - 1 ≤ 0x0FFF → x ≠ 15 → y ≠ 15 →
    s.fb = FrameBuffer.clear ∨ s.hires = true →
    ∃ t u : State, exec (.drw x y n) s = .next t ∧ exec (.drw x y n) t = .next u ∧ u.fb = s.fb ∧
      (s.fb = FrameBuffer.clear →
        (s.config.quirks.clip = false ∨ s.config.quirks.bottomCollision = false ∨
          d.y0 + d.shape.rows ≤ logicalHeight s.hires → t.getV 15 = 0) ∧
        ((∃ lx ly, d.Covers lx ly) → 1 ≤ (u.getV 15).toNat))

/-! Keypad and timer instructions, exit. -/

/-- R248: Fx0A takes the lowest released key; with none released it waits, `pc` back at itself, and the step counts it
as an executed instruction. -/
def Obligations.WaitForKeyTakesTheLowestReleased : Prop :=
  (∀ (x : Reg) (s : State), (Instr.ldVxK x).row = ⟨0xF00A, 0xF0FF⟩ ∧
    (∀ k : BitVec 4, s.key k = .released → (∀ j : BitVec 4, j.toNat < k.toNat → s.key j ≠ .released) →
      ∃ t : State, exec (.ldVxK x) s = .next t ∧ (t.getV x).toNat = k.toNat ∧
        (∀ r, r ≠ x → t.getV r = s.getV r) ∧ t = { s with v := t.v }) ∧
    ((∀ k : BitVec 4, s.key k ≠ .released) → exec (.ldVxK x) s = .next { s with pc := s.pc - 2 })) ∧
  (∀ (x : Reg) (s u : State), u = sampled (hostTurn s) → u.faulted = false → u.PacedNow →
    u.pc.toNat + 1 ≤ 0x0FFF →
    decode [u.mem.read u.pc.toNat, u.mem.read (u.pc.toNat + 1)] = .ok (.ldVxK x, []) →
    (∀ k : BitVec 4, u.key k ≠ .released) →
    step s = .next (timingParts { u with cpuCum := 0, executed := true }))

/-- R250, R251, R252: the timer instructions. -/
def Obligations.TimerInstructionsMoveBytes : Prop :=
  ∀ (x : Reg) (s : State),
    ((Instr.ldVxDT x).row = ⟨0xF007, 0xF0FF⟩ ∧
      ∃ t : State, exec (.ldVxDT x) s = .next t ∧ t.getV x = s.dt ∧ (∀ r, r ≠ x → t.getV r = s.getV r) ∧
        t = { s with v := t.v }) ∧
    ((Instr.ldDTVx x).row = ⟨0xF015, 0xF0FF⟩ ∧ exec (.ldDTVx x) s = .next { s with dt := s.getV x }) ∧
    ((Instr.ldSTVx x).row = ⟨0xF018, 0xF0FF⟩ ∧ exec (.ldSTVx x) s = .next { s with st := s.getV x })

/-- R260: 00FD sets `exit` and nothing else; no step clears the flag, and a step with it set goes on executing. -/
def Obligations.ExitFlagIsSetAndStays : Prop :=
  Instr.exit.row = ⟨0x00FD, 0xFFFF⟩ ∧
  (∀ s : State, exec .exit s = .next { s with exit := true }) ∧
  (∀ s t : State, (hostTurn s).exit = true → step s = .next t → t.exit = true) ∧
  (∀ s : State, executorPart { s with exit := true } =
    onNext (executorPart s) fun t => .next { t with exit := true })

/-- R241, R243: sampling at the start of a step, cell by cell; the collapse after every executed instruction and not after
a faulting one; nothing else in the executor touches a cell. -/
def Obligations.KeypadSamplesAndCollapses : Prop :=
  (∀ s : State, sampleKeys s = { s with keys := (sampleKeys s).keys } ∧
    ∀ k : BitVec 4, (sampleKeys s).key k =
      if s.keyLevel.getLsbD k.toNat then .down else if s.key k = .down then .released else s.key k) ∧
  (∀ s u : State, u = sampled (hostTurn s) → ∀ k, u.key k = (sampleKeys (hostTurn s)).key k) ∧
  (∀ u t : State, u.faulted = false → execute u = .next t → ∀ k : BitVec 4,
    t.key k = if t.faulted = false ∧ u.key k = .released then .up else u.key k)

/-! The scheduler step. -/

/-- R281: part (a), the times. -/
def Obligations.StepMeasuresElapsedTime : Prop :=
  ∀ s t : State, step s = .next t →
    t.prevTime = (hostTurn s).curTime ∧ t.curTime = (hostTurn s).clockMs ∧
    t.elapsed.toNat = ((hostTurn s).clockMs.toNat + 2 ^ 32 - (hostTurn s).curTime.toNat) % 2 ^ 32

/-- R282, R283: part (b). With no fault latched and the counter at `1000 / CPU_FREQ` (or the frequency 0) the counter is
cleared, one instruction is attempted, and `executed` says whether it completed; otherwise the counter accumulates and
nothing executes. -/
def Obligations.ExecutorIsPaced : Prop :=
  ∀ (s u : State) (c : Nat), u = sampled (hostTurn s) → c = (u.cpuCum.toNat + u.elapsed.toNat) % 2 ^ 32 →
    (u.faulted = false ∧ (u.config.cpuFreq = 0 ∨ 1000 / u.config.cpuFreq.toNat ≤ c) →
      step s = onNext (execute { u with cpuCum := 0 }) fun e =>
        .next (timingParts { e with executed := !e.faulted })) ∧
    (¬ (u.faulted = false ∧ (u.config.cpuFreq = 0 ∨ 1000 / u.config.cpuFreq.toNat ≤ c)) →
      step s = .next (timingParts { u with cpuCum := BitVec.ofNat 32 c, executed := false }))

/-- Part (c) (R284, R285). Each timer's counter accumulates; at the threshold, or always with frequency 0, the timer counts
down by 1 but not below 0 and the counter is cleared. That equal counters stay equal is the sentence of R285 the spec marks
as its own inference from R284, R285 and R45. -/
def Obligations.TimersCountDown : Prop :=
  ∀ (s : State) (c d : Nat),
    c = (s.delayCum.toNat + s.elapsed.toNat) % 2 ^ 32 → d = (s.soundCum.toNat + s.elapsed.toNat) % 2 ^ 32 →
    (s.config.timerFreq = 0 ∨ 1000 / s.config.timerFreq.toNat ≤ c →
      (timingParts s).dt.toNat = s.dt.toNat - 1 ∧ (timingParts s).delayCum = 0) ∧
    (¬ (s.config.timerFreq = 0 ∨ 1000 / s.config.timerFreq.toNat ≤ c) →
      (timingParts s).dt = s.dt ∧ (timingParts s).delayCum.toNat = c) ∧
    (s.config.timerFreq = 0 ∨ 1000 / s.config.timerFreq.toNat ≤ d →
      (timingParts s).st.toNat = s.st.toNat - 1 ∧ (timingParts s).soundCum = 0) ∧
    (¬ (s.config.timerFreq = 0 ∨ 1000 / s.config.timerFreq.toNat ≤ d) →
      (timingParts s).st = s.st ∧ (timingParts s).soundCum.toNat = d) ∧
    (s.soundCum = s.delayCum → (timingParts s).soundCum = (timingParts s).delayCum) ∧
    timingParts s = { s with
      dt := (timingParts s).dt, delayCum := (timingParts s).delayCum, st := (timingParts s).st,
      soundCum := (timingParts s).soundCum, beep := (timingParts s).beep,
      displayUpdated := (timingParts s).displayUpdated, refreshCum := (timingParts s).refreshCum }

/-- R286: part (d). At every step boundary `beep` says whether `ST` is not zero, so a timer decremented to 0 in the step
does not sound. -/
def Obligations.BeepFollowsTheSoundTimer : Prop :=
  ∀ s t : State, step s = .next t → (t.beep = true ↔ t.st.toNat ≠ 0)

/-- R287: part (e). The refresh flag is set exactly in the steps whose refresh interval has elapsed, in every step with
frequency 0, whatever instruction ran. -/
def Obligations.RefreshFlagTicks : Prop :=
  ∀ (s h t : State) (c : Nat), h = hostTurn s → step s = .next t →
    c = (h.refreshCum.toNat + t.elapsed.toNat) % 2 ^ 32 →
    (h.config.refreshFreq = 0 ∨ 1000 / h.config.refreshFreq.toNat ≤ c →
      t.displayUpdated = true ∧ t.refreshCum = 0) ∧
    (¬ (h.config.refreshFreq = 0 ∨ 1000 / h.config.refreshFreq.toNat ≤ c) →
      t.displayUpdated = false ∧ t.refreshCum.toNat = c)

/-! Faults. -/

/-- R306: a fault is precise. Whatever faults, in the fetch or in any instruction, every other piece of state is as before
the instruction, `pc` and `FAULT_PC` are its address, `FAULT` is its code, `executed` is 0, the keypad is not collapsed, and
the timing parts of the step run. -/
def Obligations.FaultEntryIsPrecise : Prop :=
  (∀ (i : Instr) (s t : State), s.faulted = false → exec i s = .next t → t.faulted = true →
    ∃ c a, t = { s with pc := s.pc - 2, latch := { cause := some c, pc := s.pc - 2, addr := a } }) ∧
  (∀ s u t : State, u = sampled (hostTurn s) → u.faulted = false → step s = .next t → t.faulted = true →
    ∃ c a, t = timingParts { u with
      cpuCum := 0, executed := false, latch := { cause := some c, pc := u.pc, addr := a } }) ∧
  (∀ (c : Cause) (p a : Addr), ({ cause := some c, pc := p, addr := a } : FaultLatch).code =
    match c with | .fetchRange => 1 | .memRange => 2 | .stackOverflow => 3 | .stackUnderflow => 4)

/-- R307: while a fault is latched no instruction executes and the latch is not overwritten, so faults do not nest (R309,
which the spec infers from this rule); only the keypad sampling and the timing parts go on. -/
def Obligations.FaultedCoreIsFrozen : Prop :=
  ∀ s u : State, u = sampled (hostTurn s) → u.faulted = true →
    ∃ t : State, step s = .next t ∧ t.latch = u.latch ∧ t.executed = false ∧ t.pc = u.pc ∧ t.v = u.v ∧ t.i = u.i ∧
      t.sp = u.sp ∧ t.hires = u.hires ∧ t.exit = u.exit ∧ t.mem = u.mem ∧ t.fb = u.fb ∧ t.keys = u.keys ∧
      t.rng = u.rng ∧ t.dt = (delayPart u).dt ∧ t.st = (soundPart u).st ∧ t.beep = (t.st != 0) ∧
      t.displayUpdated = (refreshPart u).displayUpdated

/-- Which instruction can raise what, as R310 lists it; the spec marks that list as its own inference, derived from every
instruction rule. -/
def Obligations.OnlyTheListedInstructionsFault : Prop :=
  (∀ (i : Instr) (s t : State), s.faulted = false → exec i s = .next t → t.faulted = true →
    (t.latch.cause = some .stackOverflow ∧ ∃ nnn, i = .call nnn) ∨
    (t.latch.cause = some .stackUnderflow ∧ i = .ret) ∨
    (t.latch.cause = some .memRange ∧
      ((∃ x, i = .ldB x) ∨ (∃ x, i = .storeRegs x) ∨ (∃ x, i = .loadRegs x) ∨ ∃ x y n, i = .drw x y n))) ∧
  (∀ s t : State, s.faulted = false → execUnknown s = .next t → t.faulted = false) ∧
  (∀ u t : State, u.faulted = false → 0x0FFF < u.pc.toNat + 1 → execute u = .next t →
    t.latch.cause = some .fetchRange)

/-! Whole-machine rules. -/

/-- The configuration is written by construction only; every instruction, the scheduler and every other host operation keep
it (R28). The parameters of R9 are kept by everything: that they stand in a field which nothing writes is the model's own
choice (entry 4). -/
def Obligations.ConfigurationIsWrittenOnlyByConstruction : Prop :=
  (∀ (i : Instr) (s t : State), exec i s = .next t → t.config = s.config ∧ t.params = s.params) ∧
  (∀ s t : State, step s = .next t → t.config = (hostTurn s).config ∧ t.params = s.params) ∧
  (∀ (cfg : Config) (s : State), (construct cfg s).config = cfg) ∧
  (∀ (s : State) (a : HostAction), (applyAction s a).params = s.params ∧
    ((∀ cfg, a ≠ .construct cfg) → (applyAction s a).config = s.config))

/-- What no instruction writes but the ones named (R24, R25, R26, R27, R29, R30, R31, R35, R36, R77): the stack pointer,
the timers, the mode, `exit`, memory, the display, `I`; and what no instruction writes at all. -/
def Obligations.InstructionsWriteOnlyTheirOwn : Prop :=
  ∀ (i : Instr) (s t : State), exec i s = .next t →
    (mayWriteMemory i = false → t.mem = s.mem) ∧ (mayWriteDisplay i = false → t.fb = s.fb) ∧
    (t.sp ≠ s.sp → i = .ret ∨ ∃ nnn, i = .call nnn) ∧
    (t.dt ≠ s.dt → ∃ x, i = .ldDTVx x) ∧ (t.st ≠ s.st → ∃ x, i = .ldSTVx x) ∧
    (t.hires ≠ s.hires → i = .low ∨ i = .high) ∧ (t.exit ≠ s.exit → i = .exit) ∧
    (t.i ≠ s.i → (∃ nnn, i = .ldI nnn) ∨ (∃ x, i = .addI x) ∨ (∃ x, i = .ldF x) ∨ (∃ x, i = .ldHF x) ∨
      (∃ x, i = .storeRegs x) ∨ ∃ x, i = .loadRegs x) ∧
    t.beep = s.beep ∧ t.displayUpdated = s.displayUpdated ∧ t.executed = s.executed ∧ t.keys = s.keys ∧
    t.cpuCum = s.cpuCum ∧ t.delayCum = s.delayCum ∧ t.soundCum = s.soundCum ∧ t.refreshCum = s.refreshCum ∧
    t.prevTime = s.prevTime ∧ t.curTime = s.curTime ∧ t.elapsed = s.elapsed ∧ t.programImage = s.programImage ∧
    t.clockMs = s.clockMs ∧ t.keyLevel = s.keyLevel ∧ t.hostPlan = s.hostPlan ∧ t.ramDraws = s.ramDraws

/-- The writers of VF (R21): the six flag-writing instructions, and those whose destination `x` is 15. -/
def Obligations.OnlyFlagWritersWriteVF : Prop :=
  ∀ (i : Instr) (s t : State), exec i s = .next t → mayWriteVF i = false → t.getV 15 = s.getV 15

/-- No instruction's effect depends on the timing state, the input levels or the frequencies, and none changes them (the
last sentence of R360). -/
def Obligations.InstructionsIgnoreTiming : Prop :=
  ∀ (i : Instr) (s e : State),
    exec i (s.withTimingOf e) = onNext (exec i s) fun t => .next (t.withTimingOf e)

/-! Host operations. -/

/-- `reset`, piece by piece (R343, R45). Configuration and generator stay. With `Q_RAM_INIT` true R343 leaves a model a free
draw per byte or a refusal: that each byte is the free value `Config.freeRamByte` is the model's own choice (entry 8), and
the statement holds for every value of it. -/
def Obligations.ResetReinitializes : Prop :=
  ∀ s t : State, t = resetCore s →
    (∀ r, t.getV r = 0) ∧ t.pc = s.config.programStart ∧ t.i = 0 ∧ t.sp = 0x00F0 ∧ t.dt = 0 ∧ t.st = 0 ∧
    t.hires = false ∧ t.exit = false ∧ t.beep = false ∧ t.displayUpdated = false ∧ t.executed = false ∧
    t.latch.code = 0 ∧ t.latch.pc = 0 ∧ t.latch.addr = 0 ∧ (∀ k, k < 1024 → t.fb.byte k = 0) ∧
    (∀ k, t.key k = .up) ∧ t.cpuCum = 0 ∧ t.delayCum = 0 ∧ t.soundCum = 0 ∧ t.refreshCum = 0 ∧ t.elapsed = 0 ∧
    t.prevTime = s.clockMs ∧ t.curTime = s.clockMs ∧ t.config = s.config ∧ t.rng = s.rng ∧
    (s.config.quirks.ramInit = false → ∀ a, t.mem.read a = 0) ∧
    (s.config.quirks.ramInit = true → ∀ a, a < 0x1000 → t.mem.read a = Config.freeRamByte s.ramDraws a)

/-- R340, R341: construction stores the configuration, seeds the generator, resets and loads the font; the font load
writes the 240 glyph bytes from address 0 and nothing else. -/
def Obligations.ConstructionSeedsResetsAndLoadsTheFont : Prop :=
  (∀ (cfg : Config) (s : State),
    construct cfg s = loadFont (resetCore { s with config := cfg, rng := s.params.rngSeed })) ∧
  (∀ (cfg : Config) (s t : State), t = construct cfg s → t.config = cfg ∧ t.rng = s.params.rngSeed ∧
    t.pc = cfg.programStart ∧
    (cfg.cpuFreq ≠ 0 → (cpuMax t.config).toNat = 1000 / cfg.cpuFreq.toNat) ∧
    (cfg.timerFreq ≠ 0 → (timerMax t.config).toNat = 1000 / cfg.timerFreq.toNat) ∧
    (cfg.refreshFreq ≠ 0 → (refreshMax t.config).toNat = 1000 / cfg.refreshFreq.toNat)) ∧
  (∀ s t : State, s.mem.wf → t = loadFont s → t = { s with mem := t.mem } ∧
    (∀ (k : Nat) (hk : k < 240), t.mem.read k = s.params.fontImage[k]'hk) ∧
    (∀ a, 240 ≤ a → t.mem.read a = s.mem.read a))

/-- A program load that fits writes the image from `PROGRAM_START` and no other byte; one that does not fit writes nothing;
`soft reset` is reset, font load, and the last program load again (R342, R344). That a load which fits also sets the
remembered image `programImage`, and that a refused one leaves it and everything else as it was, are the model's own
(entries 6 and 21). -/
def Obligations.ProgramLoadAndSoftReset : Prop :=
  (∀ (image : List Byte) (s t : State), s.mem.wf → t = loadProgram image s →
    (s.config.programStart.toNat + image.length ≤ 0x1000 →
      t = { s with mem := t.mem, programImage := image } ∧
      (∀ (k : Nat) (hk : k < image.length), t.mem.read (s.config.programStart.toNat + k) = image[k]'hk) ∧
      (∀ a, (a < s.config.programStart.toNat ∨ s.config.programStart.toNat + image.length ≤ a) →
        t.mem.read a = s.mem.read a)) ∧
    (0x1000 < s.config.programStart.toNat + image.length → t = s)) ∧
  (∀ s : State, softReset s = loadProgram s.programImage (loadFont (resetCore s)))

/-- The host's turn and its port: with a plan, the next entry's actions in order; with none, nothing. A write through the
memory port changes one byte (R54), new input levels change only the ports (R51, R52). How a host is held in the state is
the model's own (entry 2). -/
def Obligations.HostActsBetweenSteps : Prop :=
  (∀ s : State, s.hostPlan = [] → hostTurn s = s) ∧
  (∀ (s : State) (acts : List HostAction) (rest : List (List HostAction)), s.hostPlan = acts :: rest →
    hostTurn s = acts.foldl applyAction { s with hostPlan := rest }) ∧
  (∀ (s t : State) (a : BitVec 12) (b : Byte), s.mem.wf → t = applyAction s (.writeByte a b) →
    t = { s with mem := t.mem } ∧ t.mem.read a.toNat = b ∧ ∀ c, c ≠ a.toNat → t.mem.read c = s.mem.read c) ∧
  (∀ (s : State) (clk : Millis) (lev : BitVec 16),
    applyAction s (.setInputs clk lev) = { s with clockMs := clk, keyLevel := lev })

/-! Reset state, invariant, memory. -/

/-- The state after power-on has the values of R45 for the configuration, parameters and input levels the model names
(entries 1 to 8), and satisfies the invariant. -/
def Obligations.PowerOnStateIsLegal : Prop :=
  State.reset.Inv ∧ State.reset.Good ∧ State.reset.pc = 0x200 ∧ State.reset.sp = 0x00F0 ∧ State.reset.i = 0 ∧
  (∀ r, State.reset.getV r = 0) ∧ State.reset.dt = 0 ∧ State.reset.st = 0 ∧ State.reset.hires = false ∧
  (∀ k : Nat, k < 1024 → State.reset.fb.byte k = 0) ∧ (∀ k, State.reset.key k = .up) ∧
  (∀ a, 240 ≤ a → State.reset.mem.read a = 0) ∧
  (∀ (k : Nat) (hk : k < 240), State.reset.mem.read k = Params.default.fontImage[k]'hk) ∧
  State.reset = construct Config.default State.reset

/-- Every step from a legal state answers a next state, which is legal: memory canonical, `SP` inside the stack region at
a whole entry (R24), the two timer counters equal (R285), `beep` following `ST` (R286), the fault latch consistent (R306,
R307), no release left after an executed instruction (R243). No model stop is reached. -/
def Obligations.EveryStepKeepsTheInvariant : Prop :=
  ∀ s : State, s.Inv → ∃ t : State, step s = .next t ∧ t.Inv

/-- Every instruction of every reachable state runs: whatever legal construction, host actions and steps came before, the
state is legal and the next step answers a next state. -/
def Obligations.ReachableStatesStep : Prop :=
  ∀ s : State, Reachable s → s.Inv ∧ ∃ t : State, step s = .next t ∧ Reachable t

/-- The memory primitives (R72, R73), most significant byte at the lower address; a write changes only the named bytes. The
last clause is what R90 says of a fetch after a store. The canonical form, a premise here and kept by a write, is the model's
own (entry 9). -/
def Obligations.MemoryReadsWhatWasWritten : Prop :=
  (∀ (m : Memory) (a b : Nat) (v : Byte), m.wf → a < 0x1000 →
    (m.write a v).read b = (if b = a then v else m.read b) ∧ (m.write a v).wf) ∧
  (∀ (m : Memory) (a b : Nat) (v : BitVec 16), m.wf → a + 1 < 0x1000 → ((m.write2 a v).read b).toNat =
    if b = a then v.toNat / 256 else if b = a + 1 then v.toNat % 256 else (m.read b).toNat) ∧
  (∀ (m : Memory) (a : Nat), (m.read2 a).toNat = 256 * (m.read a).toNat + (m.read (a + 1)).toNat) ∧
  (∀ (s : State) (w : BitVec 16), s.mem.wf → s.pc.toNat + 1 ≤ 0x0FFF →
    fetchWord { s with mem := s.mem.write2 s.pc.toNat w } = w)
end

