-- ==== Sys2Proof/Laws/FrameBuffer.lean ====
section
/-! SUPPORT. The display buffer: pixels after each primitive, and pixels as bits of the buffer's bytes. -/

namespace Sys2Proof

/-- An entry of a table. -/
@[simp] theorem tabulate_getElem {α : Type} (n : Nat) (f : Nat → α) (k : Nat) (h : k < n) :
    (tabulate n f)[k] = f k := by
  simp [tabulate]

/-- An entry of a table, by an index that may be too large. -/
theorem tabulate_getElem? {α : Type} (n : Nat) (f : Nat → α) (k : Nat) :
    (tabulate n f)[k]? = if k < n then some (f k) else none := by
  by_cases h : k < n
  · simp [h]
  · simp [h]

end Sys2Proof

namespace Sys2Proof.Machine

@[simp] theorem FrameBuffer.row_clear (py : Nat) : FrameBuffer.clear.row py = 0#128 := by
  by_cases h : py < 64 <;> simp [FrameBuffer.row, FrameBuffer.clear, h]

@[simp] theorem FrameBuffer.getPixel_clear (px py : Nat) : FrameBuffer.clear.getPixel px py = false := by
  simp [FrameBuffer.getPixel]

/-- Two buffers with the same pixels are the same data. -/
theorem FrameBuffer.ext_of_getPixel {f g : FrameBuffer}
    (h : ∀ px py, px < 128 → py < 64 → f.getPixel px py = g.getPixel px py) : f = g := by
  refine Vector.ext fun py hpy => BitVec.eq_of_getMsbD_eq fun px hpx => ?_
  simpa [FrameBuffer.getPixel, FrameBuffer.row, hpy] using h px py hpx hpy

theorem FrameBuffer.row_setPixel (fb : FrameBuffer) (px py : Nat) (b : Bool) (qy : Nat) :
    (fb.setPixel px py b).row qy =
      if qy = py ∧ py < 64 then (if b then fb.row py ||| columnBit px else fb.row py &&& ~~~columnBit px)
      else fb.row qy := by
  simp only [FrameBuffer.setPixel, FrameBuffer.row, Vector.getElem?_setIfInBounds]
  by_cases h : py = qy
  · subst h
    by_cases hp : py < 64 <;> simp [hp]
  · simp [h, Ne.symm h]

theorem getMsbD_columnBit (px : Nat) (hpx : px < 128) (qx : Nat) (hqx : qx < 128) :
    (columnBit px).getMsbD qx = decide (qx = px) := by
  rw [columnBit, BitVec.getMsbD, BitVec.getLsbD_twoPow, Bool.eq_iff_iff]
  simp
  omega

/-- A pixel after `SetPixel` (R202): the one set, and every other as before. -/
theorem FrameBuffer.getPixel_setPixel (fb : FrameBuffer) {px py : Nat} (hpx : px < 128) (hpy : py < 64) (b : Bool)
    {qx qy : Nat} (hqx : qx < 128) :
    (fb.setPixel px py b).getPixel qx qy = if qx = px ∧ qy = py then b else fb.getPixel qx qy := by
  simp only [FrameBuffer.getPixel, FrameBuffer.row_setPixel, hpy, and_true]
  by_cases h : qy = py
  · subst h
    have hc := getMsbD_columnBit px hpx qx hqx
    cases b <;> simp [hqx, hc] <;> by_cases hx : qx = px <;> simp [hx]
  · simp [h]

/-- A pixel as a bit of the buffer's bytes (R201, R35). -/
theorem FrameBuffer.getPixel_eq_byte (fb : FrameBuffer) {px py : Nat} (hpx : px < 128) :
    fb.getPixel px py = (fb.byte (py * 16 + px / 8)).getLsbD (7 - px % 8) := by
  have hrow : (py * 16 + px / 8) / 16 = py := by omega
  have hcol : (py * 16 + px / 8) % 16 = px / 8 := by omega
  simp only [FrameBuffer.getPixel, FrameBuffer.byte, hrow, hcol, BitVec.getLsbD_extractLsb', BitVec.getMsbD]
  have : 8 * (15 - px / 8) + (7 - px % 8) = 128 - 1 - px := by omega
  simp [hpx, this, show 7 - px % 8 < 8 by omega]

/-- A pixel of a row moved sideways. -/
theorem getMsbD_shiftRow (row : BitVec 128) (dx : Int) {px : Nat} (hpx : px < 128) :
    (shiftRow row dx).getMsbD px =
      if 0 ≤ (px : Int) - dx ∧ (px : Int) - dx ≤ 127 then row.getMsbD ((px : Int) - dx).toNat else false := by
  unfold shiftRow
  split
  · rename_i h
    obtain ⟨d, rfl⟩ := Int.eq_ofNat_of_zero_le h
    simp only [BitVec.getMsbD_ushiftRight, Int.toNat_natCast]
    by_cases hd : px < d
    · simp [hd]
    · rw [if_pos (by omega), show ((px : Int) - (d : Int)).toNat = px - d by omega]
      simp [hd, hpx]
  · rename_i h
    obtain ⟨d, hd⟩ := Int.eq_ofNat_of_zero_le (show 0 ≤ -dx by omega)
    have hdx : dx = -(d : Int) := by omega
    subst hdx
    simp only [BitVec.getMsbD_shiftLeft, Int.neg_neg, Int.toNat_natCast]
    by_cases hb : px + d ≤ 127
    · rw [if_pos (by omega), show ((px : Int) - -(d : Int)).toNat = px + d by omega]
    · rw [if_neg (by omega)]
      simp [BitVec.getMsbD]
      omega

theorem FrameBuffer.row_scroll (fb : FrameBuffer) (dx dy : Int) {py : Nat} (hpy : py < 64) :
    (fb.scroll dx dy).row py =
      if 0 ≤ (py : Int) - dy ∧ (py : Int) - dy ≤ 63 then shiftRow (fb.row ((py : Int) - dy).toNat) dx else 0 := by
  simp [FrameBuffer.scroll, FrameBuffer.row, hpy]

/-- A pixel after `Scroll(dx, dy)` (R206): the one that moved there, or 0 where nothing did. -/
theorem FrameBuffer.getPixel_scroll (fb : FrameBuffer) (dx dy : Int) {px py : Nat} (hpx : px < 128) (hpy : py < 64) :
    (fb.scroll dx dy).getPixel px py =
      if 0 ≤ (px : Int) - dx ∧ (px : Int) - dx ≤ 127 ∧ 0 ≤ (py : Int) - dy ∧ (py : Int) - dy ≤ 63 then
        fb.getPixel ((px : Int) - dx).toNat ((py : Int) - dy).toNat
      else false := by
  rw [FrameBuffer.getPixel, FrameBuffer.row_scroll fb dx dy hpy]
  by_cases hy : 0 ≤ (py : Int) - dy ∧ (py : Int) - dy ≤ 63
  · rw [if_pos hy, getMsbD_shiftRow _ _ hpx]
    by_cases hx : 0 ≤ (px : Int) - dx ∧ (px : Int) - dx ≤ 127
    · rw [if_pos hx, if_pos ⟨hx.1, hx.2, hy⟩]; rfl
    · rw [if_neg hx, if_neg fun h => hx ⟨h.1, h.2.1⟩]
  · rw [if_neg hy, if_neg fun h => hy h.2.2]; simp

/-- A logical pixel after one logical pixel is set, in either mode (R204). -/
theorem FrameBuffer.getPixel_setBlock (fb : FrameBuffer) {lx ly : Nat} (hlx : lx < 64) (hly : ly < 32) (b : Bool)
    {qx qy : Nat} (hqx : qx < 128) :
    (fb.setBlock lx ly b).getPixel qx qy = if qx / 2 = lx ∧ qy / 2 = ly then b else fb.getPixel qx qy := by
  unfold FrameBuffer.setBlock
  rw [getPixel_setPixel _ (by omega) (by omega) _ hqx, getPixel_setPixel _ (by omega) (by omega) _ hqx,
    getPixel_setPixel _ (by omega) (by omega) _ hqx, getPixel_setPixel _ (by omega) (by omega) _ hqx]
  by_cases h : qx / 2 = lx ∧ qy / 2 = ly
  · rw [if_pos h]
    have hx : qx = 2 * lx ∨ qx = 2 * lx + 1 := by omega
    have hy : qy = 2 * ly ∨ qy = 2 * ly + 1 := by omega
    rcases hx with hx | hx <;> rcases hy with hy | hy <;> simp [hx, hy]
  · rw [if_neg h, if_neg (by omega), if_neg (by omega), if_neg (by omega), if_neg (by omega)]

/-- Physical pixels per logical pixel, in each direction (R16, R200). -/
theorem FrameBuffer.getPixel_setLogical (hires : Bool) (fb : FrameBuffer) {lx ly : Nat}
    (hlx : lx < logicalWidth hires) (hly : ly < logicalHeight hires) (b : Bool) {qx qy : Nat} (hqx : qx < 128) :
    (fb.setLogical hires lx ly b).getPixel qx qy =
      if (if hires then qx = lx ∧ qy = ly else qx / 2 = lx ∧ qy / 2 = ly) then b else fb.getPixel qx qy := by
  cases hires
  · exact getPixel_setBlock fb hlx hly b hqx
  · exact getPixel_setPixel fb hlx hly b hqx

end Sys2Proof.Machine
end

