-- ==== Sys2Proof/Laws/Draw.lean ====
section
/-! SUPPORT. A sprite draw: the loops of `drawRow` and `drawRows` do what the loop-free description of a draw says. -/

namespace Sys2Proof.Machine

theorem logicalWidth_ge (hires : Bool) : 64 ≤ logicalWidth hires := by cases hires <;> decide
theorem logicalHeight_ge (hires : Bool) : 32 ≤ logicalHeight hires := by cases hires <;> decide

/-- What lands somewhere lands on the screen. -/
theorem landing_lt {size : Nat} {clip : Bool} {o k p : Nat} (hs : 0 < size) (h : landing size clip o k = some p) :
    p < size := by
  unfold landing at h
  split at h
  · simp at h; omega
  · split at h
    · simp at h
    · simp at h; rw [← h]; exact Nat.mod_lt _ hs

/-- Two different offsets of one sprite never land on the same place (R224). -/
theorem landing_inj {size : Nat} {clip : Bool} {o k j p : Nat} (ho : o < size) (hk : k < 16) (hj : j < 16)
    (hs : 16 ≤ size) (h1 : landing size clip o k = some p) (h2 : landing size clip o j = some p) : k = j := by
  have wrap : ∀ m, m < 16 → ¬ o + m < size → (o + m) % size = o + m - size := fun m hm hge => by
    rw [Nat.mod_eq_sub_mod (by omega), Nat.mod_eq_of_lt (by omega)]
  unfold landing at h1 h2
  split at h1 <;> split at h2
  · simp at h1 h2; omega
  · rename_i a b
    split at h2
    · simp at h2
    · simp [wrap j hj b] at h1 h2; omega
  · rename_i a b
    split at h1
    · simp at h1
    · simp [wrap k hk a] at h1 h2; omega
  · rename_i a b
    split at h1
    · simp at h1
    · rename_i c
      rw [if_neg c] at h2
      simp [wrap k hk a, wrap j hj b] at h1 h2
      omega

/-- A logical pixel after one logical pixel is set. -/
theorem FrameBuffer.getPixel_setLogical_block (hires : Bool) (fb : FrameBuffer) {lx ly : Nat}
    (hlx : lx < logicalWidth hires) (hly : ly < logicalHeight hires) (b : Bool) {qx qy : Nat} (hqx : qx < 128) :
    (fb.setLogical hires lx ly b).getPixel qx qy =
      if blockOf hires qx = lx ∧ blockOf hires qy = ly then b else fb.getPixel qx qy := by
  rw [FrameBuffer.getPixel_setLogical hires fb hlx hly b hqx]
  cases hires <;> simp [blockOf]

/-- One drawn bit, by where its column lands. -/
theorem drawBit_eq (hires clip : Bool) (ly x0 c : Nat) (acc : FrameBuffer × Bool) :
    drawBit hires clip ly (x0 + c) acc =
      match landing (logicalWidth hires) clip x0 c with
      | none => acc
      | some lx => (acc.1.setLogical hires lx ly (!acc.1.getLogical hires lx ly),
          acc.2 || acc.1.getLogical hires lx ly) := by
  unfold drawBit landing
  by_cases h : x0 + c < logicalWidth hires
  · simp [h, Nat.mod_eq_of_lt h, FrameBuffer.toggleLogical]
  · cases clip <;> simp [h, FrameBuffer.toggleLogical]

theorem drawRow_succ (hires clip : Bool) (bit : Nat → Bool) (w x0 ly : Nat) (fb : FrameBuffer) :
    drawRow hires clip bit (w + 1) x0 ly fb =
      if bit w then drawBit hires clip ly (x0 + w) (drawRow hires clip bit w x0 ly fb)
      else drawRow hires clip bit w x0 ly fb := by
  simp [drawRow, List.range_succ]

/-- The logical value of a pixel is one of its physical pixels. -/
theorem FrameBuffer.getLogical_eq (hires : Bool) (fb : FrameBuffer) (lx ly : Nat) :
    fb.getLogical hires lx ly =
      fb.getPixel (if hires then lx else 2 * lx) (if hires then ly else 2 * ly) := by
  cases hires <;> rfl

theorem corner_lt {hires : Bool} {lx : Nat} (h : lx < logicalWidth hires) :
    (if hires then lx else 2 * lx) < 128 := by
  cases hires <;> simp [logicalWidth] at h ⊢ <;> omega

theorem blockOf_corner (hires : Bool) (l : Nat) : blockOf hires (if hires then l else 2 * l) = l := by
  cases hires <;> simp [blockOf]

open Classical in
/-- One sprite row drawn (R220, R223, R224): exactly the pixels its 1-bits land on are inverted, and it collides
exactly when one of them was 1. -/
theorem drawRow_spec (hires clip : Bool) (bit : Nat → Bool) {w x0 ly : Nat} (fb : FrameBuffer) (hw : w ≤ 16)
    (hx : x0 < logicalWidth hires) (hy : ly < logicalHeight hires) :
    (∀ qx qy, qx < 128 → (drawRow hires clip bit w x0 ly fb).1.getPixel qx qy =
      if (∃ c, c < w ∧ bit c = true ∧ landing (logicalWidth hires) clip x0 c = some (blockOf hires qx)) ∧
          blockOf hires qy = ly then
        !fb.getLogical hires (blockOf hires qx) ly
      else fb.getPixel qx qy) ∧
    ((drawRow hires clip bit w x0 ly fb).2 = true ↔
      ∃ c lx, c < w ∧ bit c = true ∧ landing (logicalWidth hires) clip x0 c = some lx ∧
        fb.getLogical hires lx ly = true) := by
  have hW := logicalWidth_ge hires
  induction w with
  | zero => simp [drawRow]
  | succ w ih =>
    obtain ⟨ihp, ihh⟩ := ih (by omega)
    rw [drawRow_succ]
    by_cases hb : bit w = true
    swap
    · rw [if_neg hb]
      refine ⟨fun qx qy hq => ?_, ?_⟩
      · rw [ihp qx qy hq]
        refine if_congr (and_congr_left fun _ => ?_) rfl rfl
        exact exists_congr fun c => ⟨fun ⟨h1, h2⟩ => ⟨by omega, h2⟩, fun ⟨h1, h2, h3⟩ =>
          ⟨by rcases Nat.lt_succ_iff_lt_or_eq.1 h1 with h | h; exact h; subst h; exact absurd h2 hb, h2, h3⟩⟩
      · rw [ihh]
        exact exists_congr fun c => exists_congr fun lx => ⟨fun ⟨h1, h2⟩ => ⟨by omega, h2⟩, fun ⟨h1, h2, h3⟩ =>
          ⟨by rcases Nat.lt_succ_iff_lt_or_eq.1 h1 with h | h; exact h; subst h; exact absurd h2 hb, h2, h3⟩⟩
    · rw [if_pos hb, drawBit_eq]
      cases hl : landing (logicalWidth hires) clip x0 w with
      | none =>
        refine ⟨fun qx qy hq => ?_, ?_⟩
        · show (drawRow hires clip bit w x0 ly fb).1.getPixel qx qy = _
          rw [ihp qx qy hq]
          refine if_congr (and_congr_left fun _ => ?_) rfl rfl
          exact exists_congr fun c => ⟨fun ⟨h1, h2⟩ => ⟨by omega, h2⟩, fun ⟨h1, h2, h3⟩ =>
            ⟨by rcases Nat.lt_succ_iff_lt_or_eq.1 h1 with h | h; exact h; subst h; simp [hl] at h3, h2, h3⟩⟩
        · show (drawRow hires clip bit w x0 ly fb).2 = true ↔ _
          rw [ihh]
          exact exists_congr fun c => exists_congr fun lx => ⟨fun ⟨h1, h2⟩ => ⟨by omega, h2⟩, fun ⟨h1, h2, h3⟩ =>
            ⟨by rcases Nat.lt_succ_iff_lt_or_eq.1 h1 with h | h; exact h; subst h; simp [hl] at h3, h2, h3⟩⟩
      | some lx =>
        have hlx : lx < logicalWidth hires := landing_lt (by omega) hl
        have fresh : ¬ ∃ c, c < w ∧ bit c = true ∧ landing (logicalWidth hires) clip x0 c = some lx := by
          rintro ⟨c, h1, -, h3⟩
          have := landing_inj hx (by omega) (by omega) (by omega) h3 hl
          omega
        have hold : (drawRow hires clip bit w x0 ly fb).1.getLogical hires lx ly = fb.getLogical hires lx ly := by
          rw [FrameBuffer.getLogical_eq, ihp _ _ (corner_lt hlx), blockOf_corner, if_neg (fun h => fresh h.1),
            FrameBuffer.getLogical_eq]
        refine ⟨fun qx qy hq => ?_, ?_⟩
        · show ((drawRow hires clip bit w x0 ly fb).1.setLogical hires lx ly _).getPixel qx qy = _
          rw [FrameBuffer.getPixel_setLogical_block hires _ hlx hy _ hq, hold, ihp qx qy hq]
          by_cases hq1 : blockOf hires qx = lx ∧ blockOf hires qy = ly
          · rw [if_pos hq1, if_pos ⟨⟨w, by omega, hb, by rw [hq1.1]; exact hl⟩, hq1.2⟩, hq1.1]
          · rw [if_neg hq1]
            refine if_congr ?_ rfl rfl
            constructor
            · rintro ⟨⟨c, h1, h2, h3⟩, h4⟩
              exact ⟨⟨c, by omega, h2, h3⟩, h4⟩
            · rintro ⟨⟨c, h1, h2, h3⟩, h4⟩
              refine ⟨⟨c, ?_, h2, h3⟩, h4⟩
              rcases Nat.lt_succ_iff_lt_or_eq.1 h1 with h | h
              · exact h
              · subst h
                rw [hl] at h3
                exact absurd ⟨(Option.some.inj h3).symm, h4⟩ hq1
        · show ((drawRow hires clip bit w x0 ly fb).2 || _) = true ↔ _
          rw [hold, Bool.or_eq_true, ihh]
          constructor
          · rintro (⟨c, l, h1, h2⟩ | h)
            · exact ⟨c, l, by omega, h2⟩
            · exact ⟨w, lx, by omega, hb, hl, h⟩
          · rintro ⟨c, l, h1, h2, h3, h4⟩
            rcases Nat.lt_succ_iff_lt_or_eq.1 h1 with h | h
            · exact .inl ⟨c, l, h, h2, h3, h4⟩
            · subst h
              rw [hl] at h3
              exact .inr (by rw [Option.some.inj h3]; exact h4)

/-- The loop of `drawRows` over the first `R` rows of a draw. -/
def Drawing.runRows (d : Drawing) (fb : FrameBuffer) (R : Nat) : FrameBuffer × Nat :=
  drawRows d.hires d.q d.bit { d.shape with rows := R } d.x0 d.y0 fb

theorem Drawing.runRows_succ (d : Drawing) (fb : FrameBuffer) (R : Nat) :
    d.runRows fb (R + 1) =
      match d.rowAt R with
      | none => ((d.runRows fb R).1, if d.q.bottomCollision then (d.runRows fb R).2 + 1 else (d.runRows fb R).2)
      | some ly =>
        let row := drawRow d.hires d.q.clip (d.bit R) (8 * d.shape.bpr) d.x0 ly (d.runRows fb R).1
        (row.1, if row.2 then (d.runRows fb R).2 + 1 else (d.runRows fb R).2) := by
  have key : ∀ acc : FrameBuffer × Nat,
      (if d.q.clip && decide (logicalHeight d.hires ≤ d.y0 + R) then
        (acc.1, if d.q.bottomCollision then acc.2 + 1 else acc.2)
      else
        let row := drawRow d.hires d.q.clip (d.bit R) (8 * d.shape.bpr) d.x0
          ((d.y0 + R) % logicalHeight d.hires) acc.1
        (row.1, if row.2 then acc.2 + 1 else acc.2)) =
      match d.rowAt R with
      | none => (acc.1, if d.q.bottomCollision then acc.2 + 1 else acc.2)
      | some ly =>
        let row := drawRow d.hires d.q.clip (d.bit R) (8 * d.shape.bpr) d.x0 ly acc.1
        (row.1, if row.2 then acc.2 + 1 else acc.2) := fun acc => by
    unfold Drawing.rowAt landing
    by_cases h : d.y0 + R < logicalHeight d.hires
    · simp [h, Nat.mod_eq_of_lt h]
    · cases hc : d.q.clip <;> simp [h]
  rw [← key]
  simp [Drawing.runRows, drawRows, List.range_succ]

open Classical in
/-- A whole sprite drawn (R220 to R225): exactly the logical pixels its 1-bits land on are inverted, and the count
is the number of its rows that count as a collision. -/
theorem Drawing.runRows_spec (d : Drawing) (fb : FrameBuffer) {R : Nat} (hR : R ≤ 16) (hb : 8 * d.shape.bpr ≤ 16)
    (hx : d.x0 < logicalWidth d.hires) (hy : d.y0 < logicalHeight d.hires) :
    (∀ qx qy, qx < 128 → (d.runRows fb R).1.getPixel qx qy =
      if ∃ r c, r < R ∧ c < 8 * d.shape.bpr ∧ d.bit r c = true ∧ d.rowAt r = some (blockOf d.hires qy) ∧
          d.colAt c = some (blockOf d.hires qx) then
        !fb.getLogical d.hires (blockOf d.hires qx) (blockOf d.hires qy)
      else fb.getPixel qx qy) ∧
    (d.runRows fb R).2 = Nat.count (fun r => d.RowCounts fb r) R := by
  have hW := logicalWidth_ge d.hires
  have hH := logicalHeight_ge d.hires
  induction R with
  | zero => simp [Drawing.runRows, drawRows]
  | succ R ih =>
    obtain ⟨ihp, ihc⟩ := ih (by omega)
    rw [Drawing.runRows_succ, Nat.count_succ]
    cases hl : d.rowAt R with
    | none =>
      refine ⟨fun qx qy hq => ?_, ?_⟩
      · show (d.runRows fb R).1.getPixel qx qy = _
        rw [ihp qx qy hq]
        refine if_congr (exists_congr fun r => exists_congr fun c => ?_) rfl rfl
        refine and_congr_left fun ⟨_, _, h3, _⟩ => ⟨fun h => by omega, fun h => ?_⟩
        rcases Nat.lt_succ_iff_lt_or_eq.1 h with h | h
        · exact h
        · subst h; simp [hl] at h3
      · have hiff : d.RowCounts fb R ↔ d.q.bottomCollision = true := by
          simp [Drawing.RowCounts, Drawing.RowCollides, hl]
        simp only [hiff, ihc]
        split <;> rfl
    | some ly =>
      have hly : ly < logicalHeight d.hires := landing_lt (by omega) hl
      obtain ⟨rp, rh⟩ := drawRow_spec d.hires d.q.clip (d.bit R) (w := 8 * d.shape.bpr) (x0 := d.x0) (ly := ly)
        (d.runRows fb R).1 hb hx hly
      have fresh : ∀ r, r < R → d.rowAt r ≠ some ly := fun r hr h => by
        have := landing_inj hy (by omega) (by omega) (by omega) h hl
        omega
      have hold : ∀ lx, lx < logicalWidth d.hires →
          (d.runRows fb R).1.getLogical d.hires lx ly = fb.getLogical d.hires lx ly := fun lx hlx => by
        rw [FrameBuffer.getLogical_eq, ihp _ _ (corner_lt hlx), if_neg, FrameBuffer.getLogical_eq]
        rintro ⟨r, c, h1, _, _, h4, _⟩
        rw [blockOf_corner] at h4
        exact fresh r h1 h4
      have hrow : (drawRow d.hires d.q.clip (d.bit R) (8 * d.shape.bpr) d.x0 ly (d.runRows fb R).1).2 = true ↔
          d.RowCounts fb R := by
        rw [rh]
        constructor
        · rintro ⟨c, lx, h1, h2, h3, h4⟩
          exact .inl ⟨c, lx, ly, h1, h2, hl, h3, by rwa [hold lx (landing_lt (by omega) h3)] at h4⟩
        · rintro (⟨c, lx, l, h1, h2, h3, h4, h5⟩ | ⟨h, _⟩)
          · rw [hl] at h3
            obtain rfl := Option.some.inj h3
            exact ⟨c, lx, h1, h2, h4, by rwa [hold lx (landing_lt (by omega) h4)]⟩
          · simp [hl] at h
      refine ⟨fun qx qy hq => ?_, ?_⟩
      · show (drawRow d.hires d.q.clip (d.bit R) (8 * d.shape.bpr) d.x0 ly (d.runRows fb R).1).1.getPixel qx qy = _
        rw [rp qx qy hq]
        by_cases hqy : blockOf d.hires qy = ly
        · by_cases hc : ∃ c, c < 8 * d.shape.bpr ∧ d.bit R c = true ∧
              landing (logicalWidth d.hires) d.q.clip d.x0 c = some (blockOf d.hires qx)
          · obtain ⟨c, h1, h2, h3⟩ := hc
            rw [if_pos ⟨⟨c, h1, h2, h3⟩, hqy⟩, if_pos ⟨R, c, by omega, h1, h2, by rw [hqy]; exact hl, h3⟩, hqy,
              hold _ (landing_lt (by omega) h3)]
          · rw [if_neg (fun h => hc h.1), ihp qx qy hq, if_neg, if_neg]
            · rintro ⟨r, c, h1, h2, h3, h4, h5⟩
              rw [hqy] at h4
              have := landing_inj hy (by omega) (by omega) (by omega) h4 hl
              subst this
              exact hc ⟨c, h2, h3, h5⟩
            · rintro ⟨r, c, h1, _, _, h4, _⟩
              rw [hqy] at h4
              exact fresh r h1 h4
        · rw [if_neg (fun h => hqy h.2), ihp qx qy hq]
          refine if_congr (exists_congr fun r => exists_congr fun c => ?_) rfl rfl
          refine and_congr_left fun ⟨_, _, h3, _⟩ => ⟨fun h => by omega, fun h => ?_⟩
          rcases Nat.lt_succ_iff_lt_or_eq.1 h with h | h
          · exact h
          · subst h
            rw [hl] at h3
            exact absurd (Option.some.inj h3).symm hqy
      · show (if (drawRow d.hires d.q.clip (d.bit R) (8 * d.shape.bpr) d.x0 ly (d.runRows fb R).1).2 = true then
          (d.runRows fb R).2 + 1 else (d.runRows fb R).2) = _
        rw [ihc]
        by_cases h : d.RowCounts fb R
        · rw [if_pos (hrow.2 h), if_pos h]
        · rw [if_neg (fun h' => h (hrow.1 h')), if_neg h]; rfl

/-- A sprite is at most 16 rows of at most 16 columns (R221). -/
theorem spriteShape_bounds (hires : Bool) (q : Quirks) (n : BitVec 4) :
    (spriteShape hires q n).rows ≤ 16 ∧ 8 * (spriteShape hires q n).bpr ≤ 16 ∧ 1 ≤ (spriteShape hires q n).len := by
  unfold spriteShape SpriteShape.len
  split
  · rename_i h
    have h1 : n.toNat ≠ 0 := fun h' => h (BitVec.eq_of_toNat_eq h')
    have h2 := n.isLt
    simp
    omega
  · split <;> decide

end Sys2Proof.Machine
end

