-- ==== Sys2Proof/Laws/Memory.lean ====
section
/-! SUPPORT. Memory: a read after a write, and the canonical form that every operation keeps. -/

namespace Sys2Proof.Machine

@[simp] theorem Memory.read_nil (a : Nat) : Memory.read [] a = 0#8 := rfl

theorem Memory.read_cons (b : Nat) (w : Byte) (m : Memory) (a : Nat) :
    Memory.read ((b, w) :: m) a = if a = b then w else m.read a := rfl

/-- An address below every entry reads as unlisted. -/
theorem Memory.read_below (m : Memory) (a : Nat) (h : ∀ c ∈ m, a < c.1) : m.read a = 0#8 := by
  induction m with
  | nil => rfl
  | cons c m ih =>
    obtain ⟨b, w⟩ := c
    have hb : a < b := h (b, w) (by simp)
    rw [Memory.read_cons, if_neg (by omega)]
    exact ih fun c hc => h c (by simp [hc])

/-- Reading after a write to memory in canonical form gives the value written, and every other address what it
gave before (R73). -/
theorem Memory.read_write (m : Memory) (hm : m.wf) (a b : Nat) (v : Byte) :
    (m.write a v).read b = if b = a then v else m.read b := by
  induction m with
  | nil =>
    by_cases hv : v = 0#8 <;> by_cases hb : b = a <;> simp [Memory.write, Memory.read_cons, hv, hb]
  | cons c m ih =>
    obtain ⟨k, w⟩ := c
    have hsorted := hm.1
    rw [List.pairwise_cons] at hsorted
    have hrest : Memory.wf m := ⟨hsorted.2, fun c hc => hm.2 c (by simp [hc])⟩
    have hbelow : ∀ a, a ≤ k → Memory.read m a = 0#8 := fun a ha =>
      Memory.read_below m a fun c hc => by have := hsorted.1 c hc; simp at this; omega
    simp only [Memory.write]
    split
    · rename_i hlt
      by_cases hv : v = 0#8
      · simp only [hv, Memory.unlisted, if_true, Memory.read_cons]
        by_cases hb : b = a
        · subst hb; simp [hbelow b (by omega), show b ≠ k by omega]
        · simp [hb]
      · simp [hv, Memory.read_cons]
    · split
      · rename_i hlt heq
        subst heq
        by_cases hv : v = 0#8
        · simp only [hv, Memory.unlisted, if_true, Memory.read_cons]
          by_cases hb : b = a
          · subst hb; simp [hbelow b (by omega)]
          · simp [hb]
        · simp only [hv, Memory.unlisted, if_false, Memory.read_cons]
          by_cases hb : b = a <;> simp [hb]
      · rename_i hlt hne
        rw [Memory.read_cons, Memory.read_cons, ih hrest]
        by_cases hb : b = a
        · subst hb; simp [hne]
        · simp [hb]

/-- Every entry after a write is an old entry or the one written. -/
theorem Memory.mem_write {m : Memory} {a : Nat} {v : Byte} {c : Host.Cell} (h : c ∈ m.write a v) :
    c ∈ m ∨ (c = (a, v) ∧ v ≠ 0#8) := by
  induction m with
  | nil => by_cases hv : v = 0#8 <;> simp_all [Memory.write]
  | cons d m ih =>
    obtain ⟨k, w⟩ := d
    simp only [Memory.write] at h
    split at h
    · split at h <;> simp_all; tauto
    · split at h
      · split at h <;> simp_all; tauto
      · rcases List.mem_cons.1 h with h | h
        · simp [h]
        · rcases ih h with h | h
          · simp [h]
          · exact .inr h

/-- A write inside memory keeps the canonical form. -/
theorem Memory.write_wf {m : Memory} (hm : m.wf) {a : Nat} (ha : a < memSize) (v : Byte) : (m.write a v).wf := by
  refine ⟨?_, fun c hc => ?_⟩
  · have hs := hm.1
    clear hm
    induction m with
    | nil => simp only [Memory.write]; split <;> simp
    | cons d m ih =>
      obtain ⟨k, w⟩ := d
      have hd := List.pairwise_cons.1 hs
      simp only [Memory.write]
      split
      · rename_i hlt
        split
        · exact hs
        · refine List.pairwise_cons.2 ⟨fun c hc => ?_, hs⟩
          rcases List.mem_cons.1 hc with h | h
          · simp [h]; omega
          · have := hd.1 c h; simp at this ⊢; omega
      · split
        · rename_i hlt heq
          subst heq
          split
          · exact hd.2
          · exact List.pairwise_cons.2 ⟨hd.1, hd.2⟩
        · rename_i hlt hne
          refine List.pairwise_cons.2 ⟨fun c hc => ?_, ih hd.2⟩
          rcases Memory.mem_write hc with h | ⟨h, -⟩
          · exact hd.1 c h
          · simp [h]; omega
  · rcases Memory.mem_write hc with h | ⟨h, hv⟩
    · exact hm.2 c h
    · subst h; exact ⟨ha, hv⟩

/-- A run of bytes inside memory keeps the canonical form. -/
theorem Memory.writeBytes_wf {m : Memory} (hm : m.wf) {a : Nat} {bs : List Byte} (ha : a + bs.length ≤ memSize) :
    (m.writeBytes a bs).wf := by
  induction bs generalizing m a with
  | nil => exact hm
  | cons v bs ih =>
    simp only [List.length_cons] at ha
    exact ih (Memory.write_wf hm (by omega) v) (by omega)

/-- A byte after a run of bytes is written: the run's byte inside it, the old byte outside. -/
theorem Memory.read_writeBytes {m : Memory} (hm : m.wf) {a : Nat} {bs : List Byte} (ha : a + bs.length ≤ memSize)
    (b : Nat) :
    (m.writeBytes a bs).read b = if a ≤ b then (bs[b - a]?).getD (m.read b) else m.read b := by
  induction bs generalizing m a with
  | nil => simp [Memory.writeBytes]
  | cons v bs ih =>
    simp only [List.length_cons] at ha
    rw [Memory.writeBytes, ih (Memory.write_wf hm (by omega) v) (by omega), Memory.read_write m hm]
    rcases Nat.lt_trichotomy b a with h | h | h
    · simp [show ¬ a + 1 ≤ b by omega, show ¬ a ≤ b by omega, show b ≠ a by omega]
    · subst h; simp
    · have : b - a = (b - (a + 1)) + 1 := by omega
      simp [show a + 1 ≤ b by omega, show a ≤ b by omega, show b ≠ a by omega, this]

/-- Two memories in canonical form with the same bytes are the same data. -/
theorem Memory.ext_of_read {m n : Memory} (hm : m.wf) (hn : n.wf) (h : ∀ a, m.read a = n.read a) : m = n := by
  induction m generalizing n with
  | nil =>
    cases n with
    | nil => rfl
    | cons d n =>
      obtain ⟨k, w⟩ := d
      have h1 := h k
      have h2 := (hn.2 (k, w) (by simp)).2
      simp [Memory.read_cons] at h1
      exact absurd h1.symm h2
  | cons c m ih =>
    obtain ⟨a, v⟩ := c
    have hva := (hm.2 (a, v) (by simp)).2
    have hdm := List.pairwise_cons.1 hm.1
    cases n with
    | nil =>
      have h1 := h a
      simp [Memory.read_cons] at h1
      exact absurd h1 hva
    | cons d n =>
      obtain ⟨b, w⟩ := d
      have hwb := (hn.2 (b, w) (by simp)).2
      have hdn := List.pairwise_cons.1 hn.1
      have below_m : ∀ k, k ≤ a → Memory.read m k = 0#8 := fun k hk =>
        Memory.read_below m k fun c hc => by have := hdm.1 c hc; simp at this; omega
      have below_n : ∀ k, k ≤ b → Memory.read n k = 0#8 := fun k hk =>
        Memory.read_below n k fun c hc => by have := hdn.1 c hc; simp at this; omega
      have hab : a = b := by
        rcases Nat.lt_trichotomy a b with hlt | heq | hgt
        · have h1 := h a
          simp [Memory.read_cons, show a ≠ b by omega, below_n a (by omega)] at h1
          exact absurd h1 hva
        · exact heq
        · have h1 := h b
          simp [Memory.read_cons, show b ≠ a by omega, below_m b (by omega)] at h1
          exact absurd h1.symm hwb
      subst hab
      have hvw : v = w := by have h1 := h a; simpa [Memory.read_cons] using h1
      subst hvw
      have hmn : m = n := by
        refine ih ⟨hdm.2, fun c hc => hm.2 c (by simp [hc])⟩ ⟨hdn.2, fun c hc => hn.2 c (by simp [hc])⟩ fun k => ?_
        by_cases hk : k = a
        · subst hk; rw [below_m k (by omega), below_n k (by omega)]
        · have h1 := h k; simpa [Memory.read_cons, hk] using h1
      rw [hmn]

theorem Memory.nil_wf : Memory.wf [] := by simp [Memory.wf]

/-- A run built directly is in canonical form when it fits. -/
theorem Memory.ofRun_wf {a : Nat} {bs : List Byte} (h : a + bs.length ≤ memSize) :
    (Memory.ofRun a bs).wf ∧ ∀ c ∈ Memory.ofRun a bs, a ≤ c.1 := by
  induction bs generalizing a with
  | nil => simp [Memory.ofRun, Memory.wf]
  | cons v bs ih =>
    simp only [List.length_cons] at h
    obtain ⟨hw, hlow⟩ := ih (a := a + 1) (by omega)
    simp only [Memory.ofRun]
    split
    · exact ⟨hw, fun c hc => by have := hlow c hc; omega⟩
    · rename_i hv
      refine ⟨⟨List.pairwise_cons.2 ⟨fun c hc => ?_, hw.1⟩, fun c hc => ?_⟩, fun c hc => ?_⟩
      · have := hlow c hc; simp; omega
      · rcases List.mem_cons.1 hc with h' | h'
        · subst h'; exact ⟨by show a < memSize; omega, hv⟩
        · exact hw.2 c h'
      · rcases List.mem_cons.1 hc with h' | h'
        · simp [h']
        · have := hlow c h'; omega

/-- The bytes of a run built directly. -/
theorem Memory.read_ofRun {a : Nat} {bs : List Byte} (h : a + bs.length ≤ memSize) (b : Nat) :
    (Memory.ofRun a bs).read b = if a ≤ b then (bs[b - a]?).getD 0 else 0#8 := by
  induction bs generalizing a with
  | nil => simp [Memory.ofRun]
  | cons v bs ih =>
    simp only [List.length_cons] at h
    have hih := ih (a := a + 1) (by omega)
    have hlow := (Memory.ofRun_wf (a := a + 1) (bs := bs) (by omega)).2
    simp only [Memory.ofRun]
    rcases Nat.lt_trichotomy b a with hb | hb | hb
    · split <;> simp [Memory.read_cons, hih, show ¬ a + 1 ≤ b by omega, show ¬ a ≤ b by omega, show b ≠ a by omega]
    · subst hb
      split
      · rename_i hv; simp [hih, hv]
      · simp [Memory.read_cons]
    · have : b - a = (b - (a + 1)) + 1 := by omega
      split <;>
        simp [Memory.read_cons, hih, show a + 1 ≤ b by omega, show a ≤ b by omega, show b ≠ a by omega, this]

/-- Writing a run into empty memory is building it directly. -/
theorem Memory.writeBytes_nil {a : Nat} {bs : List Byte} (h : a + bs.length ≤ memSize) :
    Memory.writeBytes [] a bs = Memory.ofRun a bs :=
  Memory.ext_of_read (Memory.writeBytes_wf Memory.nil_wf h) (Memory.ofRun_wf h).1 fun b => by
    rw [Memory.read_writeBytes Memory.nil_wf h, Memory.read_ofRun h]; simp

/-- Memory given byte by byte is in canonical form. -/
theorem Memory.ofBytes_wf (f : Nat → Byte) : (Memory.ofBytes f).wf := (Memory.ofRun_wf (by simp)).1

/-- Memory given byte by byte holds those bytes. -/
theorem Memory.read_ofBytes (f : Nat → Byte) (a : Nat) (h : a < memSize) : (Memory.ofBytes f).read a = f a := by
  rw [Memory.ofBytes, Memory.read_ofRun (by simp)]
  simp [h]

/-- A two-byte write inside memory keeps the canonical form. -/
theorem Memory.write2_wf {m : Memory} (hm : m.wf) {a : Nat} (ha : a + 1 < memSize) (v : BitVec 16) :
    (m.write2 a v).wf :=
  Memory.write_wf (Memory.write_wf hm (by omega) _) ha _

/-- One byte after a two-byte write (R73). -/
theorem Memory.read_write2 {m : Memory} (hm : m.wf) {a : Nat} (ha : a + 1 < memSize) (v : BitVec 16) (b : Nat) :
    (m.write2 a v).read b =
      if b = a then v.extractLsb' 8 8 else if b = a + 1 then v.extractLsb' 0 8 else m.read b := by
  rw [Memory.write2, Memory.read_write _ (Memory.write_wf hm (by omega) _), Memory.read_write m hm]
  by_cases h1 : b = a
  · subst h1; simp
  · by_cases h2 : b = a + 1 <;> simp [h1, h2]

/-- A two-byte read after a two-byte write gives the value back (R72, R73). -/
theorem Memory.read2_write2 {m : Memory} (hm : m.wf) {a : Nat} (ha : a + 1 < memSize) (v : BitVec 16) :
    (m.write2 a v).read2 a = v := by
  rw [Memory.read2, Memory.read_write2 hm ha, Memory.read_write2 hm ha]
  simp only [if_true, if_neg (show a + 1 ≠ a by omega)]
  ext k hk
  simp only [BitVec.getElem_append, BitVec.getElem_extractLsb']
  split
  · simp; rfl
  · rw [show 8 + (k - 8) = k by omega]; exact BitVec.getLsbD_eq_getElem hk

end Sys2Proof.Machine
end

