-- ==== Sys2Proof/Laws/State.lean ====
section
/-! SUPPORT. What each named update leaves in each field of the state: one lemma per field per update, all true by
definition, so that no proof unfolds a record update. -/

namespace Sys2Proof.Machine

variable (s : State)

@[simp] theorem State.setV_v (x : Reg) (b : Byte) : (s.setV x b).v = s.v.set x.toNat b x.isLt := rfl
@[simp] theorem State.setV_pc (x : Reg) (b : Byte) : (s.setV x b).pc = s.pc := rfl
@[simp] theorem State.setV_i (x : Reg) (b : Byte) : (s.setV x b).i = s.i := rfl
@[simp] theorem State.setV_sp (x : Reg) (b : Byte) : (s.setV x b).sp = s.sp := rfl
@[simp] theorem State.setV_dt (x : Reg) (b : Byte) : (s.setV x b).dt = s.dt := rfl
@[simp] theorem State.setV_st (x : Reg) (b : Byte) : (s.setV x b).st = s.st := rfl
@[simp] theorem State.setV_hires (x : Reg) (b : Byte) : (s.setV x b).hires = s.hires := rfl
@[simp] theorem State.setV_exit (x : Reg) (b : Byte) : (s.setV x b).exit = s.exit := rfl
@[simp] theorem State.setV_beep (x : Reg) (b : Byte) : (s.setV x b).beep = s.beep := rfl
@[simp] theorem State.setV_displayUpdated (x : Reg) (b : Byte) : (s.setV x b).displayUpdated = s.displayUpdated := rfl
@[simp] theorem State.setV_executed (x : Reg) (b : Byte) : (s.setV x b).executed = s.executed := rfl
@[simp] theorem State.setV_latch (x : Reg) (b : Byte) : (s.setV x b).latch = s.latch := rfl
@[simp] theorem State.setV_mem (x : Reg) (b : Byte) : (s.setV x b).mem = s.mem := rfl
@[simp] theorem State.setV_fb (x : Reg) (b : Byte) : (s.setV x b).fb = s.fb := rfl
@[simp] theorem State.setV_keys (x : Reg) (b : Byte) : (s.setV x b).keys = s.keys := rfl
@[simp] theorem State.setV_rng (x : Reg) (b : Byte) : (s.setV x b).rng = s.rng := rfl
@[simp] theorem State.setV_cpuCum (x : Reg) (b : Byte) : (s.setV x b).cpuCum = s.cpuCum := rfl
@[simp] theorem State.setV_delayCum (x : Reg) (b : Byte) : (s.setV x b).delayCum = s.delayCum := rfl
@[simp] theorem State.setV_soundCum (x : Reg) (b : Byte) : (s.setV x b).soundCum = s.soundCum := rfl
@[simp] theorem State.setV_refreshCum (x : Reg) (b : Byte) : (s.setV x b).refreshCum = s.refreshCum := rfl
@[simp] theorem State.setV_prevTime (x : Reg) (b : Byte) : (s.setV x b).prevTime = s.prevTime := rfl
@[simp] theorem State.setV_curTime (x : Reg) (b : Byte) : (s.setV x b).curTime = s.curTime := rfl
@[simp] theorem State.setV_elapsed (x : Reg) (b : Byte) : (s.setV x b).elapsed = s.elapsed := rfl
@[simp] theorem State.setV_config (x : Reg) (b : Byte) : (s.setV x b).config = s.config := rfl
@[simp] theorem State.setV_params (x : Reg) (b : Byte) : (s.setV x b).params = s.params := rfl
@[simp] theorem State.setV_programImage (x : Reg) (b : Byte) : (s.setV x b).programImage = s.programImage := rfl
@[simp] theorem State.setV_clockMs (x : Reg) (b : Byte) : (s.setV x b).clockMs = s.clockMs := rfl
@[simp] theorem State.setV_keyLevel (x : Reg) (b : Byte) : (s.setV x b).keyLevel = s.keyLevel := rfl
@[simp] theorem State.setV_hostPlan (x : Reg) (b : Byte) : (s.setV x b).hostPlan = s.hostPlan := rfl
@[simp] theorem State.setV_ramDraws (x : Reg) (b : Byte) : (s.setV x b).ramDraws = s.ramDraws := rfl

@[simp] theorem State.setPc_v (a : Addr) : (s.setPc a).v = s.v := rfl
@[simp] theorem State.setPc_pc (a : Addr) : (s.setPc a).pc = a := rfl
@[simp] theorem State.setPc_i (a : Addr) : (s.setPc a).i = s.i := rfl
@[simp] theorem State.setPc_sp (a : Addr) : (s.setPc a).sp = s.sp := rfl
@[simp] theorem State.setPc_dt (a : Addr) : (s.setPc a).dt = s.dt := rfl
@[simp] theorem State.setPc_st (a : Addr) : (s.setPc a).st = s.st := rfl
@[simp] theorem State.setPc_hires (a : Addr) : (s.setPc a).hires = s.hires := rfl
@[simp] theorem State.setPc_exit (a : Addr) : (s.setPc a).exit = s.exit := rfl
@[simp] theorem State.setPc_beep (a : Addr) : (s.setPc a).beep = s.beep := rfl
@[simp] theorem State.setPc_displayUpdated (a : Addr) : (s.setPc a).displayUpdated = s.displayUpdated := rfl
@[simp] theorem State.setPc_executed (a : Addr) : (s.setPc a).executed = s.executed := rfl
@[simp] theorem State.setPc_latch (a : Addr) : (s.setPc a).latch = s.latch := rfl
@[simp] theorem State.setPc_mem (a : Addr) : (s.setPc a).mem = s.mem := rfl
@[simp] theorem State.setPc_fb (a : Addr) : (s.setPc a).fb = s.fb := rfl
@[simp] theorem State.setPc_keys (a : Addr) : (s.setPc a).keys = s.keys := rfl
@[simp] theorem State.setPc_rng (a : Addr) : (s.setPc a).rng = s.rng := rfl
@[simp] theorem State.setPc_cpuCum (a : Addr) : (s.setPc a).cpuCum = s.cpuCum := rfl
@[simp] theorem State.setPc_delayCum (a : Addr) : (s.setPc a).delayCum = s.delayCum := rfl
@[simp] theorem State.setPc_soundCum (a : Addr) : (s.setPc a).soundCum = s.soundCum := rfl
@[simp] theorem State.setPc_refreshCum (a : Addr) : (s.setPc a).refreshCum = s.refreshCum := rfl
@[simp] theorem State.setPc_prevTime (a : Addr) : (s.setPc a).prevTime = s.prevTime := rfl
@[simp] theorem State.setPc_curTime (a : Addr) : (s.setPc a).curTime = s.curTime := rfl
@[simp] theorem State.setPc_elapsed (a : Addr) : (s.setPc a).elapsed = s.elapsed := rfl
@[simp] theorem State.setPc_config (a : Addr) : (s.setPc a).config = s.config := rfl
@[simp] theorem State.setPc_params (a : Addr) : (s.setPc a).params = s.params := rfl
@[simp] theorem State.setPc_programImage (a : Addr) : (s.setPc a).programImage = s.programImage := rfl
@[simp] theorem State.setPc_clockMs (a : Addr) : (s.setPc a).clockMs = s.clockMs := rfl
@[simp] theorem State.setPc_keyLevel (a : Addr) : (s.setPc a).keyLevel = s.keyLevel := rfl
@[simp] theorem State.setPc_hostPlan (a : Addr) : (s.setPc a).hostPlan = s.hostPlan := rfl
@[simp] theorem State.setPc_ramDraws (a : Addr) : (s.setPc a).ramDraws = s.ramDraws := rfl

@[simp] theorem State.setI_v (a : Addr) : (s.setI a).v = s.v := rfl
@[simp] theorem State.setI_pc (a : Addr) : (s.setI a).pc = s.pc := rfl
@[simp] theorem State.setI_i (a : Addr) : (s.setI a).i = a := rfl
@[simp] theorem State.setI_sp (a : Addr) : (s.setI a).sp = s.sp := rfl
@[simp] theorem State.setI_dt (a : Addr) : (s.setI a).dt = s.dt := rfl
@[simp] theorem State.setI_st (a : Addr) : (s.setI a).st = s.st := rfl
@[simp] theorem State.setI_hires (a : Addr) : (s.setI a).hires = s.hires := rfl
@[simp] theorem State.setI_exit (a : Addr) : (s.setI a).exit = s.exit := rfl
@[simp] theorem State.setI_beep (a : Addr) : (s.setI a).beep = s.beep := rfl
@[simp] theorem State.setI_displayUpdated (a : Addr) : (s.setI a).displayUpdated = s.displayUpdated := rfl
@[simp] theorem State.setI_executed (a : Addr) : (s.setI a).executed = s.executed := rfl
@[simp] theorem State.setI_latch (a : Addr) : (s.setI a).latch = s.latch := rfl
@[simp] theorem State.setI_mem (a : Addr) : (s.setI a).mem = s.mem := rfl
@[simp] theorem State.setI_fb (a : Addr) : (s.setI a).fb = s.fb := rfl
@[simp] theorem State.setI_keys (a : Addr) : (s.setI a).keys = s.keys := rfl
@[simp] theorem State.setI_rng (a : Addr) : (s.setI a).rng = s.rng := rfl
@[simp] theorem State.setI_cpuCum (a : Addr) : (s.setI a).cpuCum = s.cpuCum := rfl
@[simp] theorem State.setI_delayCum (a : Addr) : (s.setI a).delayCum = s.delayCum := rfl
@[simp] theorem State.setI_soundCum (a : Addr) : (s.setI a).soundCum = s.soundCum := rfl
@[simp] theorem State.setI_refreshCum (a : Addr) : (s.setI a).refreshCum = s.refreshCum := rfl
@[simp] theorem State.setI_prevTime (a : Addr) : (s.setI a).prevTime = s.prevTime := rfl
@[simp] theorem State.setI_curTime (a : Addr) : (s.setI a).curTime = s.curTime := rfl
@[simp] theorem State.setI_elapsed (a : Addr) : (s.setI a).elapsed = s.elapsed := rfl
@[simp] theorem State.setI_config (a : Addr) : (s.setI a).config = s.config := rfl
@[simp] theorem State.setI_params (a : Addr) : (s.setI a).params = s.params := rfl
@[simp] theorem State.setI_programImage (a : Addr) : (s.setI a).programImage = s.programImage := rfl
@[simp] theorem State.setI_clockMs (a : Addr) : (s.setI a).clockMs = s.clockMs := rfl
@[simp] theorem State.setI_keyLevel (a : Addr) : (s.setI a).keyLevel = s.keyLevel := rfl
@[simp] theorem State.setI_hostPlan (a : Addr) : (s.setI a).hostPlan = s.hostPlan := rfl
@[simp] theorem State.setI_ramDraws (a : Addr) : (s.setI a).ramDraws = s.ramDraws := rfl

@[simp] theorem State.setSp_v (a : Addr) : (s.setSp a).v = s.v := rfl
@[simp] theorem State.setSp_pc (a : Addr) : (s.setSp a).pc = s.pc := rfl
@[simp] theorem State.setSp_i (a : Addr) : (s.setSp a).i = s.i := rfl
@[simp] theorem State.setSp_sp (a : Addr) : (s.setSp a).sp = a := rfl
@[simp] theorem State.setSp_dt (a : Addr) : (s.setSp a).dt = s.dt := rfl
@[simp] theorem State.setSp_st (a : Addr) : (s.setSp a).st = s.st := rfl
@[simp] theorem State.setSp_hires (a : Addr) : (s.setSp a).hires = s.hires := rfl
@[simp] theorem State.setSp_exit (a : Addr) : (s.setSp a).exit = s.exit := rfl
@[simp] theorem State.setSp_beep (a : Addr) : (s.setSp a).beep = s.beep := rfl
@[simp] theorem State.setSp_displayUpdated (a : Addr) : (s.setSp a).displayUpdated = s.displayUpdated := rfl
@[simp] theorem State.setSp_executed (a : Addr) : (s.setSp a).executed = s.executed := rfl
@[simp] theorem State.setSp_latch (a : Addr) : (s.setSp a).latch = s.latch := rfl
@[simp] theorem State.setSp_mem (a : Addr) : (s.setSp a).mem = s.mem := rfl
@[simp] theorem State.setSp_fb (a : Addr) : (s.setSp a).fb = s.fb := rfl
@[simp] theorem State.setSp_keys (a : Addr) : (s.setSp a).keys = s.keys := rfl
@[simp] theorem State.setSp_rng (a : Addr) : (s.setSp a).rng = s.rng := rfl
@[simp] theorem State.setSp_cpuCum (a : Addr) : (s.setSp a).cpuCum = s.cpuCum := rfl
@[simp] theorem State.setSp_delayCum (a : Addr) : (s.setSp a).delayCum = s.delayCum := rfl
@[simp] theorem State.setSp_soundCum (a : Addr) : (s.setSp a).soundCum = s.soundCum := rfl
@[simp] theorem State.setSp_refreshCum (a : Addr) : (s.setSp a).refreshCum = s.refreshCum := rfl
@[simp] theorem State.setSp_prevTime (a : Addr) : (s.setSp a).prevTime = s.prevTime := rfl
@[simp] theorem State.setSp_curTime (a : Addr) : (s.setSp a).curTime = s.curTime := rfl
@[simp] theorem State.setSp_elapsed (a : Addr) : (s.setSp a).elapsed = s.elapsed := rfl
@[simp] theorem State.setSp_config (a : Addr) : (s.setSp a).config = s.config := rfl
@[simp] theorem State.setSp_params (a : Addr) : (s.setSp a).params = s.params := rfl
@[simp] theorem State.setSp_programImage (a : Addr) : (s.setSp a).programImage = s.programImage := rfl
@[simp] theorem State.setSp_clockMs (a : Addr) : (s.setSp a).clockMs = s.clockMs := rfl
@[simp] theorem State.setSp_keyLevel (a : Addr) : (s.setSp a).keyLevel = s.keyLevel := rfl
@[simp] theorem State.setSp_hostPlan (a : Addr) : (s.setSp a).hostPlan = s.hostPlan := rfl
@[simp] theorem State.setSp_ramDraws (a : Addr) : (s.setSp a).ramDraws = s.ramDraws := rfl

@[simp] theorem State.setDT_v (b : Byte) : (s.setDT b).v = s.v := rfl
@[simp] theorem State.setDT_pc (b : Byte) : (s.setDT b).pc = s.pc := rfl
@[simp] theorem State.setDT_i (b : Byte) : (s.setDT b).i = s.i := rfl
@[simp] theorem State.setDT_sp (b : Byte) : (s.setDT b).sp = s.sp := rfl
@[simp] theorem State.setDT_dt (b : Byte) : (s.setDT b).dt = b := rfl
@[simp] theorem State.setDT_st (b : Byte) : (s.setDT b).st = s.st := rfl
@[simp] theorem State.setDT_hires (b : Byte) : (s.setDT b).hires = s.hires := rfl
@[simp] theorem State.setDT_exit (b : Byte) : (s.setDT b).exit = s.exit := rfl
@[simp] theorem State.setDT_beep (b : Byte) : (s.setDT b).beep = s.beep := rfl
@[simp] theorem State.setDT_displayUpdated (b : Byte) : (s.setDT b).displayUpdated = s.displayUpdated := rfl
@[simp] theorem State.setDT_executed (b : Byte) : (s.setDT b).executed = s.executed := rfl
@[simp] theorem State.setDT_latch (b : Byte) : (s.setDT b).latch = s.latch := rfl
@[simp] theorem State.setDT_mem (b : Byte) : (s.setDT b).mem = s.mem := rfl
@[simp] theorem State.setDT_fb (b : Byte) : (s.setDT b).fb = s.fb := rfl
@[simp] theorem State.setDT_keys (b : Byte) : (s.setDT b).keys = s.keys := rfl
@[simp] theorem State.setDT_rng (b : Byte) : (s.setDT b).rng = s.rng := rfl
@[simp] theorem State.setDT_cpuCum (b : Byte) : (s.setDT b).cpuCum = s.cpuCum := rfl
@[simp] theorem State.setDT_delayCum (b : Byte) : (s.setDT b).delayCum = s.delayCum := rfl
@[simp] theorem State.setDT_soundCum (b : Byte) : (s.setDT b).soundCum = s.soundCum := rfl
@[simp] theorem State.setDT_refreshCum (b : Byte) : (s.setDT b).refreshCum = s.refreshCum := rfl
@[simp] theorem State.setDT_prevTime (b : Byte) : (s.setDT b).prevTime = s.prevTime := rfl
@[simp] theorem State.setDT_curTime (b : Byte) : (s.setDT b).curTime = s.curTime := rfl
@[simp] theorem State.setDT_elapsed (b : Byte) : (s.setDT b).elapsed = s.elapsed := rfl
@[simp] theorem State.setDT_config (b : Byte) : (s.setDT b).config = s.config := rfl
@[simp] theorem State.setDT_params (b : Byte) : (s.setDT b).params = s.params := rfl
@[simp] theorem State.setDT_programImage (b : Byte) : (s.setDT b).programImage = s.programImage := rfl
@[simp] theorem State.setDT_clockMs (b : Byte) : (s.setDT b).clockMs = s.clockMs := rfl
@[simp] theorem State.setDT_keyLevel (b : Byte) : (s.setDT b).keyLevel = s.keyLevel := rfl
@[simp] theorem State.setDT_hostPlan (b : Byte) : (s.setDT b).hostPlan = s.hostPlan := rfl
@[simp] theorem State.setDT_ramDraws (b : Byte) : (s.setDT b).ramDraws = s.ramDraws := rfl

@[simp] theorem State.setST_v (b : Byte) : (s.setST b).v = s.v := rfl
@[simp] theorem State.setST_pc (b : Byte) : (s.setST b).pc = s.pc := rfl
@[simp] theorem State.setST_i (b : Byte) : (s.setST b).i = s.i := rfl
@[simp] theorem State.setST_sp (b : Byte) : (s.setST b).sp = s.sp := rfl
@[simp] theorem State.setST_dt (b : Byte) : (s.setST b).dt = s.dt := rfl
@[simp] theorem State.setST_st (b : Byte) : (s.setST b).st = b := rfl
@[simp] theorem State.setST_hires (b : Byte) : (s.setST b).hires = s.hires := rfl
@[simp] theorem State.setST_exit (b : Byte) : (s.setST b).exit = s.exit := rfl
@[simp] theorem State.setST_beep (b : Byte) : (s.setST b).beep = s.beep := rfl
@[simp] theorem State.setST_displayUpdated (b : Byte) : (s.setST b).displayUpdated = s.displayUpdated := rfl
@[simp] theorem State.setST_executed (b : Byte) : (s.setST b).executed = s.executed := rfl
@[simp] theorem State.setST_latch (b : Byte) : (s.setST b).latch = s.latch := rfl
@[simp] theorem State.setST_mem (b : Byte) : (s.setST b).mem = s.mem := rfl
@[simp] theorem State.setST_fb (b : Byte) : (s.setST b).fb = s.fb := rfl
@[simp] theorem State.setST_keys (b : Byte) : (s.setST b).keys = s.keys := rfl
@[simp] theorem State.setST_rng (b : Byte) : (s.setST b).rng = s.rng := rfl
@[simp] theorem State.setST_cpuCum (b : Byte) : (s.setST b).cpuCum = s.cpuCum := rfl
@[simp] theorem State.setST_delayCum (b : Byte) : (s.setST b).delayCum = s.delayCum := rfl
@[simp] theorem State.setST_soundCum (b : Byte) : (s.setST b).soundCum = s.soundCum := rfl
@[simp] theorem State.setST_refreshCum (b : Byte) : (s.setST b).refreshCum = s.refreshCum := rfl
@[simp] theorem State.setST_prevTime (b : Byte) : (s.setST b).prevTime = s.prevTime := rfl
@[simp] theorem State.setST_curTime (b : Byte) : (s.setST b).curTime = s.curTime := rfl
@[simp] theorem State.setST_elapsed (b : Byte) : (s.setST b).elapsed = s.elapsed := rfl
@[simp] theorem State.setST_config (b : Byte) : (s.setST b).config = s.config := rfl
@[simp] theorem State.setST_params (b : Byte) : (s.setST b).params = s.params := rfl
@[simp] theorem State.setST_programImage (b : Byte) : (s.setST b).programImage = s.programImage := rfl
@[simp] theorem State.setST_clockMs (b : Byte) : (s.setST b).clockMs = s.clockMs := rfl
@[simp] theorem State.setST_keyLevel (b : Byte) : (s.setST b).keyLevel = s.keyLevel := rfl
@[simp] theorem State.setST_hostPlan (b : Byte) : (s.setST b).hostPlan = s.hostPlan := rfl
@[simp] theorem State.setST_ramDraws (b : Byte) : (s.setST b).ramDraws = s.ramDraws := rfl

@[simp] theorem State.setHires_v (b : Bool) : (s.setHires b).v = s.v := rfl
@[simp] theorem State.setHires_pc (b : Bool) : (s.setHires b).pc = s.pc := rfl
@[simp] theorem State.setHires_i (b : Bool) : (s.setHires b).i = s.i := rfl
@[simp] theorem State.setHires_sp (b : Bool) : (s.setHires b).sp = s.sp := rfl
@[simp] theorem State.setHires_dt (b : Bool) : (s.setHires b).dt = s.dt := rfl
@[simp] theorem State.setHires_st (b : Bool) : (s.setHires b).st = s.st := rfl
@[simp] theorem State.setHires_hires (b : Bool) : (s.setHires b).hires = b := rfl
@[simp] theorem State.setHires_exit (b : Bool) : (s.setHires b).exit = s.exit := rfl
@[simp] theorem State.setHires_beep (b : Bool) : (s.setHires b).beep = s.beep := rfl
@[simp] theorem State.setHires_displayUpdated (b : Bool) : (s.setHires b).displayUpdated = s.displayUpdated := rfl
@[simp] theorem State.setHires_executed (b : Bool) : (s.setHires b).executed = s.executed := rfl
@[simp] theorem State.setHires_latch (b : Bool) : (s.setHires b).latch = s.latch := rfl
@[simp] theorem State.setHires_mem (b : Bool) : (s.setHires b).mem = s.mem := rfl
@[simp] theorem State.setHires_fb (b : Bool) : (s.setHires b).fb = s.fb := rfl
@[simp] theorem State.setHires_keys (b : Bool) : (s.setHires b).keys = s.keys := rfl
@[simp] theorem State.setHires_rng (b : Bool) : (s.setHires b).rng = s.rng := rfl
@[simp] theorem State.setHires_cpuCum (b : Bool) : (s.setHires b).cpuCum = s.cpuCum := rfl
@[simp] theorem State.setHires_delayCum (b : Bool) : (s.setHires b).delayCum = s.delayCum := rfl
@[simp] theorem State.setHires_soundCum (b : Bool) : (s.setHires b).soundCum = s.soundCum := rfl
@[simp] theorem State.setHires_refreshCum (b : Bool) : (s.setHires b).refreshCum = s.refreshCum := rfl
@[simp] theorem State.setHires_prevTime (b : Bool) : (s.setHires b).prevTime = s.prevTime := rfl
@[simp] theorem State.setHires_curTime (b : Bool) : (s.setHires b).curTime = s.curTime := rfl
@[simp] theorem State.setHires_elapsed (b : Bool) : (s.setHires b).elapsed = s.elapsed := rfl
@[simp] theorem State.setHires_config (b : Bool) : (s.setHires b).config = s.config := rfl
@[simp] theorem State.setHires_params (b : Bool) : (s.setHires b).params = s.params := rfl
@[simp] theorem State.setHires_programImage (b : Bool) : (s.setHires b).programImage = s.programImage := rfl
@[simp] theorem State.setHires_clockMs (b : Bool) : (s.setHires b).clockMs = s.clockMs := rfl
@[simp] theorem State.setHires_keyLevel (b : Bool) : (s.setHires b).keyLevel = s.keyLevel := rfl
@[simp] theorem State.setHires_hostPlan (b : Bool) : (s.setHires b).hostPlan = s.hostPlan := rfl
@[simp] theorem State.setHires_ramDraws (b : Bool) : (s.setHires b).ramDraws = s.ramDraws := rfl

@[simp] theorem State.setExit_v : (s.setExit).v = s.v := rfl
@[simp] theorem State.setExit_pc : (s.setExit).pc = s.pc := rfl
@[simp] theorem State.setExit_i : (s.setExit).i = s.i := rfl
@[simp] theorem State.setExit_sp : (s.setExit).sp = s.sp := rfl
@[simp] theorem State.setExit_dt : (s.setExit).dt = s.dt := rfl
@[simp] theorem State.setExit_st : (s.setExit).st = s.st := rfl
@[simp] theorem State.setExit_hires : (s.setExit).hires = s.hires := rfl
@[simp] theorem State.setExit_exit : (s.setExit).exit = true := rfl
@[simp] theorem State.setExit_beep : (s.setExit).beep = s.beep := rfl
@[simp] theorem State.setExit_displayUpdated : (s.setExit).displayUpdated = s.displayUpdated := rfl
@[simp] theorem State.setExit_executed : (s.setExit).executed = s.executed := rfl
@[simp] theorem State.setExit_latch : (s.setExit).latch = s.latch := rfl
@[simp] theorem State.setExit_mem : (s.setExit).mem = s.mem := rfl
@[simp] theorem State.setExit_fb : (s.setExit).fb = s.fb := rfl
@[simp] theorem State.setExit_keys : (s.setExit).keys = s.keys := rfl
@[simp] theorem State.setExit_rng : (s.setExit).rng = s.rng := rfl
@[simp] theorem State.setExit_cpuCum : (s.setExit).cpuCum = s.cpuCum := rfl
@[simp] theorem State.setExit_delayCum : (s.setExit).delayCum = s.delayCum := rfl
@[simp] theorem State.setExit_soundCum : (s.setExit).soundCum = s.soundCum := rfl
@[simp] theorem State.setExit_refreshCum : (s.setExit).refreshCum = s.refreshCum := rfl
@[simp] theorem State.setExit_prevTime : (s.setExit).prevTime = s.prevTime := rfl
@[simp] theorem State.setExit_curTime : (s.setExit).curTime = s.curTime := rfl
@[simp] theorem State.setExit_elapsed : (s.setExit).elapsed = s.elapsed := rfl
@[simp] theorem State.setExit_config : (s.setExit).config = s.config := rfl
@[simp] theorem State.setExit_params : (s.setExit).params = s.params := rfl
@[simp] theorem State.setExit_programImage : (s.setExit).programImage = s.programImage := rfl
@[simp] theorem State.setExit_clockMs : (s.setExit).clockMs = s.clockMs := rfl
@[simp] theorem State.setExit_keyLevel : (s.setExit).keyLevel = s.keyLevel := rfl
@[simp] theorem State.setExit_hostPlan : (s.setExit).hostPlan = s.hostPlan := rfl
@[simp] theorem State.setExit_ramDraws : (s.setExit).ramDraws = s.ramDraws := rfl

@[simp] theorem State.setMem_v (m : Memory) : (s.setMem m).v = s.v := rfl
@[simp] theorem State.setMem_pc (m : Memory) : (s.setMem m).pc = s.pc := rfl
@[simp] theorem State.setMem_i (m : Memory) : (s.setMem m).i = s.i := rfl
@[simp] theorem State.setMem_sp (m : Memory) : (s.setMem m).sp = s.sp := rfl
@[simp] theorem State.setMem_dt (m : Memory) : (s.setMem m).dt = s.dt := rfl
@[simp] theorem State.setMem_st (m : Memory) : (s.setMem m).st = s.st := rfl
@[simp] theorem State.setMem_hires (m : Memory) : (s.setMem m).hires = s.hires := rfl
@[simp] theorem State.setMem_exit (m : Memory) : (s.setMem m).exit = s.exit := rfl
@[simp] theorem State.setMem_beep (m : Memory) : (s.setMem m).beep = s.beep := rfl
@[simp] theorem State.setMem_displayUpdated (m : Memory) : (s.setMem m).displayUpdated = s.displayUpdated := rfl
@[simp] theorem State.setMem_executed (m : Memory) : (s.setMem m).executed = s.executed := rfl
@[simp] theorem State.setMem_latch (m : Memory) : (s.setMem m).latch = s.latch := rfl
@[simp] theorem State.setMem_mem (m : Memory) : (s.setMem m).mem = m := rfl
@[simp] theorem State.setMem_fb (m : Memory) : (s.setMem m).fb = s.fb := rfl
@[simp] theorem State.setMem_keys (m : Memory) : (s.setMem m).keys = s.keys := rfl
@[simp] theorem State.setMem_rng (m : Memory) : (s.setMem m).rng = s.rng := rfl
@[simp] theorem State.setMem_cpuCum (m : Memory) : (s.setMem m).cpuCum = s.cpuCum := rfl
@[simp] theorem State.setMem_delayCum (m : Memory) : (s.setMem m).delayCum = s.delayCum := rfl
@[simp] theorem State.setMem_soundCum (m : Memory) : (s.setMem m).soundCum = s.soundCum := rfl
@[simp] theorem State.setMem_refreshCum (m : Memory) : (s.setMem m).refreshCum = s.refreshCum := rfl
@[simp] theorem State.setMem_prevTime (m : Memory) : (s.setMem m).prevTime = s.prevTime := rfl
@[simp] theorem State.setMem_curTime (m : Memory) : (s.setMem m).curTime = s.curTime := rfl
@[simp] theorem State.setMem_elapsed (m : Memory) : (s.setMem m).elapsed = s.elapsed := rfl
@[simp] theorem State.setMem_config (m : Memory) : (s.setMem m).config = s.config := rfl
@[simp] theorem State.setMem_params (m : Memory) : (s.setMem m).params = s.params := rfl
@[simp] theorem State.setMem_programImage (m : Memory) : (s.setMem m).programImage = s.programImage := rfl
@[simp] theorem State.setMem_clockMs (m : Memory) : (s.setMem m).clockMs = s.clockMs := rfl
@[simp] theorem State.setMem_keyLevel (m : Memory) : (s.setMem m).keyLevel = s.keyLevel := rfl
@[simp] theorem State.setMem_hostPlan (m : Memory) : (s.setMem m).hostPlan = s.hostPlan := rfl
@[simp] theorem State.setMem_ramDraws (m : Memory) : (s.setMem m).ramDraws = s.ramDraws := rfl

@[simp] theorem State.setFb_v (f : FrameBuffer) : (s.setFb f).v = s.v := rfl
@[simp] theorem State.setFb_pc (f : FrameBuffer) : (s.setFb f).pc = s.pc := rfl
@[simp] theorem State.setFb_i (f : FrameBuffer) : (s.setFb f).i = s.i := rfl
@[simp] theorem State.setFb_sp (f : FrameBuffer) : (s.setFb f).sp = s.sp := rfl
@[simp] theorem State.setFb_dt (f : FrameBuffer) : (s.setFb f).dt = s.dt := rfl
@[simp] theorem State.setFb_st (f : FrameBuffer) : (s.setFb f).st = s.st := rfl
@[simp] theorem State.setFb_hires (f : FrameBuffer) : (s.setFb f).hires = s.hires := rfl
@[simp] theorem State.setFb_exit (f : FrameBuffer) : (s.setFb f).exit = s.exit := rfl
@[simp] theorem State.setFb_beep (f : FrameBuffer) : (s.setFb f).beep = s.beep := rfl
@[simp] theorem State.setFb_displayUpdated (f : FrameBuffer) : (s.setFb f).displayUpdated = s.displayUpdated := rfl
@[simp] theorem State.setFb_executed (f : FrameBuffer) : (s.setFb f).executed = s.executed := rfl
@[simp] theorem State.setFb_latch (f : FrameBuffer) : (s.setFb f).latch = s.latch := rfl
@[simp] theorem State.setFb_mem (f : FrameBuffer) : (s.setFb f).mem = s.mem := rfl
@[simp] theorem State.setFb_fb (f : FrameBuffer) : (s.setFb f).fb = f := rfl
@[simp] theorem State.setFb_keys (f : FrameBuffer) : (s.setFb f).keys = s.keys := rfl
@[simp] theorem State.setFb_rng (f : FrameBuffer) : (s.setFb f).rng = s.rng := rfl
@[simp] theorem State.setFb_cpuCum (f : FrameBuffer) : (s.setFb f).cpuCum = s.cpuCum := rfl
@[simp] theorem State.setFb_delayCum (f : FrameBuffer) : (s.setFb f).delayCum = s.delayCum := rfl
@[simp] theorem State.setFb_soundCum (f : FrameBuffer) : (s.setFb f).soundCum = s.soundCum := rfl
@[simp] theorem State.setFb_refreshCum (f : FrameBuffer) : (s.setFb f).refreshCum = s.refreshCum := rfl
@[simp] theorem State.setFb_prevTime (f : FrameBuffer) : (s.setFb f).prevTime = s.prevTime := rfl
@[simp] theorem State.setFb_curTime (f : FrameBuffer) : (s.setFb f).curTime = s.curTime := rfl
@[simp] theorem State.setFb_elapsed (f : FrameBuffer) : (s.setFb f).elapsed = s.elapsed := rfl
@[simp] theorem State.setFb_config (f : FrameBuffer) : (s.setFb f).config = s.config := rfl
@[simp] theorem State.setFb_params (f : FrameBuffer) : (s.setFb f).params = s.params := rfl
@[simp] theorem State.setFb_programImage (f : FrameBuffer) : (s.setFb f).programImage = s.programImage := rfl
@[simp] theorem State.setFb_clockMs (f : FrameBuffer) : (s.setFb f).clockMs = s.clockMs := rfl
@[simp] theorem State.setFb_keyLevel (f : FrameBuffer) : (s.setFb f).keyLevel = s.keyLevel := rfl
@[simp] theorem State.setFb_hostPlan (f : FrameBuffer) : (s.setFb f).hostPlan = s.hostPlan := rfl
@[simp] theorem State.setFb_ramDraws (f : FrameBuffer) : (s.setFb f).ramDraws = s.ramDraws := rfl

@[simp] theorem State.setKeys_v (k : Vector KeyState 16) : (s.setKeys k).v = s.v := rfl
@[simp] theorem State.setKeys_pc (k : Vector KeyState 16) : (s.setKeys k).pc = s.pc := rfl
@[simp] theorem State.setKeys_i (k : Vector KeyState 16) : (s.setKeys k).i = s.i := rfl
@[simp] theorem State.setKeys_sp (k : Vector KeyState 16) : (s.setKeys k).sp = s.sp := rfl
@[simp] theorem State.setKeys_dt (k : Vector KeyState 16) : (s.setKeys k).dt = s.dt := rfl
@[simp] theorem State.setKeys_st (k : Vector KeyState 16) : (s.setKeys k).st = s.st := rfl
@[simp] theorem State.setKeys_hires (k : Vector KeyState 16) : (s.setKeys k).hires = s.hires := rfl
@[simp] theorem State.setKeys_exit (k : Vector KeyState 16) : (s.setKeys k).exit = s.exit := rfl
@[simp] theorem State.setKeys_beep (k : Vector KeyState 16) : (s.setKeys k).beep = s.beep := rfl
@[simp] theorem State.setKeys_displayUpdated (k : Vector KeyState 16) : (s.setKeys k).displayUpdated = s.displayUpdated := rfl
@[simp] theorem State.setKeys_executed (k : Vector KeyState 16) : (s.setKeys k).executed = s.executed := rfl
@[simp] theorem State.setKeys_latch (k : Vector KeyState 16) : (s.setKeys k).latch = s.latch := rfl
@[simp] theorem State.setKeys_mem (k : Vector KeyState 16) : (s.setKeys k).mem = s.mem := rfl
@[simp] theorem State.setKeys_fb (k : Vector KeyState 16) : (s.setKeys k).fb = s.fb := rfl
@[simp] theorem State.setKeys_keys (k : Vector KeyState 16) : (s.setKeys k).keys = k := rfl
@[simp] theorem State.setKeys_rng (k : Vector KeyState 16) : (s.setKeys k).rng = s.rng := rfl
@[simp] theorem State.setKeys_cpuCum (k : Vector KeyState 16) : (s.setKeys k).cpuCum = s.cpuCum := rfl
@[simp] theorem State.setKeys_delayCum (k : Vector KeyState 16) : (s.setKeys k).delayCum = s.delayCum := rfl
@[simp] theorem State.setKeys_soundCum (k : Vector KeyState 16) : (s.setKeys k).soundCum = s.soundCum := rfl
@[simp] theorem State.setKeys_refreshCum (k : Vector KeyState 16) : (s.setKeys k).refreshCum = s.refreshCum := rfl
@[simp] theorem State.setKeys_prevTime (k : Vector KeyState 16) : (s.setKeys k).prevTime = s.prevTime := rfl
@[simp] theorem State.setKeys_curTime (k : Vector KeyState 16) : (s.setKeys k).curTime = s.curTime := rfl
@[simp] theorem State.setKeys_elapsed (k : Vector KeyState 16) : (s.setKeys k).elapsed = s.elapsed := rfl
@[simp] theorem State.setKeys_config (k : Vector KeyState 16) : (s.setKeys k).config = s.config := rfl
@[simp] theorem State.setKeys_params (k : Vector KeyState 16) : (s.setKeys k).params = s.params := rfl
@[simp] theorem State.setKeys_programImage (k : Vector KeyState 16) : (s.setKeys k).programImage = s.programImage := rfl
@[simp] theorem State.setKeys_clockMs (k : Vector KeyState 16) : (s.setKeys k).clockMs = s.clockMs := rfl
@[simp] theorem State.setKeys_keyLevel (k : Vector KeyState 16) : (s.setKeys k).keyLevel = s.keyLevel := rfl
@[simp] theorem State.setKeys_hostPlan (k : Vector KeyState 16) : (s.setKeys k).hostPlan = s.hostPlan := rfl
@[simp] theorem State.setKeys_ramDraws (k : Vector KeyState 16) : (s.setKeys k).ramDraws = s.ramDraws := rfl

@[simp] theorem State.setRng_v (r : RngState) : (s.setRng r).v = s.v := rfl
@[simp] theorem State.setRng_pc (r : RngState) : (s.setRng r).pc = s.pc := rfl
@[simp] theorem State.setRng_i (r : RngState) : (s.setRng r).i = s.i := rfl
@[simp] theorem State.setRng_sp (r : RngState) : (s.setRng r).sp = s.sp := rfl
@[simp] theorem State.setRng_dt (r : RngState) : (s.setRng r).dt = s.dt := rfl
@[simp] theorem State.setRng_st (r : RngState) : (s.setRng r).st = s.st := rfl
@[simp] theorem State.setRng_hires (r : RngState) : (s.setRng r).hires = s.hires := rfl
@[simp] theorem State.setRng_exit (r : RngState) : (s.setRng r).exit = s.exit := rfl
@[simp] theorem State.setRng_beep (r : RngState) : (s.setRng r).beep = s.beep := rfl
@[simp] theorem State.setRng_displayUpdated (r : RngState) : (s.setRng r).displayUpdated = s.displayUpdated := rfl
@[simp] theorem State.setRng_executed (r : RngState) : (s.setRng r).executed = s.executed := rfl
@[simp] theorem State.setRng_latch (r : RngState) : (s.setRng r).latch = s.latch := rfl
@[simp] theorem State.setRng_mem (r : RngState) : (s.setRng r).mem = s.mem := rfl
@[simp] theorem State.setRng_fb (r : RngState) : (s.setRng r).fb = s.fb := rfl
@[simp] theorem State.setRng_keys (r : RngState) : (s.setRng r).keys = s.keys := rfl
@[simp] theorem State.setRng_rng (r : RngState) : (s.setRng r).rng = r := rfl
@[simp] theorem State.setRng_cpuCum (r : RngState) : (s.setRng r).cpuCum = s.cpuCum := rfl
@[simp] theorem State.setRng_delayCum (r : RngState) : (s.setRng r).delayCum = s.delayCum := rfl
@[simp] theorem State.setRng_soundCum (r : RngState) : (s.setRng r).soundCum = s.soundCum := rfl
@[simp] theorem State.setRng_refreshCum (r : RngState) : (s.setRng r).refreshCum = s.refreshCum := rfl
@[simp] theorem State.setRng_prevTime (r : RngState) : (s.setRng r).prevTime = s.prevTime := rfl
@[simp] theorem State.setRng_curTime (r : RngState) : (s.setRng r).curTime = s.curTime := rfl
@[simp] theorem State.setRng_elapsed (r : RngState) : (s.setRng r).elapsed = s.elapsed := rfl
@[simp] theorem State.setRng_config (r : RngState) : (s.setRng r).config = s.config := rfl
@[simp] theorem State.setRng_params (r : RngState) : (s.setRng r).params = s.params := rfl
@[simp] theorem State.setRng_programImage (r : RngState) : (s.setRng r).programImage = s.programImage := rfl
@[simp] theorem State.setRng_clockMs (r : RngState) : (s.setRng r).clockMs = s.clockMs := rfl
@[simp] theorem State.setRng_keyLevel (r : RngState) : (s.setRng r).keyLevel = s.keyLevel := rfl
@[simp] theorem State.setRng_hostPlan (r : RngState) : (s.setRng r).hostPlan = s.hostPlan := rfl
@[simp] theorem State.setRng_ramDraws (r : RngState) : (s.setRng r).ramDraws = s.ramDraws := rfl

@[simp] theorem takeFault_v (c : Cause) (pc0 a : Addr) : (takeFault c pc0 a s).v = s.v := rfl
@[simp] theorem takeFault_pc (c : Cause) (pc0 a : Addr) : (takeFault c pc0 a s).pc = pc0 := rfl
@[simp] theorem takeFault_i (c : Cause) (pc0 a : Addr) : (takeFault c pc0 a s).i = s.i := rfl
@[simp] theorem takeFault_sp (c : Cause) (pc0 a : Addr) : (takeFault c pc0 a s).sp = s.sp := rfl
@[simp] theorem takeFault_dt (c : Cause) (pc0 a : Addr) : (takeFault c pc0 a s).dt = s.dt := rfl
@[simp] theorem takeFault_st (c : Cause) (pc0 a : Addr) : (takeFault c pc0 a s).st = s.st := rfl
@[simp] theorem takeFault_hires (c : Cause) (pc0 a : Addr) : (takeFault c pc0 a s).hires = s.hires := rfl
@[simp] theorem takeFault_exit (c : Cause) (pc0 a : Addr) : (takeFault c pc0 a s).exit = s.exit := rfl
@[simp] theorem takeFault_beep (c : Cause) (pc0 a : Addr) : (takeFault c pc0 a s).beep = s.beep := rfl
@[simp] theorem takeFault_displayUpdated (c : Cause) (pc0 a : Addr) : (takeFault c pc0 a s).displayUpdated = s.displayUpdated := rfl
@[simp] theorem takeFault_executed (c : Cause) (pc0 a : Addr) : (takeFault c pc0 a s).executed = s.executed := rfl
@[simp] theorem takeFault_latch (c : Cause) (pc0 a : Addr) : (takeFault c pc0 a s).latch = { cause := some c, pc := pc0, addr := a } := rfl
@[simp] theorem takeFault_mem (c : Cause) (pc0 a : Addr) : (takeFault c pc0 a s).mem = s.mem := rfl
@[simp] theorem takeFault_fb (c : Cause) (pc0 a : Addr) : (takeFault c pc0 a s).fb = s.fb := rfl
@[simp] theorem takeFault_keys (c : Cause) (pc0 a : Addr) : (takeFault c pc0 a s).keys = s.keys := rfl
@[simp] theorem takeFault_rng (c : Cause) (pc0 a : Addr) : (takeFault c pc0 a s).rng = s.rng := rfl
@[simp] theorem takeFault_cpuCum (c : Cause) (pc0 a : Addr) : (takeFault c pc0 a s).cpuCum = s.cpuCum := rfl
@[simp] theorem takeFault_delayCum (c : Cause) (pc0 a : Addr) : (takeFault c pc0 a s).delayCum = s.delayCum := rfl
@[simp] theorem takeFault_soundCum (c : Cause) (pc0 a : Addr) : (takeFault c pc0 a s).soundCum = s.soundCum := rfl
@[simp] theorem takeFault_refreshCum (c : Cause) (pc0 a : Addr) : (takeFault c pc0 a s).refreshCum = s.refreshCum := rfl
@[simp] theorem takeFault_prevTime (c : Cause) (pc0 a : Addr) : (takeFault c pc0 a s).prevTime = s.prevTime := rfl
@[simp] theorem takeFault_curTime (c : Cause) (pc0 a : Addr) : (takeFault c pc0 a s).curTime = s.curTime := rfl
@[simp] theorem takeFault_elapsed (c : Cause) (pc0 a : Addr) : (takeFault c pc0 a s).elapsed = s.elapsed := rfl
@[simp] theorem takeFault_config (c : Cause) (pc0 a : Addr) : (takeFault c pc0 a s).config = s.config := rfl
@[simp] theorem takeFault_params (c : Cause) (pc0 a : Addr) : (takeFault c pc0 a s).params = s.params := rfl
@[simp] theorem takeFault_programImage (c : Cause) (pc0 a : Addr) : (takeFault c pc0 a s).programImage = s.programImage := rfl
@[simp] theorem takeFault_clockMs (c : Cause) (pc0 a : Addr) : (takeFault c pc0 a s).clockMs = s.clockMs := rfl
@[simp] theorem takeFault_keyLevel (c : Cause) (pc0 a : Addr) : (takeFault c pc0 a s).keyLevel = s.keyLevel := rfl
@[simp] theorem takeFault_hostPlan (c : Cause) (pc0 a : Addr) : (takeFault c pc0 a s).hostPlan = s.hostPlan := rfl
@[simp] theorem takeFault_ramDraws (c : Cause) (pc0 a : Addr) : (takeFault c pc0 a s).ramDraws = s.ramDraws := rfl

end Sys2Proof.Machine
end

