-- ==== Sys2Proof/Laws/Ops.lean ====
section
/-! SUPPORT. What each shared operation does, said once: registers, flags, the range check through `I`, the stack,
the keypad. -/

namespace Sys2Proof.Machine

/-- A register after a register write (R20). -/
theorem State.getV_setV (s : State) (x y : Reg) (b : Byte) :
    (s.setV x b).getV y = if y = x then b else s.getV y := by
  simp only [State.getV, State.setV, Vector.getElem_set]
  by_cases h : y = x
  · simp [h]
  · rw [if_neg h, if_neg (fun h' => h (BitVec.eq_of_toNat_eq h'.symm))]

@[simp] theorem State.getV_setV_same (s : State) (x : Reg) (b : Byte) : (s.setV x b).getV x = b := by
  simp [State.getV_setV]

/-- Registers are read from the register file alone. -/
theorem State.getV_congr {s t : State} (h : t.v = s.v) (x : Reg) : t.getV x = s.getV x := by
  simp [State.getV, h]

/-- A register after a flagged result is written: VF holds the flag whatever the destination (R151). -/
theorem State.getV_setFlagged (s : State) (x y : Reg) (r : Flagged) :
    (s.setFlagged x r).getV y = if y = regVF then flagByte r.flag else if y = x then r.value else s.getV y := by
  simp [State.setFlagged, State.getV_setV]

/-- A flagged result changes the register file only. -/
theorem State.setFlagged_eq (s : State) (x : Reg) (r : Flagged) :
    s.setFlagged x r = { s with v := (s.setFlagged x r).v } := rfl

/-- The subtraction's result, reduced modulo 256 (R150). -/
theorem subFlagged_value (a b : Byte) : (subFlagged a b).value = a - b := by
  have ha := a.isLt
  have hb := b.isLt
  apply BitVec.eq_of_toNat_eq
  simp only [subFlagged, BitVec.toNat_ofInt, BitVec.toNat_sub]
  omega

/-- The sum's result, reduced modulo 256 (R150). -/
theorem addFlagged_value (a b : Byte) : (addFlagged a b).value = a + b := by
  apply BitVec.eq_of_toNat_eq
  simp [addFlagged, BitVec.toNat_add]

/-- An access through `I` that stays in memory has its effect (R76). -/
theorem throughI_inRange {k : Nat} {effect : State → State} {s : State} (h : s.i.toNat + k ≤ lastAddr) :
    throughI k effect s = .next (effect s) := if_pos h

/-- An access through `I` that leaves memory raises MemRange and does nothing else (R76, R302). -/
theorem throughI_outOfRange {k : Nat} {effect : State → State} {s : State} (h : lastAddr < s.i.toNat + k) :
    throughI k effect s = .next (takeFault .memRange (s.pc - 2) (firstBeyond s.i) s) := if_neg (by omega)

/-- `firstBeyond` is the maximum the spec writes (R76). -/
theorem firstBeyond_toNat (i : Addr) : (firstBeyond i).toNat = max i.toNat 0x1000 := by
  by_cases h : i.toNat < 0x1000
  · rw [firstBeyond, if_pos h]; simp; omega
  · rw [firstBeyond, if_neg h]; omega

/-- A push with room stores the address, moves `SP`, goes on (R132). -/
theorem push_room {ret : Addr} {k : State → State} {s : State} (h1 : s.sp.toNat + 2 ≤ s.params.stackEnd.toNat)
    (h2 : s.sp.toNat + 1 ≤ lastAddr) :
    push ret k s = .next (k ((s.setMem (s.mem.write2 s.sp.toNat ret)).setSp (s.sp + 2))) := by
  rw [push, if_neg (by omega), if_neg (by omega)]

/-- A push on a full stack raises StackOverflow and does nothing else (R303). -/
theorem push_full {ret : Addr} {k : State → State} {s : State} (h : s.params.stackEnd.toNat < s.sp.toNat + 2) :
    push ret k s = .next (takeFault .stackOverflow (s.pc - 2) s.sp s) := if_pos h

/-- A pop from a stack that holds an entry (R134). -/
theorem popPc_entry {s : State} (h1 : stackBase.toNat + 2 ≤ s.sp.toNat) (h2 : s.sp.toNat ≤ lastAddr + 1) :
    popPc s = .next ((s.setSp (s.sp - 2)).setPc (s.mem.read2 (s.sp.toNat - 2))) := by
  rw [popPc, if_neg (by omega), if_neg (by omega)]

/-- A pop from an empty stack raises StackUnderflow and does nothing else (R304). -/
theorem popPc_empty {s : State} (h : s.sp.toNat < stackBase.toNat + 2) :
    popPc s = .next (takeFault .stackUnderflow (s.pc - 2) s.sp s) := if_pos h

/-- A keypad cell after input sampling (R241). -/
theorem key_sampleKeys (s : State) (k : BitVec 4) :
    (sampleKeys s).key k = sampleCell (s.keyLevel.getLsbD k.toNat) (s.key k) := by
  have h : k.toNat < 16 := k.isLt
  simp [State.key, sampleKeys, h]

/-- A keypad cell after the collapse (R243). -/
theorem key_collapseKeys (s : State) (k : BitVec 4) : (collapseKeys s).key k = collapseCell (s.key k) := by
  simp [State.key, collapseKeys]

/-- No cell is released after the collapse (R243). -/
theorem key_collapseKeys_ne_released (s : State) (k : BitVec 4) : (collapseKeys s).key k ≠ .released := by
  rw [key_collapseKeys, collapseCell]
  split
  · simp
  · assumption

/-- The key Fx0A takes: released, and the lowest such (R248). -/
theorem firstReleased_some {s : State} {k : Nat} (h : firstReleased s = some k) :
    k < 16 ∧ s.keys[k]?.getD .up = .released ∧ ∀ j < k, s.keys[j]?.getD .up ≠ .released := by
  rw [firstReleased, List.find?_eq_some_iff_getElem] at h
  obtain ⟨h1, i, hi, h2, h3⟩ := h
  simp only [List.length_range, List.getElem_range] at hi h2 h3
  subst h2
  exact ⟨hi, by simpa using h1, fun j hj => by simpa using h3 j hj⟩

/-- Fx0A waits when no key is released (R248). -/
theorem firstReleased_none {s : State} : firstReleased s = none ↔ ∀ k : BitVec 4, s.key k ≠ .released := by
  rw [firstReleased, List.find?_eq_none]
  constructor
  · intro h k
    have := h k.toNat (by simpa using k.isLt)
    simpa [State.key, show k.toNat < 16 from k.isLt] using this
  · intro h j hj
    have hj' : j < 16 := by simpa using hj
    have := h (BitVec.ofNat 4 j)
    simp only [State.key, BitVec.toNat_ofNat, show j % 2 ^ 4 = j from Nat.mod_eq_of_lt hj'] at this
    simpa [hj'] using this

/-- What the outcome of a continued result can be. -/
@[simp] theorem onNext_next (s : State) (f : State → Result) : onNext (.next s) f = f s := rfl
@[simp] theorem onNext_fault (r : Fault) (f : State → Result) : onNext (.fault r) f = .fault r := rfl
@[simp] theorem onNext_refused (r : Refusal) (f : State → Result) : onNext (.refused r) f = .refused r := rfl

/-- A continued result is a next state only through a next state. -/
theorem onNext_eq_next {o : Result} {f : State → Result} {t : State} (h : onNext o f = .next t) :
    ∃ u, o = .next u ∧ f u = .next t := by
  cases o with
  | next u => exact ⟨u, rfl, h⟩
  | fault r => simp [onNext] at h
  | refused r => simp [onNext] at h

end Sys2Proof.Machine
end

