-- ==== Sys2Proof/Laws/Exec.lean ====
section
/-! SUPPORT. What executing any instruction can come to, said once over all of them: the inversion every whole-machine
claim goes through. -/

namespace Sys2Proof.Machine

/-- What an executed instruction leaves alone: everything but the registers, mode, `exit`, memory, display and
generator; memory stays in canonical form and `SP` in its region. -/
structure Completed (s t : State) : Prop where
  rest  : t = { s with v := t.v, pc := t.pc, i := t.i, sp := t.sp, dt := t.dt, st := t.st, hires := t.hires,
                       exit := t.exit, mem := t.mem, fb := t.fb, rng := t.rng }
  mem   : s.mem.wf → t.mem.wf
  stack : s.params.wf = true → s.stackOk → t.stackOk

/-- The outcome of an instruction: it completes, or it takes a fault and nothing else, or its stack entry does not
exist, which the stack bounds of R24 exclude. -/
def Outcomes (s : State) (o : Result) : Prop :=
  (∃ t, o = .next t ∧ Completed s t) ∨
  (∃ c a, o = .next (takeFault c (s.pc - 2) a s)) ∨
  (∃ a, o = .fault (.noSuchAddress a) ∧ ¬ (s.params.wf = true ∧ s.stackOk))

/-- An instruction that leaves memory, `SP` and the untouched rest as they were completes. -/
theorem Outcomes.plain {s t : State}
    (h : t = { s with v := t.v, pc := t.pc, i := t.i, dt := t.dt, st := t.st, hires := t.hires,
                      exit := t.exit, fb := t.fb, rng := t.rng }) : Outcomes s (.next t) := by
  refine .inl ⟨t, rfl, ?_, fun hm => ?_, fun _ hs => ?_⟩
  · rw [h]
  · rw [h]; exact hm
  · rw [h]; exact hs

/-- An access through `I` completes when its effect does, and else takes MemRange. -/
theorem Outcomes.throughI {k : Nat} {effect : State → State} {s : State}
    (h : s.i.toNat + k ≤ lastAddr → Completed s (effect s)) : Outcomes s (throughI k effect s) := by
  by_cases hr : s.i.toNat + k ≤ lastAddr
  · exact .inl ⟨_, throughI_inRange hr, h hr⟩
  · exact .inr (.inl ⟨_, _, throughI_outOfRange (by omega)⟩)

theorem Outcomes.skipWhen (b : Bool) (s : State) : Outcomes s (skipWhen b s) := by
  cases b <;> exact .plain rfl

/-- The stack parameter's bounds, as numbers (R9). -/
theorem Params.wf_bounds {p : Params} (h : p.wf = true) :
    0xF0 < p.stackEnd.toNat ∧ p.stackEnd.toNat ≤ 0x1000 ∧ (p.stackEnd.toNat - 0xF0) % 2 = 0 := by
  simp [Params.wf] at h
  omega

theorem Outcomes.push (ret a : Addr) (s : State) : Outcomes s (push ret (fun t => t.setPc a) s) := by
  by_cases h1 : s.params.stackEnd.toNat < s.sp.toNat + 2
  · exact .inr (.inl ⟨_, _, push_full h1⟩)
  · by_cases h2 : lastAddr < s.sp.toNat + 1
    · refine .inr (.inr ⟨s.sp.toNat + 1, by rw [Machine.push, if_neg h1, if_pos h2], fun ⟨hp, _⟩ => ?_⟩)
      have := Params.wf_bounds hp
      simp only [lastAddr] at h2
      omega
    · refine .inl ⟨_, push_room (by omega) (by omega), rfl, fun hm => ?_, fun hp hs => ?_⟩
      · exact Memory.write2_wf hm (by simp only [lastAddr, memSize] at *; omega) _
      · have := Params.wf_bounds hp
        have hsp : (s.sp + 2).toNat = s.sp.toNat + 2 := by
          simp [BitVec.toNat_add]; omega
        simp only [State.stackOk, State.setPc_sp, State.setSp_sp, State.setPc_params, State.setSp_params,
          State.setMem_params, hsp] at hs ⊢
        simp only [stackBase] at hs ⊢
        omega

theorem Outcomes.popPc (s : State) : Outcomes s (popPc s) := by
  by_cases h1 : s.sp.toNat < stackBase.toNat + 2
  · exact .inr (.inl ⟨_, _, popPc_empty h1⟩)
  · by_cases h2 : lastAddr + 1 < s.sp.toNat
    · refine .inr (.inr ⟨s.sp.toNat - 1, by rw [Machine.popPc, if_neg h1, if_pos h2], fun ⟨hp, hs⟩ => ?_⟩)
      have := Params.wf_bounds hp
      simp only [lastAddr] at h2
      simp only [State.stackOk] at hs
      omega
    · refine .inl ⟨_, popPc_entry (by omega) (by omega), rfl, fun hm => hm, fun hp hs => ?_⟩
      simp only [stackBase] at h1
      have hsp : (s.sp - 2).toNat = s.sp.toNat - 2 := by
        have := s.sp.isLt
        simp [BitVec.toNat_sub]; omega
      simp only [State.stackOk, State.setPc_sp, State.setSp_sp, State.setPc_params, State.setSp_params, hsp] at hs ⊢
      simp only [stackBase] at hs ⊢
      omega

/-- Every instruction, in every state: it completes, takes one fault, or meets a stack entry that does not exist. -/
theorem exec_outcomes (i : Instr) (s : State) : Outcomes s (exec i s) := by
  cases i with
  | scd n => exact .plain rfl
  | scu n => exact .plain rfl
  | cls => exact .plain rfl
  | ret => exact .popPc s
  | scr => exact .plain rfl
  | scl => exact .plain rfl
  | exit => exact .plain rfl
  | low => exact .plain rfl
  | high => exact .plain rfl
  | jp nnn => exact .plain rfl
  | call nnn => exact .push _ _ s
  | seImm x kk => exact .skipWhen _ s
  | sneImm x kk => exact .skipWhen _ s
  | seReg x y => exact .skipWhen _ s
  | ldImm x kk => exact .plain rfl
  | addImm x kk => exact .plain rfl
  | ldReg x y => exact .plain rfl
  | orReg x y => exact .plain rfl
  | andReg x y => exact .plain rfl
  | xorReg x y => exact .plain rfl
  | addReg x y => exact .plain rfl
  | subReg x y => exact .plain rfl
  | shr x y => exact .plain rfl
  | subn x y => exact .plain rfl
  | shl x y => exact .plain rfl
  | sneReg x y => exact .skipWhen _ s
  | ldI nnn => exact .plain rfl
  | jpV0 nnn x => exact .plain rfl
  | rnd x kk => exact .plain rfl
  | drw x y n =>
    show Outcomes s (execDrw x y n s)
    exact .throughI fun _ => ⟨rfl, fun hm => hm, fun _ hs => hs⟩
  | skp x => exact .skipWhen _ s
  | sknp x => exact .skipWhen _ s
  | ldVxDT x => exact .plain rfl
  | ldVxK x =>
    show Outcomes s (execLdVxK x s)
    unfold execLdVxK
    split <;> exact .plain rfl
  | ldDTVx x => exact .plain rfl
  | ldSTVx x => exact .plain rfl
  | addI x => exact .plain rfl
  | ldF x => exact .plain rfl
  | ldHF x => exact .plain rfl
  | ldB x =>
    show Outcomes s (execLdB x s)
    refine .throughI fun hr => ⟨rfl, fun hm => Memory.writeBytes_wf hm ?_, fun _ hs => hs⟩
    simp only [lastAddr, memSize] at *
    simp [decimalDigits]; omega
  | storeRegs x =>
    show Outcomes s (execStoreRegs x s)
    refine .throughI fun hr => ⟨rfl, fun hm => Memory.writeBytes_wf hm ?_, fun _ hs => hs⟩
    simp only [lastAddr, memSize] at *
    simp; omega
  | loadRegs x =>
    show Outcomes s (execLoadRegs x s)
    exact .throughI fun _ => ⟨rfl, fun hm => hm, fun _ hs => hs⟩
  | saveFlags x => exact .plain rfl
  | restoreFlags x => exact .plain rfl

/-- The no-op of an unknown word completes (R262). -/
theorem runWord_outcomes (w : BitVec 16) (s : State) : Outcomes s (runWord w s) := by
  unfold runWord
  split
  · exact exec_outcomes _ s
  · exact .plain rfl

end Sys2Proof.Machine
end

