-- ==== Sys2Proof/Laws/Host.lean ====
section
/-! SUPPORT. What the host does between steps keeps a legal state legal. -/

namespace Sys2Proof.Machine

/-- Memory after a reset is in canonical form. -/
theorem memoryAfterReset_wf (s : State) : (memoryAfterReset s).wf := by
  unfold memoryAfterReset
  split
  · exact Memory.ofBytes_wf _
  · exact Memory.nil_wf

/-- A reset gives a legal state, whatever the state before, if the parameters are legal. -/
theorem resetCore_inv {s : State} (h : s.params.wf = true) : (resetCore s).Inv where
  memory := memoryAfterReset_wf s
  params := h
  stack := by
    simp [Params.wf] at h
    simp [State.stackOk, resetCore]
    omega
  ticks := rfl
  sound := rfl
  latch := rfl
  keypad := fun h => by simp [resetCore] at h

/-- Memory changed, everything else as it was: still legal, if memory is. -/
theorem State.Inv.withMem {s : State} (h : s.Inv) {m : Memory} (hm : m.wf) (image : List Byte) :
    State.Inv { s with mem := m, programImage := image } :=
  ⟨hm, h.params, h.stack, h.ticks, h.sound, h.latch, h.keypad⟩

theorem loadFont_inv {s : State} (h : s.Inv) : (loadFont s).Inv :=
  h.withMem (Memory.writeBytes_wf h.memory (by simp [memSize])) s.programImage

theorem loadProgram_inv {s : State} (h : s.Inv) (image : List Byte) : (loadProgram image s).Inv := by
  unfold loadProgram
  split
  · rename_i hfit
    exact h.withMem (Memory.writeBytes_wf h.memory (by simpa [imageFits] using hfit)) image
  · exact h

/-- Construction gives a legal state, whatever the state before, if the parameters are legal. -/
theorem construct_inv {s : State} (cfg : Config) (h : s.params.wf = true) : (construct cfg s).Inv :=
  loadFont_inv (resetCore_inv h)

/-- Every host action keeps a legal state legal. -/
theorem applyAction_inv {s : State} (h : s.Inv) (a : HostAction) : (applyAction s a).Inv := by
  cases a with
  | setInputs c k => exact ⟨h.memory, h.params, h.stack, h.ticks, h.sound, h.latch, h.keypad⟩
  | construct cfg => exact construct_inv cfg h.params
  | reset => exact resetCore_inv h.params
  | softReset => exact loadProgram_inv (loadFont_inv (resetCore_inv h.params)) _
  | loadFont => exact loadFont_inv h
  | loadProgram image => exact loadProgram_inv h image
  | writeByte a b => exact h.withMem (Memory.write_wf h.memory a.isLt b) s.programImage

/-- Host actions in order keep a legal state legal. -/
theorem applyActions_inv {s : State} (h : s.Inv) (actions : List HostAction) : (actions.foldl applyAction s).Inv := by
  induction actions generalizing s with
  | nil => exact h
  | cons a as ih => exact ih (applyAction_inv h a)

/-- The host's whole turn keeps a legal state legal. -/
theorem hostTurn_inv {s : State} (h : s.Inv) : (hostTurn s).Inv := by
  cases hp : s.hostPlan with
  | nil => simpa [hostTurn, hp] using h
  | cons actions rest =>
    have h0 : State.Inv { s with hostPlan := rest } :=
      ⟨h.memory, h.params, h.stack, h.ticks, h.sound, h.latch, h.keypad⟩
    simpa [hostTurn, hp] using applyActions_inv h0 actions

/-- The state after reset is what construction with the default configuration and parameters gives. -/
theorem reset_eq_construct : State.reset = construct Config.default State.reset := by
  have hmem : Memory.writeBytes [] 0 defaultFont.toList = Memory.ofRun 0 defaultFont.toList :=
    Memory.writeBytes_nil (by simp [memSize])
  unfold construct loadFont
  show State.reset = { State.reset with mem := Memory.writeBytes [] 0 defaultFont.toList }
  rw [hmem]
  rfl

end Sys2Proof.Machine
end

