-- ==== Sys2Proof/Laws/PerInstr.lean ====
section
/-! SUPPORT. Words as numbers, fields of packed words, and, one constructor at a time, that decoding an encoded
well-formed instruction gives it back. -/

namespace Sys2Proof

/-- Concatenation as a number (R11). -/
theorem toNat_append_eq {m n : Nat} (a : BitVec m) (b : BitVec n) : (a ++ b).toNat = a.toNat * 2 ^ n + b.toNat := by
  rw [BitVec.toNat_append, ← Nat.shiftLeft_add_eq_or_of_lt b.isLt, Nat.shiftLeft_eq]

theorem toNat_packA (c : BitVec 4) (nnn : BitVec 12) : (packA c nnn).toNat = c.toNat * 4096 + nnn.toNat :=
  toNat_append_eq c nnn

theorem toNat_packK (c x : BitVec 4) (kk : Byte) : (packK c x kk).toNat = c.toNat * 4096 + x.toNat * 256 + kk.toNat := by
  have h : (packK c x kk).toNat = (c ++ x).toNat * 2 ^ 8 + kk.toNat := toNat_append_eq (c ++ x) kk
  rw [h, toNat_append_eq]
  omega

theorem toNat_packR (c x y n : BitVec 4) :
    (packR c x y n).toNat = c.toNat * 4096 + x.toNat * 256 + y.toNat * 16 + n.toNat := by
  have h : (packR c x y n).toNat = (c ++ x ++ y).toNat * 2 ^ 4 + n.toNat := toNat_append_eq (c ++ x ++ y) n
  rw [h, toNat_append_eq, toNat_append_eq]
  omega

theorem toNat_fieldC (w : BitVec 16) : (fieldC w).toNat = w.toNat / 4096 := by
  have := w.isLt
  simp [fieldC, BitVec.extractLsb'_toNat, Nat.shiftRight_eq_div_pow]
  omega
theorem toNat_fieldX (w : BitVec 16) : (fieldX w).toNat = w.toNat / 256 % 16 := by
  simp [fieldX, BitVec.extractLsb'_toNat, Nat.shiftRight_eq_div_pow]
theorem toNat_fieldY (w : BitVec 16) : (fieldY w).toNat = w.toNat / 16 % 16 := by
  simp [fieldY, BitVec.extractLsb'_toNat, Nat.shiftRight_eq_div_pow]
theorem toNat_fieldN (w : BitVec 16) : (fieldN w).toNat = w.toNat % 16 := by
  simp [fieldN, BitVec.extractLsb'_toNat]
theorem toNat_fieldKK (w : BitVec 16) : (fieldKK w).toNat = w.toNat % 256 := by
  simp [fieldKK, BitVec.extractLsb'_toNat]
theorem toNat_fieldNNN (w : BitVec 16) : (fieldNNN w).toNat = w.toNat % 4096 := by
  simp [fieldNNN, BitVec.extractLsb'_toNat]

/-- The fields of a packed word are what was packed (R102, R103). -/
theorem fields_packA (c : BitVec 4) (nnn : BitVec 12) :
    fieldC (packA c nnn) = c ∧ fieldX (packA c nnn) = nnn.extractLsb' 8 4 ∧ fieldNNN (packA c nnn) = nnn := by
  have := c.isLt
  have := nnn.isLt
  refine ⟨BitVec.eq_of_toNat_eq ?_, BitVec.eq_of_toNat_eq ?_, BitVec.eq_of_toNat_eq ?_⟩
  · rw [toNat_fieldC, toNat_packA]; omega
  · rw [toNat_fieldX, toNat_packA]
    simp [BitVec.extractLsb'_toNat, Nat.shiftRight_eq_div_pow]
    omega
  · rw [toNat_fieldNNN, toNat_packA]; omega

theorem fields_packK (c x : BitVec 4) (kk : Byte) :
    fieldC (packK c x kk) = c ∧ fieldX (packK c x kk) = x ∧ fieldKK (packK c x kk) = kk ∧
      fieldY (packK c x kk) = kk.extractLsb' 4 4 := by
  have := c.isLt
  have := x.isLt
  have := kk.isLt
  refine ⟨BitVec.eq_of_toNat_eq ?_, BitVec.eq_of_toNat_eq ?_, BitVec.eq_of_toNat_eq ?_, BitVec.eq_of_toNat_eq ?_⟩
  · rw [toNat_fieldC, toNat_packK]; omega
  · rw [toNat_fieldX, toNat_packK]; omega
  · rw [toNat_fieldKK, toNat_packK]; omega
  · rw [toNat_fieldY, toNat_packK]
    simp [BitVec.extractLsb'_toNat, Nat.shiftRight_eq_div_pow]
    omega

theorem fields_packR (c x y n : BitVec 4) :
    fieldC (packR c x y n) = c ∧ fieldX (packR c x y n) = x ∧ fieldY (packR c x y n) = y ∧
      fieldN (packR c x y n) = n := by
  have := c.isLt
  have := x.isLt
  have := y.isLt
  have := n.isLt
  refine ⟨BitVec.eq_of_toNat_eq ?_, BitVec.eq_of_toNat_eq ?_, BitVec.eq_of_toNat_eq ?_, BitVec.eq_of_toNat_eq ?_⟩
  · rw [toNat_fieldC, toNat_packR]; omega
  · rw [toNat_fieldX, toNat_packR]; omega
  · rw [toNat_fieldY, toNat_packR]; omega
  · rw [toNat_fieldN, toNat_packR]; omega

/-- The fields of a packed word, one by one. -/
theorem fieldC_packA (c : BitVec 4) (nnn : BitVec 12) : fieldC (packA c nnn) = c := (fields_packA c nnn).1
theorem fieldX_packA (c : BitVec 4) (nnn : BitVec 12) : fieldX (packA c nnn) = nnn.extractLsb' 8 4 :=
  (fields_packA c nnn).2.1
theorem fieldNNN_packA (c : BitVec 4) (nnn : BitVec 12) : fieldNNN (packA c nnn) = nnn :=
  (fields_packA c nnn).2.2
theorem fieldC_packK (c x : BitVec 4) (kk : Byte) : fieldC (packK c x kk) = c := (fields_packK c x kk).1
theorem fieldX_packK (c x : BitVec 4) (kk : Byte) : fieldX (packK c x kk) = x := (fields_packK c x kk).2.1
theorem fieldKK_packK (c x : BitVec 4) (kk : Byte) : fieldKK (packK c x kk) = kk :=
  (fields_packK c x kk).2.2.1
theorem fieldY_packK (c x : BitVec 4) (kk : Byte) : fieldY (packK c x kk) = kk.extractLsb' 4 4 :=
  (fields_packK c x kk).2.2.2
theorem fieldC_packR (c x y n : BitVec 4) : fieldC (packR c x y n) = c := (fields_packR c x y n).1
theorem fieldX_packR (c x y n : BitVec 4) : fieldX (packR c x y n) = x := (fields_packR c x y n).2.1
theorem fieldY_packR (c x y n : BitVec 4) : fieldY (packR c x y n) = y := (fields_packR c x y n).2.2.1
theorem fieldN_packR (c x y n : BitVec 4) : fieldN (packR c x y n) = n := (fields_packR c x y n).2.2.2

namespace Laws.Encoding

/-- Decoding the encoding of a well-formed instruction gives it back. -/
def Statement (i : Instr) : Prop := i.wf = true → decodeWord (encode i) = some i

theorem scd (n : BitVec 4) : Statement (.scd n) := fun _ => by
  simp [encode, decodeWord, decodeClass0,
    fieldC_packR, fieldX_packR, fieldY_packR, fieldN_packR]

theorem scu (n : BitVec 4) : Statement (.scu n) := fun _ => by
  simp [encode, decodeWord, decodeClass0,
    fieldC_packR, fieldX_packR, fieldY_packR, fieldN_packR]

theorem cls : Statement .cls := fun _ => by
  simp [encode, decodeWord, decodeClass0,
    fieldC_packK, fieldX_packK, fieldKK_packK, fieldY_packK]

theorem ret : Statement .ret := fun _ => by
  simp [encode, decodeWord, decodeClass0,
    fieldC_packK, fieldX_packK, fieldKK_packK, fieldY_packK]

theorem scr : Statement .scr := fun _ => by
  simp [encode, decodeWord, decodeClass0,
    fieldC_packK, fieldX_packK, fieldKK_packK, fieldY_packK]

theorem scl : Statement .scl := fun _ => by
  simp [encode, decodeWord, decodeClass0,
    fieldC_packK, fieldX_packK, fieldKK_packK, fieldY_packK]

theorem exit : Statement .exit := fun _ => by
  simp [encode, decodeWord, decodeClass0,
    fieldC_packK, fieldX_packK, fieldKK_packK, fieldY_packK]

theorem low : Statement .low := fun _ => by
  simp [encode, decodeWord, decodeClass0,
    fieldC_packK, fieldX_packK, fieldKK_packK, fieldY_packK]

theorem high : Statement .high := fun _ => by
  simp [encode, decodeWord, decodeClass0,
    fieldC_packK, fieldX_packK, fieldKK_packK, fieldY_packK]

theorem jp (nnn : BitVec 12) : Statement (.jp nnn) := fun _ => by
  simp [encode, decodeWord,
    fieldC_packA, fieldNNN_packA]

theorem call (nnn : BitVec 12) : Statement (.call nnn) := fun _ => by
  simp [encode, decodeWord,
    fieldC_packA, fieldNNN_packA]

theorem seImm (x : Reg) (kk : Byte) : Statement (.seImm x kk) := fun _ => by
  simp [encode, decodeWord,
    fieldC_packK, fieldX_packK, fieldKK_packK]

theorem sneImm (x : Reg) (kk : Byte) : Statement (.sneImm x kk) := fun _ => by
  simp [encode, decodeWord,
    fieldC_packK, fieldX_packK, fieldKK_packK]

theorem seReg (x y : Reg) : Statement (.seReg x y) := fun _ => by
  simp [encode, decodeWord,
    fieldC_packR, fieldX_packR, fieldY_packR, fieldN_packR]

theorem ldImm (x : Reg) (kk : Byte) : Statement (.ldImm x kk) := fun _ => by
  simp [encode, decodeWord,
    fieldC_packK, fieldX_packK, fieldKK_packK]

theorem addImm (x : Reg) (kk : Byte) : Statement (.addImm x kk) := fun _ => by
  simp [encode, decodeWord,
    fieldC_packK, fieldX_packK, fieldKK_packK]

theorem ldReg (x y : Reg) : Statement (.ldReg x y) := fun _ => by
  simp [encode, decodeWord, decodeClass8,
    fieldC_packR, fieldX_packR, fieldY_packR, fieldN_packR]

theorem orReg (x y : Reg) : Statement (.orReg x y) := fun _ => by
  simp [encode, decodeWord, decodeClass8,
    fieldC_packR, fieldX_packR, fieldY_packR, fieldN_packR]

theorem andReg (x y : Reg) : Statement (.andReg x y) := fun _ => by
  simp [encode, decodeWord, decodeClass8,
    fieldC_packR, fieldX_packR, fieldY_packR, fieldN_packR]

theorem xorReg (x y : Reg) : Statement (.xorReg x y) := fun _ => by
  simp [encode, decodeWord, decodeClass8,
    fieldC_packR, fieldX_packR, fieldY_packR, fieldN_packR]

theorem addReg (x y : Reg) : Statement (.addReg x y) := fun _ => by
  simp [encode, decodeWord, decodeClass8,
    fieldC_packR, fieldX_packR, fieldY_packR, fieldN_packR]

theorem subReg (x y : Reg) : Statement (.subReg x y) := fun _ => by
  simp [encode, decodeWord, decodeClass8,
    fieldC_packR, fieldX_packR, fieldY_packR, fieldN_packR]

theorem shr (x y : Reg) : Statement (.shr x y) := fun _ => by
  simp [encode, decodeWord, decodeClass8,
    fieldC_packR, fieldX_packR, fieldY_packR, fieldN_packR]

theorem subn (x y : Reg) : Statement (.subn x y) := fun _ => by
  simp [encode, decodeWord, decodeClass8,
    fieldC_packR, fieldX_packR, fieldY_packR, fieldN_packR]

theorem shl (x y : Reg) : Statement (.shl x y) := fun _ => by
  simp [encode, decodeWord, decodeClass8,
    fieldC_packR, fieldX_packR, fieldY_packR, fieldN_packR]

theorem sneReg (x y : Reg) : Statement (.sneReg x y) := fun _ => by
  simp [encode, decodeWord,
    fieldC_packR, fieldX_packR, fieldY_packR, fieldN_packR]

theorem ldI (nnn : BitVec 12) : Statement (.ldI nnn) := fun _ => by
  simp [encode, decodeWord,
    fieldC_packA, fieldNNN_packA]

theorem jpV0 (nnn : BitVec 12) (x : Reg) : Statement (.jpV0 nnn x) := fun h => by
  have hx : x = nnn.extractLsb' 8 4 := by simpa [Instr.wf] using h
  simp [encode, decodeWord, hx,
    fieldC_packA, fieldX_packA, fieldNNN_packA]

theorem rnd (x : Reg) (kk : Byte) : Statement (.rnd x kk) := fun _ => by
  simp [encode, decodeWord,
    fieldC_packK, fieldX_packK, fieldKK_packK]

theorem drw (x y : Reg) (n : BitVec 4) : Statement (.drw x y n) := fun _ => by
  simp [encode, decodeWord,
    fieldC_packR, fieldX_packR, fieldY_packR, fieldN_packR]

theorem skp (x : Reg) : Statement (.skp x) := fun _ => by
  simp [encode, decodeWord, decodeClassE,
    fieldC_packK, fieldX_packK, fieldKK_packK]

theorem sknp (x : Reg) : Statement (.sknp x) := fun _ => by
  simp [encode, decodeWord, decodeClassE,
    fieldC_packK, fieldX_packK, fieldKK_packK]

theorem ldVxDT (x : Reg) : Statement (.ldVxDT x) := fun _ => by
  simp [encode, decodeWord, decodeClassF,
    fieldC_packK, fieldX_packK, fieldKK_packK]

theorem ldVxK (x : Reg) : Statement (.ldVxK x) := fun _ => by
  simp [encode, decodeWord, decodeClassF,
    fieldC_packK, fieldX_packK, fieldKK_packK]

theorem ldDTVx (x : Reg) : Statement (.ldDTVx x) := fun _ => by
  simp [encode, decodeWord, decodeClassF,
    fieldC_packK, fieldX_packK, fieldKK_packK]

theorem ldSTVx (x : Reg) : Statement (.ldSTVx x) := fun _ => by
  simp [encode, decodeWord, decodeClassF,
    fieldC_packK, fieldX_packK, fieldKK_packK]

theorem addI (x : Reg) : Statement (.addI x) := fun _ => by
  simp [encode, decodeWord, decodeClassF,
    fieldC_packK, fieldX_packK, fieldKK_packK]

theorem ldF (x : Reg) : Statement (.ldF x) := fun _ => by
  simp [encode, decodeWord, decodeClassF,
    fieldC_packK, fieldX_packK, fieldKK_packK]

theorem ldHF (x : Reg) : Statement (.ldHF x) := fun _ => by
  simp [encode, decodeWord, decodeClassF,
    fieldC_packK, fieldX_packK, fieldKK_packK]

theorem ldB (x : Reg) : Statement (.ldB x) := fun _ => by
  simp [encode, decodeWord, decodeClassF,
    fieldC_packK, fieldX_packK, fieldKK_packK]

theorem storeRegs (x : Reg) : Statement (.storeRegs x) := fun _ => by
  simp [encode, decodeWord, decodeClassF,
    fieldC_packK, fieldX_packK, fieldKK_packK]

theorem loadRegs (x : Reg) : Statement (.loadRegs x) := fun _ => by
  simp [encode, decodeWord, decodeClassF,
    fieldC_packK, fieldX_packK, fieldKK_packK]

theorem saveFlags (x : Reg) : Statement (.saveFlags x) := fun _ => by
  simp [encode, decodeWord, decodeClassF,
    fieldC_packK, fieldX_packK, fieldKK_packK]

theorem restoreFlags (x : Reg) : Statement (.restoreFlags x) := fun _ => by
  simp [encode, decodeWord, decodeClassF,
    fieldC_packK, fieldX_packK, fieldKK_packK]

end Laws.Encoding

end Sys2Proof
end

