-- ==== Sys2Proof/Laws/Step.lean ====
section
/-! SUPPORT. The executor, the parts of the step and the host's turn: what each can come to, said once. -/

namespace Sys2Proof.Machine

/-- Moving past the instruction and back is where one started. -/
theorem pc_add_sub (a : Addr) : a + 2 - 2 = a := by
  exact BitVec.add_sub_cancel a 2

/-- `Execute()` from a state with no fault latched (R14, R270, R306): it completes, with the keypad collapsed; or it
takes one fault and nothing else of the state changes; or it meets a stack entry that does not exist. -/
theorem execute_outcomes {s : State} (hf : s.faulted = false) :
    (∃ t, execute s = .next (collapseKeys t) ∧ Completed (advancePc s) t ∧ t.faulted = false ∧
      runWord (fetchWord s) (advancePc s) = .next t) ∨
    (∃ c a, execute s = .next (takeFault c s.pc a s)) ∨
    (∃ a, execute s = .fault (.noSuchAddress a) ∧ ¬ (s.params.wf = true ∧ s.stackOk)) := by
  by_cases hpc : lastAddr < s.pc.toNat + 1
  · exact .inr (.inl ⟨_, _, if_pos hpc⟩)
  · have he : execute s = onNext (runWord (fetchWord s) (advancePc s)) fun t =>
        .next (if t.faulted then t else collapseKeys t) := if_neg hpc
    rcases runWord_outcomes (fetchWord s) (advancePc s) with ⟨t, ht, hc⟩ | ⟨c, a, ht⟩ | ⟨a, ht, hn⟩
    · have hft : t.faulted = false := by rw [hc.rest]; exact hf
      exact .inl ⟨t, by rw [he, ht, onNext_next, hft]; rfl, hc, hft, ht⟩
    · refine .inr (.inl ⟨c, a, ?_⟩)
      rw [he, ht, onNext_next]
      show Host.Outcome.next (takeFault c (s.pc + 2 - 2) a (advancePc s)) = _
      rw [pc_add_sub]
      rfl
    · exact .inr (.inr ⟨a, by rw [he, ht, onNext_fault], hn⟩)

/-- A step in which the executor is not due runs no instruction (R282, R283). -/
theorem executorPart_idle {s : State} (h : executorDue (accumulateCpu s) = false) :
    executorPart s = .next { accumulateCpu s with executed := false } := by
  simp [executorPart, h]

/-- A step in which the executor is due clears the CPU counter and runs one instruction (R282, R283). -/
theorem executorPart_due {s : State} (h : executorDue (accumulateCpu s) = true) :
    executorPart s = onNext (execute { accumulateCpu s with cpuCum := 0 }) fun t =>
      .next { t with executed := !t.faulted } := by
  simp [executorPart, h]

/-- The executor is due only while no fault is latched (R307). -/
theorem executorDue_not_faulted {s : State} (h : executorDue s = true) : s.faulted = false := by
  simp [executorDue] at h
  exact h.1

/-- The timing parts change timers, their counters and the two output flags they own, and nothing else. -/
theorem timingParts_rest (s : State) :
    timingParts s = { s with dt := (timingParts s).dt, st := (timingParts s).st, beep := (timingParts s).beep,
                             displayUpdated := (timingParts s).displayUpdated, delayCum := (timingParts s).delayCum,
                             soundCum := (timingParts s).soundCum, refreshCum := (timingParts s).refreshCum } := by
  have hr : ∀ s : State, refreshPart s =
      { s with displayUpdated := (refreshPart s).displayUpdated, refreshCum := (refreshPart s).refreshCum } :=
    fun s => by unfold refreshPart; dsimp only; split <;> rfl
  have hs : ∀ s : State, soundPart s = { s with st := (soundPart s).st, soundCum := (soundPart s).soundCum } :=
    fun s => by unfold soundPart; dsimp only; split <;> rfl
  have hd : ∀ s : State, delayPart s = { s with dt := (delayPart s).dt, delayCum := (delayPart s).delayCum } :=
    fun s => by unfold delayPart; dsimp only; split <;> rfl
  unfold timingParts
  rw [hr, beepPart, hs, hd]

/-- `beep` after the timing parts (R286). -/
theorem timingParts_beep (s : State) : (timingParts s).beep = ((timingParts s).st != 0) := by
  unfold timingParts refreshPart beepPart
  dsimp only
  split <;> rfl

/-- Equal delay and sound counters stay equal (R285). -/
theorem timingParts_ticks {s : State} (h : s.soundCum = s.delayCum) :
    (timingParts s).soundCum = (timingParts s).delayCum := by
  have hr : ∀ s : State, (refreshPart s).soundCum = s.soundCum ∧ (refreshPart s).delayCum = s.delayCum :=
    fun s => by unfold refreshPart; dsimp only; split <;> exact ⟨rfl, rfl⟩
  have hs : (soundPart (delayPart s)).soundCum = (soundPart (delayPart s)).delayCum := by
    unfold soundPart delayPart
    dsimp only
    by_cases hd : due s.config.timerFreq (s.delayCum + s.elapsed) (timerMax s.config) = true
    · simp [hd, h]
    · simp [hd, h]
  unfold timingParts
  rw [(hr _).1, (hr _).2]
  exact hs

/-- Sampling and part (a) change the keypad cells and the three time registers, and nothing else. -/
theorem sampled_rest (s : State) :
    sampled s = { s with keys := (sampled s).keys, prevTime := s.curTime, curTime := s.clockMs,
                         elapsed := s.clockMs - s.curTime } := rfl

end Sys2Proof.Machine
end

