-- ==== Sys2Proof/Tests/Slice0.lean ====
section
/-! SUPPORT. Tests: the WellFormed smoke tests, decoding of words written out from the spec, one-instruction vectors of
95_test_vectors.md (named in each comment), and a witness for the hypotheses of every statement. -/

namespace Sys2Proof.Tests
set_option Elab.async false
open Sys2Proof.Machine

/-! Well-formedness refuses ill-formed terms. -/

theorem test_wf_jpV0_wrong_register : (Instr.jpV0 0x210 3).wf = false := by decide
theorem test_wf_jpV0_top_digit : (Instr.jpV0 0x210 2).wf = true := by decide
theorem test_wf_stack_end_at_base : Params.wf { Params.default with stackEnd := 0x00F0 } = false := by decide
theorem test_wf_stack_end_above_memory : Params.wf { Params.default with stackEnd := 0x1002 } = false := by decide
theorem test_wf_stack_end_odd : Params.wf { Params.default with stackEnd := 0x0201 } = false := by decide
theorem test_wf_stack_end_default : Params.default.wf = true := by decide
theorem test_wf_stack_end_top : Params.wf { Params.default with stackEnd := 0x1000 } = true := by decide

/-! Decoding: each word written out from the pattern of rules R106 to R109. -/

theorem test_decode_scd : decodeWord 0x00C3 = some (.scd 3) := by decide
theorem test_decode_scu : decodeWord 0x00D4 = some (.scu 4) := by decide
theorem test_decode_cls : decodeWord 0x00E0 = some .cls := by decide
theorem test_decode_ret : decodeWord 0x00EE = some .ret := by decide
theorem test_decode_scr : decodeWord 0x00FB = some .scr := by decide
theorem test_decode_scl : decodeWord 0x00FC = some .scl := by decide
theorem test_decode_exit : decodeWord 0x00FD = some .exit := by decide
theorem test_decode_low : decodeWord 0x00FE = some .low := by decide
theorem test_decode_high : decodeWord 0x00FF = some .high := by decide
theorem test_decode_jp : decodeWord 0x1ABC = some (.jp 0xABC) := by decide
theorem test_decode_call : decodeWord 0x2210 = some (.call 0x210) := by decide
theorem test_decode_seImm : decodeWord 0x3100 = some (.seImm 1 0x00) := by decide
theorem test_decode_sneImm : decodeWord 0x432A = some (.sneImm 3 0x2A) := by decide
theorem test_decode_seReg : decodeWord 0x5120 = some (.seReg 1 2) := by decide
theorem test_decode_ldImm : decodeWord 0x612A = some (.ldImm 1 0x2A) := by decide
theorem test_decode_addImm : decodeWord 0x71FF = some (.addImm 1 0xFF) := by decide
theorem test_decode_ldReg : decodeWord 0x8120 = some (.ldReg 1 2) := by decide
theorem test_decode_orReg : decodeWord 0x8121 = some (.orReg 1 2) := by decide
theorem test_decode_andReg : decodeWord 0x8122 = some (.andReg 1 2) := by decide
theorem test_decode_xorReg : decodeWord 0x8123 = some (.xorReg 1 2) := by decide
theorem test_decode_addReg : decodeWord 0x8F14 = some (.addReg 15 1) := by decide
theorem test_decode_subReg : decodeWord 0x8125 = some (.subReg 1 2) := by decide
theorem test_decode_shr : decodeWord 0x8126 = some (.shr 1 2) := by decide
theorem test_decode_subn : decodeWord 0x8127 = some (.subn 1 2) := by decide
theorem test_decode_shl : decodeWord 0x812E = some (.shl 1 2) := by decide
theorem test_decode_sneReg : decodeWord 0x9120 = some (.sneReg 1 2) := by decide
theorem test_decode_ldI : decodeWord 0xA300 = some (.ldI 0x300) := by decide
theorem test_decode_jpV0 : decodeWord 0xB210 = some (.jpV0 0x210 2) := by decide
theorem test_decode_rnd : decodeWord 0xC30F = some (.rnd 3 0x0F) := by decide
theorem test_decode_drw : decodeWord 0xD012 = some (.drw 0 1 2) := by decide
theorem test_decode_skp : decodeWord 0xE29E = some (.skp 2) := by decide
theorem test_decode_sknp : decodeWord 0xE2A1 = some (.sknp 2) := by decide
theorem test_decode_ldVxDT : decodeWord 0xF407 = some (.ldVxDT 4) := by decide
theorem test_decode_ldVxK : decodeWord 0xF30A = some (.ldVxK 3) := by decide
theorem test_decode_ldDTVx : decodeWord 0xF415 = some (.ldDTVx 4) := by decide
theorem test_decode_ldSTVx : decodeWord 0xF418 = some (.ldSTVx 4) := by decide
theorem test_decode_addI : decodeWord 0xF21E = some (.addI 2) := by decide
theorem test_decode_ldF : decodeWord 0xF029 = some (.ldF 0) := by decide
theorem test_decode_ldHF : decodeWord 0xF030 = some (.ldHF 0) := by decide
theorem test_decode_ldB : decodeWord 0xF033 = some (.ldB 0) := by decide
theorem test_decode_storeRegs : decodeWord 0xF255 = some (.storeRegs 2) := by decide
theorem test_decode_loadRegs : decodeWord 0xF265 = some (.loadRegs 2) := by decide
theorem test_decode_saveFlags : decodeWord 0xF375 = some (.saveFlags 3) := by decide
theorem test_decode_restoreFlags : decodeWord 0xF385 = some (.restoreFlags 3) := by decide
/-- F6, F8, F9: malformed and unknown words. -/
theorem test_decode_unknown :
    [0x0000, 0x01E0, 0x00E1, 0x00B4, 0x0123, 0x5121, 0x8128, 0x812F, 0x9121, 0xE200, 0xE29F, 0xF2FF, 0xF000,
      0xF23A].map decodeWord = List.replicate 14 none := by decide
theorem test_decode_truncated : decode [0x61] = .error .truncated := by decide
theorem test_decode_bytes : decode [0x60, 0x2A, 0xFF] = .ok (.ldImm 0 0x2A, [0xFF]) := by decide
/-- More bits than an instruction has are refused; the first word's bits number from 0. -/
theorem test_decode_table_word : decodeTableWord 16 0x1ABC = some (.jp 0xABC) ∧ decodeTableWord 24 0x1ABC = none := by
  decide

/-! Helpers: a small state, one instruction run at an address, bytes read back. -/

/-- The state of the test conventions with empty memory. -/
def bare : State := { State.reset with mem := [] }

/-- Registers set. -/
def withV (regs : List (Reg × Byte)) (s : State) : State := regs.foldl (fun t r => t.setV r.1 r.2) s

/-- Bytes placed from an address upward. -/
def withBytes (a : Nat) (bs : List Byte) (s : State) : State := s.setMem (s.mem.writeBytes a bs)

/-- One call of the executor with the word at `pc0`. -/
def run (pc0 : Addr) (w : BitVec 16) (s : State) : Result :=
  execute { s with pc := pc0, mem := s.mem.write2 pc0.toNat w }

/-- A view of a next state, if there is one. -/
def seen {α : Type} (r : Result) (f : State → α) : Option α :=
  match r with
  | .next t => some (f t)
  | _ => none

/-- `n` bytes of memory. -/
def bytesAt (s : State) (a n : Nat) : List Byte := (List.range n).map fun k => s.mem.read (a + k)

/-- The non-zero display bytes, with their indices; rows of zeros are passed over first. -/
def lit (s : State) : List (Nat × Byte) :=
  ((List.range 64).filter fun r => s.fb.row r != 0).flatMap fun r =>
    ((List.range 16).map fun k => (16 * r + k, s.fb.byte (16 * r + k))).filter fun e => e.2 != 0

/-- Quirks changed. -/
def quirks (f : Quirks → Quirks) (s : State) : State :=
  { s with config := { s.config with quirks := f s.config.quirks } }

/-- The keypad cells `ks` hold `v`. -/
def withKeys (ks : List (Fin 16)) (v : KeyState) (s : State) : State :=
  s.setKeys (ks.foldl (fun t k => t.set k.val v) s.keys)

/-! Control transfer. -/

/-- C1 -/
theorem test_jp : seen (run 0x200 0x1ABC bare) (·.pc) = some 0x0ABC := by decide +kernel
/-- C4 -/
theorem test_call : seen (run 0x204 0x2210 bare) (fun t => (bytesAt t 0xF0 2, t.sp, t.pc)) =
    some ([0x02, 0x06], 0x0F2, 0x0210) := by decide +kernel
/-- C6 -/
theorem test_call_overflow :
    seen (run 0x300 0x2400 { bare with sp := 0x200 }) (fun t => (t.latch.code, t.latch.pc, t.latch.addr, t.sp, t.pc)) =
      some (3, 0x0300, 0x0200, 0x200, 0x0300) := by decide +kernel
/-- C10 -/
theorem test_ret : seen (run 0x212 0x00EE (withBytes 0xF0 [0x12, 0x34] { bare with sp := 0x0F2 }))
    (fun t => (t.sp, t.pc)) = some (0x0F0, 0x1234) := by decide +kernel
/-- C9 -/
theorem test_ret_underflow :
    seen (run 0x212 0x00EE bare) (fun t => (t.latch.code, t.latch.pc, t.latch.addr, t.sp, t.pc)) =
      some (4, 0x0212, 0x00F0, 0x0F0, 0x0212) := by decide +kernel
/-- C13 -/
theorem test_jpV0 : seen (run 0x200 0xBFFF (withV [(0, 0xFF)] bare)) (·.pc) = some 0x10FE := by decide +kernel
/-- C12 -/
theorem test_jpV0_quirk : seen (run 0x200 0xB210 (quirks (fun q => { q with jump := true })
    (withV [(0, 0x04), (2, 0x10)] bare))) (·.pc) = some 0x0220 := by decide +kernel
/-- C15 -/
theorem test_seImm : seen (run 0x208 0x3100 bare) (·.pc) = some 0x020C := by decide +kernel
/-- C18 -/
theorem test_sneImm : seen (run 0x300 0x432A (withV [(3, 0x2B)] bare)) (·.pc) = some 0x0304 := by decide +kernel
/-- C19 -/
theorem test_seReg : seen (run 0x220 0x5120 (withV [(1, 7), (2, 7)] bare)) (·.pc) = some 0x0224 := by decide +kernel
/-- C21 -/
theorem test_sneReg : seen (run 0x220 0x9120 (withV [(1, 7), (2, 8)] bare)) (·.pc) = some 0x0224 := by decide +kernel

/-! Load, arithmetic, logic, shift, random. -/

/-- A1 -/
theorem test_ldImm : seen (run 0x200 0x6FAB bare) (fun t => (t.getV 15, t.pc)) = some (0xAB, 0x0202) := by
  decide +kernel
/-- A2 -/
theorem test_addImm_no_flag : seen (run 0x200 0x7101 (withV [(1, 0xFF), (15, 0x77)] bare))
    (fun t => (t.getV 1, t.getV 15)) = some (0x00, 0x77) := by decide +kernel
/-- A5 -/
theorem test_ldReg : seen (run 0x200 0x8120 (withV [(2, 0x33)] bare)) (·.getV 1) = some 0x33 := by decide +kernel
/-- A6 -/
theorem test_orReg : seen (run 0x200 0x8121 (withV [(1, 0x0F), (2, 0xF0), (15, 0x55)] bare))
    (fun t => (t.getV 1, t.getV 15)) = some (0xFF, 0x55) := by decide +kernel
/-- A7 -/
theorem test_andReg : seen (run 0x200 0x8122 (withV [(1, 0x3C), (2, 0x0F), (15, 0x55)] bare))
    (fun t => (t.getV 1, t.getV 15)) = some (0x0C, 0x55) := by decide +kernel
/-- A8 -/
theorem test_xorReg : seen (run 0x200 0x8123 (withV [(1, 0xFF), (2, 0x0F), (15, 0x55)] bare))
    (fun t => (t.getV 1, t.getV 15)) = some (0xF0, 0x55) := by decide +kernel
/-- A14 -/
theorem test_addReg_vf_source : seen (run 0x200 0x80F4 (withV [(0, 1), (15, 255)] bare))
    (fun t => (t.getV 0, t.getV 15)) = some (0, 1) := by decide +kernel
/-- A13 -/
theorem test_addReg_vf_destination : seen (run 0x200 0x8F14 (withV [(15, 3), (1, 4)] bare)) (·.getV 15) = some 0 := by
  decide +kernel
/-- A17 -/
theorem test_subReg_borrow : seen (run 0x200 0x8125 (withV [(1, 3), (2, 10)] bare))
    (fun t => (t.getV 1, t.getV 15)) = some (249, 0) := by decide +kernel
/-- A18 -/
theorem test_subReg_equal : seen (run 0x200 0x8125 (withV [(1, 5), (2, 5)] bare))
    (fun t => (t.getV 1, t.getV 15)) = some (0, 1) := by decide +kernel
/-- A21 -/
theorem test_subn : seen (run 0x200 0x8127 (withV [(1, 3), (2, 10)] bare))
    (fun t => (t.getV 1, t.getV 15)) = some (7, 1) := by decide +kernel
/-- A24 -/
theorem test_shr : seen (run 0x200 0x8126 (withV [(2, 0x81)] bare))
    (fun t => (t.getV 1, t.getV 2, t.getV 15)) = some (0x40, 0x81, 1) := by decide +kernel
/-- A25 -/
theorem test_shr_quirk : seen (run 0x200 0x8126 (quirks (fun q => { q with shift := true })
    (withV [(1, 0x01), (2, 0xFE)] bare))) (fun t => (t.getV 1, t.getV 15)) = some (0x00, 1) := by decide +kernel
/-- A29 -/
theorem test_shl : seen (run 0x200 0x812E (withV [(2, 0x81)] bare))
    (fun t => (t.getV 1, t.getV 15)) = some (0x02, 1) := by decide +kernel
/-- A30 -/
theorem test_shl_quirk : seen (run 0x200 0x812E (quirks (fun q => { q with shift := true })
    (withV [(1, 0x40), (2, 0xFF)] bare))) (fun t => (t.getV 1, t.getV 15)) = some (0x80, 0) := by decide +kernel
/-- A33: one draw is made, whatever the generator is, and the mask 0 gives 0. -/
theorem test_rnd_masked : ∃ t : State, exec (.rnd 3 0x00) bare = .next t ∧ t.rng = (Config.rngNext bare.rng).1 ∧
    t.getV 3 = 0 := by
  refine ⟨_, rfl, rfl, ?_⟩
  show (State.setV _ 3 _).getV 3 = 0
  simp [State.getV, State.setV]

/-! Index register and memory. -/

/-- M1 -/
theorem test_ldI : seen (run 0x200 0xAFFF bare) (·.i) = some 0x0FFF := by decide +kernel
/-- M3 -/
theorem test_addI : seen (run 0x200 0xF01E (withV [(0, 1), (15, 0x55)] { bare with i := 0x0FFF }))
    (fun t => (t.i, t.getV 15, t.faulted)) = some (0x1000, 0x55, false) := by decide +kernel
/-- M7 -/
theorem test_ldF : seen (run 0x200 0xF029 (withV [(0, 0xFF)] bare)) (·.i) = some 0x04FB := by decide +kernel
/-- M10 -/
theorem test_ldHF : seen (run 0x200 0xF030 (withV [(0, 0xFF)] bare)) (·.i) = some 0x0A46 := by decide +kernel
/-- M13 -/
theorem test_ldB_top : seen (run 0x200 0xF033 (withV [(0, 255)] { bare with i := 0x0FFD }))
    (fun t => (bytesAt t 0xFFD 3, t.i)) = some ([2, 5, 5], 0x0FFD) := by decide +kernel
/-- M14 -/
theorem test_ldB_out_of_range : seen (run 0x200 0xF033 (withV [(0, 255)] { bare with i := 0x0FFE }))
    (fun t => (t.latch.code, t.latch.pc, t.latch.addr, t.pc, bytesAt t 0xFFE 2)) =
      some (2, 0x0200, 0x1000, 0x0200, [0, 0]) := by decide +kernel
/-- M16 -/
theorem test_storeRegs : seen (run 0x200 0xF255 (withV [(0, 2), (1, 5), (2, 4)] { bare with i := 0x300 }))
    (fun t => (bytesAt t 0x300 4, t.i)) = some ([2, 5, 4, 0], 0x0303) := by decide +kernel
/-- M17 -/
theorem test_storeRegs_quirk : seen (run 0x200 0xF255 (quirks (fun q => { q with loadStore := true })
    (withV [(0, 2), (1, 5), (2, 4)] { bare with i := 0x300 }))) (fun t => (bytesAt t 0x300 3, t.i)) =
      some ([2, 5, 4], 0x0300) := by decide +kernel
/-- M22 -/
theorem test_loadRegs : seen (run 0x200 0xF265 (withBytes 0x300 [2, 5, 4] (withV [(3, 0x99)] { bare with i := 0x300 })))
    (fun t => (t.getV 0, t.getV 1, t.getV 2, t.getV 3, t.i)) = some (2, 5, 4, 0x99, 0x0303) := by decide +kernel
/-- M24 -/
theorem test_loadRegs_out_of_range : seen (run 0x200 0xF165 { bare with i := 0x0FFF })
    (fun t => (t.latch.code, t.latch.addr, t.getV 0, t.i)) = some (2, 0x1000, 0, 0x0FFF) := by decide +kernel
/-- M26 -/
theorem test_saveFlags : seen (run 0x200 0xF375 (withV [(0, 1), (3, 4)] bare))
    (fun t => (t.getV 0, t.getV 3, t.pc)) = some (1, 4, 0x0202) := by decide +kernel
/-- M27 -/
theorem test_restoreFlags : seen (run 0x200 0xF385 (withV [(0, 1), (3, 4)] bare))
    (fun t => (t.getV 0, t.getV 3, t.pc)) = some (1, 4, 0x0202) := by decide +kernel

/-! Display. -/

/-- All pixels set. -/
def full : FrameBuffer := Vector.replicate 64 (BitVec.allOnes 128)

/-- D7: the origin is reduced, and a lo-res pixel is a 2 x 2 block. -/
theorem test_drw_lores : seen (run 0x200 0xD011 (withBytes 0x300 [0x80] (withV [(0, 64), (1, 32)] { bare with i := 0x300 })))
    (fun t => (lit t, t.getV 15)) = some ([(0, 0xC0), (16, 0xC0)], 0) := by decide +kernel
/-- D11: bottom rows are clipped and counted. -/
theorem test_drw_bottom_rows : seen (run 0x200 0xD018 (quirks (fun q => { q with clip := true, bottomCollision := true, collisionCount := true }) (withBytes 0x300 (List.replicate 8 0x80) (withV [(1, 60)] { bare with i := 0x300, hires := true }))))
    (fun t => (lit t, t.getV 15)) = some ([(960, 0x80), (976, 0x80), (992, 0x80), (1008, 0x80)], 4) := by decide +kernel
/-- D23 -/
theorem test_cls : seen (run 0x300 0x00E0 { bare with fb := full, hires := true }) (fun t => (lit t, t.hires)) =
    some ([], true) := by decide +kernel
/-- D24 -/
theorem test_scd : seen (run 0x300 0x00C3 { bare with fb := FrameBuffer.clear.setPixel 5 0 true, hires := true }) lit =
    some [(48, 0x04)] := by decide +kernel
/-- D25 -/
theorem test_scu : seen (run 0x300 0x00D3 { bare with fb := FrameBuffer.clear.setPixel 5 3 true, hires := true }) lit =
    some [(0, 0x04)] := by decide +kernel
/-- D30 -/
theorem test_scr_lores : seen (run 0x300 0x00FB { bare with fb := full })
    (fun t => [t.fb.byte 0, t.fb.byte 1, t.fb.byte 1008, t.fb.byte 1023]) = some [0x0F, 0xFF, 0x0F, 0xFF] := by
  decide +kernel
/-- D31 -/
theorem test_scr_scaled : seen (run 0x300 0x00FB { bare with fb := full, params := { bare.params with scrollScale := .two } })
    (fun t => [t.fb.byte 0, t.fb.byte 1, t.fb.byte 1008, t.fb.byte 1023]) = some [0x00, 0xFF, 0x00, 0xFF] := by
  decide +kernel
/-- D29 -/
theorem test_scl : seen (run 0x300 0x00FC { bare with fb := full, hires := true })
    (fun t => [t.fb.byte 0, t.fb.byte 14, t.fb.byte 15, t.fb.byte 1023]) = some [0xFF, 0xFF, 0xF0, 0xF0] := by
  decide +kernel
/-- D34 -/
theorem test_low_kept : seen (run 0x300 0x00FE (quirks (fun q => { q with modeKeep := true })
    { bare with fb := FrameBuffer.clear.setPixel 0 0 true, hires := true })) (fun t => (t.hires, lit t)) =
      some (false, [(0, 0x80)]) := by decide +kernel
/-- D35 -/
theorem test_high_clears : seen (run 0x300 0x00FF { bare with fb := FrameBuffer.clear.setPixel 0 0 true, hires := true })
    (fun t => (t.hires, lit t)) = some (true, []) := by decide +kernel

/-! Keypad, timers, exit, unknown words. -/

/-- K4: the high bits of Vx are ignored. -/
theorem test_skp : seen (run 0x210 0xE29E (withKeys [5] .down (withV [(2, 0xF5)] bare))) (·.pc) = some 0x0214 := by
  decide +kernel
/-- K7: a released key is not down; the cell then collapses. -/
theorem test_sknp : seen (run 0x210 0xE2A1 (withKeys [5] .released (withV [(2, 0x05)] bare)))
    (fun t => (t.pc, t.key 5)) = some (0x0214, .up) := by decide +kernel
/-- K11 -/
theorem test_ldVxK : seen (run 0x200 0xF30A (withKeys [2, 9] .released bare))
    (fun t => (t.getV 3, t.pc, t.key 2, t.key 9)) = some (2, 0x0202, .up, .up) := by decide +kernel
/-- K10 -/
theorem test_ldVxK_waits : seen (run 0x200 0xF30A (withKeys [7] .down bare)) (·.pc) = some 0x0200 := by decide +kernel
/-- K13 -/
theorem test_ldVxDT : seen (run 0x200 0xF407 { bare with dt := 0x3C }) (·.getV 4) = some 0x3C := by decide +kernel
/-- K14 -/
theorem test_ldDTVx : seen (run 0x200 0xF415 (withV [(4, 0x3C)] bare)) (·.dt) = some 0x3C := by decide +kernel
/-- K15 -/
theorem test_ldSTVx : seen (run 0x200 0xF418 (withV [(4, 0x02)] bare)) (·.st) = some 0x02 := by decide +kernel
/-- Y1 -/
theorem test_exit : seen (run 0x20C 0x00FD bare) (fun t => (t.exit, t.pc)) = some (true, 0x020E) := by decide +kernel
/-- F10: the collapse runs after an unknown word too. -/
theorem test_unknown : seen (run 0x300 0x0000 (withKeys [4] .released bare)) (fun t => (t.pc, t.key 4)) =
    some (0x0302, .up) := by decide +kernel

/-! The step. -/

/-- R288: the worked step. -/
def workedStep : State :=
  { withBytes 0x200 [0x6A, 0x07] bare with
    config := { bare.config with cpuFreq := 500, timerFreq := 60, refreshFreq := 60 }
    curTime := 1000, clockMs := 1001, cpuCum := 1, delayCum := 15, soundCum := 15, refreshCum := 3, dt := 5, st := 1 }

theorem test_step_worked_times : seen (step workedStep) (fun t => (t.prevTime, t.curTime, t.elapsed, t.cpuCum)) =
    some (1000, 1001, 1, 0) := by decide +kernel
theorem test_step_worked_effects : seen (step workedStep) (fun t => (t.getV 10, t.pc, t.executed, t.dt, t.st, t.beep)) =
    some (7, 0x202, true, 4, 0, false) := by decide +kernel
theorem test_step_worked_counters : seen (step workedStep)
    (fun t => (t.delayCum, t.soundCum, t.refreshCum, t.displayUpdated)) = some (0, 0, 4, false) := by decide +kernel
/-- T1: a throttled step executes nothing. -/
theorem test_step_throttled : seen (step { bare with config := { bare.config with cpuFreq := 60 }, clockMs := 15 })
    (fun t => (t.executed, t.cpuCum, t.pc)) = some (false, 15, 0x200) := by decide +kernel
/-- T8: the clock wraps. -/
theorem test_step_clock_wrap : seen (step { bare with curTime := 0xFFFFFFF0, clockMs := 0x10 }) (·.elapsed) = some 32 := by
  decide +kernel
/-- F5: the fetch fault, in a step. -/
theorem test_step_fetch_fault : seen (step { bare with pc := 0x0FFF })
    (fun t => (t.latch.code, t.latch.pc, t.latch.addr, t.executed, t.pc)) = some (1, 0x0FFF, 0x0FFF, false, 0x0FFF) := by
  decide +kernel
/-- T9, its fifth step: a faulted core only ticks. -/
theorem test_step_faulted : seen (step { bare with pc := 0x0FFF, dt := 2, latch := ⟨some .fetchRange, 0x0FFF, 0x0FFF⟩ })
    (fun t => (t.executed, t.dt, t.pc, t.latch.code)) = some (false, 1, 0x0FFF, 1) := by decide +kernel
/-- P5, its third step: the host drops the key, the release is taken and collapsed. -/
theorem test_step_host_releases_key :
    seen (step { withKeys [3] .down (withBytes 0x200 [0xF0, 0x0A] bare) with hostPlan := [[.setInputs 0 0]] })
      (fun t => (t.getV 0, t.pc, t.key 3, t.hostPlan)) = some (3, 0x0202, .up, []) := by decide +kernel
/-- The host's checks: a word placed at reset is what the next step runs. -/
theorem test_placed_word : seen (step (State.reset.withFetchWord 16 0x612A)) (fun t => (t.getV 1, t.pc)) =
    some (0x2A, 0x0202) := by decide +kernel

/-! Host operations. -/

/-- Z1: construction with a font, at a clock value. -/
theorem test_construct : (construct Config.default { bare with clockMs := 1234, rng := 7, dt := 9 }).curTime = 1234 ∧
    (construct Config.default { bare with rng := 7 }).rng = bare.params.rngSeed ∧
    bytesAt (construct Config.default bare) 0x4B 5 = [0xF0, 0x80, 0xF0, 0x80, 0x80] := by decide +kernel
/-- Z3: a reset clears memory, font too, and keeps the generator. -/
theorem test_reset : (resetCore { State.reset with rng := 7, exit := true }).mem = [] ∧
    (resetCore { State.reset with rng := 7, exit := true }).rng = 7 ∧
    (resetCore { State.reset with rng := 7, exit := true }).exit = false := by decide +kernel
/-- Z4: soft reset restores font and program. -/
theorem test_soft_reset : bytesAt (softReset { bare with programImage := [0x00, 0xE0, 0x12, 0x02] }) 0x200 4 =
    [0x00, 0xE0, 0x12, 0x02] := by decide +kernel
/-- Z5: 3585 bytes do not fit from 0x200, 3584 do. -/
theorem test_program_does_not_fit : imageFits bare (List.replicate 3585 1) = false ∧
    imageFits bare (List.replicate 3584 1) = true := by decide +kernel

/-! Witnesses: for every statement with hypotheses, values that meet them, clause by clause, at the boundaries. -/

/-- A state whose next step is due at `pc` with this word. -/
def due1 (w : BitVec 16) : State := { bare with mem := Memory.write2 [] 0x200 w }

theorem witness_DecodeOfEncodeIsTheInstruction : (Instr.drw 15 0 15).wf = true ∧ (Instr.jpV0 0xFFF 15).wf = true := by
  decide
theorem witness_EncodeOfDecodeIsTheWord : decodeWord 0xBFFF = some (.jpV0 0xFFF 15) := by decide
theorem witness_StepRunsTheDecodedInstruction :
    let u := sampled (hostTurn (due1 0x1ABC))
    u.faulted = false ∧ u.PacedNow ∧ u.pc.toNat + 1 ≤ 0x0FFF ∧
      decode [u.mem.read u.pc.toNat, u.mem.read (u.pc.toNat + 1)] = .ok (.jp 0xABC, []) := by decide +kernel
theorem witness_UnknownWordIsAnExecutedNoOp :
    let u := sampled (hostTurn { due1 0x0000 with pc := 0x0FFE })
    u.faulted = false ∧ u.PacedNow ∧ u.pc.toNat + 1 ≤ 0x0FFF ∧
      ∀ r ∈ opcodeTable, (u.mem.read u.pc.toNat ++ u.mem.read (u.pc.toNat + 1)) &&& r.mask ≠ r.value := by
  decide +kernel
theorem witness_FetchBeyondMemoryFaults :
    (let u := sampled (hostTurn { bare with pc := 0x0FFF })
     u.faulted = false ∧ u.PacedNow ∧ 0x0FFF < u.pc.toNat + 1) ∧
    (let u : State := { bare with pc := 0x0FFE }
     u.faulted = false ∧ u.pc.toNat + 1 ≤ 0x0FFF ∧ seen (execute u) (·.pc) = some 0x1000) := by decide +kernel
theorem witness_PlacedWordRunsNext :
    State.mem { bare with pc := 0x1234, latch := ⟨some .fetchRange, 0, 0⟩ } = [] ∧ Memory.wf [] ∧
      decodeWord 0x612A = some (.ldImm 1 0x2A) := by decide +kernel
theorem witness_CallPushesAndJumps : bare.params.wf = true ∧ bare.mem.wf ∧
    (State.sp { bare with sp := 0x1FE }).toNat + 2 ≤ bare.params.stackEnd.toNat ∧
    bare.params.stackEnd.toNat < (State.sp { bare with sp := 0x1FF }).toNat + 2 := by decide +kernel
theorem witness_ReturnPopsTheAddress : bare.params.wf = true ∧
    (0x00F2 : Addr).toNat ≤ bare.params.stackEnd.toNat ∧ 0x00F0 + 2 ≤ (State.sp { bare with sp := 0x0F2 }).toNat ∧
    (State.sp { bare with sp := 0x0F1 }).toNat < 0x00F0 + 2 := by decide +kernel
theorem witness_IndexedJumpAddsTheRegister : (15 : Reg).toNat = (0xFFF : BitVec 12).toNat / 256 := by decide
theorem witness_KeySkipsTestTheCell : (5 : BitVec 4).toNat = ((withV [(2, 0xF5)] bare).getV 2).toNat % 16 := by
  decide +kernel
theorem witness_ShiftsMoveOneBitIntoVF :
    (0x81 : Byte) = (if (withV [(2, 0x81)] bare).config.quirks.shift then (withV [(2, 0x81)] bare).getV 1
      else (withV [(2, 0x81)] bare).getV 2) := by decide +kernel
theorem witness_RandomDrawsOnceAndMasks : exec .cls bare = .next (bare.setFb FrameBuffer.clear) ∧
    (∀ x kk, Instr.cls ≠ .rnd x kk) ∧ execUnknown bare = .next bare := ⟨rfl, fun _ _ h => Instr.noConfusion h, rfl⟩
theorem witness_DecimalDigitsAreStored : bare.mem.wf ∧
    (State.i { bare with i := 0x0FFD }).toNat + 2 ≤ 0x0FFF ∧ 0x0FFF < (State.i { bare with i := 0x0FFE }).toNat + 2 := by
  decide +kernel
theorem witness_RegistersAreStored : bare.mem.wf ∧
    (State.i { bare with i := 0x0FF0 }).toNat + (15 : Reg).toNat ≤ 0x0FFF ∧
    0x0FFF < (State.i { bare with i := 0x0FF1 }).toNat + (15 : Reg).toNat := by decide +kernel
theorem witness_RegistersAreLoadedAndRoundTrip : bare.mem.wf ∧ bare.i.toNat + (1 : Reg).toNat ≤ 0x0FFF ∧
    ∃ t w : State, exec (.storeRegs 1) bare = .next t ∧ exec (.loadRegs 1) { t with i := bare.i } = .next w :=
  ⟨by decide +kernel, by decide +kernel, _, _, rfl, rfl⟩
theorem witness_AccessBeyondMemoryFaults :
    (State.i { bare with i := 0x0FFD }).toNat + 2 = 0x0FFF ∧ (State.i { bare with i := 0x0FFE }).toNat + 2 = 0x1000 ∧
    (State.i { bare with i := 0x0FFF }).toNat + (0 : Reg).toNat = 0x0FFF ∧
    (State.i { bare with i := 0x0FFF }).toNat + (1 : Reg).toNat = 0x1000 ∧
    (State.i { bare with i := 0x0FF1 }).toNat + (15 : BitVec 4).toNat - 1 = 0x0FFF ∧
    (State.i { bare with i := 0x0FE0 }).toNat + 31 = 0x0FFF ∧ (State.i { bare with i := 0x0FE1 }).toNat + 31 = 0x1000 ∧
    (bare.hires = true ∨ bare.config.quirks.bigSpriteLores = false) ∧
    (State.i { bare with i := 0x0FF0 }).toNat + 15 = 0x0FFF ∧
    (quirks (fun q => { q with bigSpriteLores := true }) bare).config.quirks.bigSpriteLores = true := by decide +kernel
theorem witness_PixelPrimitivesAddressOneBit : 127 < 128 ∧ 63 < 64 ∧ 1023 < 1024 ∧ 1023 = 63 * 16 + 127 / 8 ∧
    7 - 127 % 8 = 0 := by decide
theorem witness_ToggleInvertsOneLogicalPixel : 63 < logicalWidth false ∧ 31 < logicalHeight false ∧
    127 < logicalWidth true ∧ 63 < logicalHeight true := by decide
theorem witness_ScrollShiftsTheWholeBuffer : ((0 : Int) = 0 ∨ (-4 : Int) = 0) ∧ ((0 : Int) ≤ 2 ∧ (0 : Int) ≤ 2) ∧
    ((-2 : Int) ≤ 0 ∧ (-2 : Int) ≤ 0) := by decide
theorem witness_ScrollInstructionsMoveThePicture :
    30 = (if bare.hires then (15 : BitVec 4).toNat
      else (15 : BitVec 4).toNat * (if ScrollScale.two = ScrollScale.two then 2 else 1)) ∧
    4 = (if bare.hires then 4 else 4 * (if bare.params.scrollScale = .two then 2 else 1)) := by decide +kernel
theorem witness_ModeSwitchesClearUnlessKept : bare.config.quirks.modeKeep = false ∧
    (quirks (fun q => { q with modeKeep := true }) bare).config.quirks.modeKeep = true := by decide +kernel
theorem witness_SpriteShapeAndBits : (1 : BitVec 4) ≠ 0 ∧ Quirks.legacy.bigSpriteLores = false ∧
    Quirks.bigSpriteLores { Quirks.legacy with bigSpriteLores := true } = true ∧ 7 < 8 := by decide
theorem witness_DrawXorsTheSpriteAndCountsCollisions :
    (let s : State := { bare with i := 0x0FE0, hires := true }
     s.i.toNat + (drawingOf 0 1 0 s).shape.rows * (drawingOf 0 1 0 s).shape.bpr - 1 ≤ 0x0FFF) ∧
    (let s : State := { bare with i := 0x0FE1, hires := true }
     0x0FFF < s.i.toNat + (drawingOf 0 1 0 s).shape.rows * (drawingOf 0 1 0 s).shape.bpr - 1) := by decide +kernel
/-- A clear display in lo-res mode, and a full one in hi-res mode; a pixel is covered; no bottom row. -/
theorem witness_DrawingTwiceRestores :
    (let s := withBytes 0x300 [0x80] { bare with i := 0x300 }
     s.i.toNat + (drawingOf 0 1 1 s).shape.rows * (drawingOf 0 1 1 s).shape.bpr - 1 ≤ 0x0FFF ∧
       s.fb = FrameBuffer.clear ∧ s.config.quirks.clip = false ∧ (drawingOf 0 1 1 s).bit 0 0 = true ∧
       (drawingOf 0 1 1 s).rowAt 0 = some 0 ∧ (drawingOf 0 1 1 s).colAt 0 = some 0) ∧
    (0 : Reg) ≠ 15 ∧ (1 : Reg) ≠ 15 ∧ State.hires { bare with hires := true, fb := full } = true := by decide +kernel
theorem witness_WaitForKeyTakesTheLowestReleased :
    (let s := withKeys [2, 9] .released bare
     s.key 2 = .released ∧ (∀ j : Fin 16, j.val < 2 → s.key (BitVec.ofFin j) ≠ .released)) ∧
    (∀ j : Fin 16, bare.key (BitVec.ofFin j) ≠ .released) ∧
    (let u := sampled (hostTurn (due1 0xF30A))
     u.faulted = false ∧ u.PacedNow ∧ u.pc.toNat + 1 ≤ 0x0FFF ∧
       decode [u.mem.read u.pc.toNat, u.mem.read (u.pc.toNat + 1)] = .ok (.ldVxK 3, []) ∧
       ∀ j : Fin 16, u.key (BitVec.ofFin j) ≠ .released) := by decide +kernel
theorem witness_ExitFlagIsSetAndStays : (hostTurn { due1 0x1200 with exit := true }).exit = true ∧
    seen (step { due1 0x1200 with exit := true }) (·.exit) = some true := by decide +kernel
theorem witness_KeypadSamplesAndCollapses : bare.faulted = false ∧
    seen (execute (withKeys [4] .released (due1 0x0000))) (·.key 4) = some .up ∧
    seen (execute (withKeys [4] .released { bare with pc := 0x0FFF })) (·.key 4) = some .released := by decide +kernel
/-- A step that answers a next state: the hypothesis of the statements about steps. -/
theorem witness_StepMeasuresElapsedTime : seen (step (due1 0x1200)) (·.pc) = some 0x200 := by decide +kernel
theorem witness_ExecutorIsPaced :
    (let u := sampled (hostTurn { bare with config := { bare.config with cpuFreq := 60 }, clockMs := 16 })
     u.faulted = false ∧ (u.config.cpuFreq = 0 ∨
       1000 / u.config.cpuFreq.toNat ≤ (u.cpuCum.toNat + u.elapsed.toNat) % 2 ^ 32)) ∧
    (let u := sampled (hostTurn { bare with config := { bare.config with cpuFreq := 60 }, clockMs := 15 })
     ¬ (u.faulted = false ∧ (u.config.cpuFreq = 0 ∨
       1000 / u.config.cpuFreq.toNat ≤ (u.cpuCum.toNat + u.elapsed.toNat) % 2 ^ 32))) := by decide +kernel
theorem witness_TimersCountDown :
    (let s : State := { bare with config := { bare.config with timerFreq := 60 }, elapsed := 16 }
     1000 / s.config.timerFreq.toNat ≤ (s.delayCum.toNat + s.elapsed.toNat) % 2 ^ 32 ∧ s.soundCum = s.delayCum) ∧
    (let s : State := { bare with config := { bare.config with timerFreq := 60 }, elapsed := 15 }
     ¬ (s.config.timerFreq = 0 ∨ 1000 / s.config.timerFreq.toNat ≤ (s.soundCum.toNat + s.elapsed.toNat) % 2 ^ 32)) := by
  decide +kernel
theorem witness_BeepFollowsTheSoundTimer : seen (step { due1 0x1200 with st := 3 }) (fun t => (t.beep, t.st)) =
    some (true, 2) ∧ seen (step { due1 0x1200 with st := 1 }) (fun t => (t.beep, t.st)) = some (false, 0) := by
  decide +kernel
theorem witness_RefreshFlagTicks :
    seen (step { due1 0x1200 with config := { bare.config with refreshFreq := 60 }, clockMs := 16 })
      (fun t => (t.displayUpdated, t.refreshCum)) = some (true, 0) ∧
    seen (step { due1 0x1200 with config := { bare.config with refreshFreq := 60 }, clockMs := 15 })
      (fun t => (t.displayUpdated, t.refreshCum)) = some (false, 15) := by decide +kernel
theorem witness_FaultEntryIsPrecise : bare.faulted = false ∧ seen (exec .ret bare) (·.faulted) = some true ∧
    seen (step (due1 0x00EE)) (·.faulted) = some true := by decide +kernel
theorem witness_FaultedCoreIsFrozen :
    (sampled (hostTurn { bare with latch := ⟨some .memRange, 0x200, 0x1000⟩ })).faulted = true := by decide +kernel
theorem witness_OnlyTheListedInstructionsFault :
    seen (exec (.call 0x300) { bare with sp := 0x200 }) (·.faulted) = some true ∧
    seen (exec .ret bare) (·.faulted) = some true ∧
    seen (exec (.ldB 0) { bare with i := 0x0FFE }) (·.faulted) = some true ∧
    seen (execUnknown bare) (·.faulted) = some false ∧
    seen (execute { bare with pc := 0x0FFF }) (·.faulted) = some true := by decide +kernel
theorem witness_ConfigurationIsWrittenOnlyByConstruction : seen (exec .cls bare) (·.config) = some Config.default ∧
    seen (step (due1 0x1200)) (·.config) = some Config.default ∧
    ∀ cfg, HostAction.softReset ≠ .construct cfg := by
  exact ⟨by decide +kernel, by decide +kernel, fun _ h => HostAction.noConfusion h⟩
theorem witness_InstructionsWriteOnlyTheirOwn : mayWriteMemory .cls = false ∧ mayWriteDisplay .ret = false ∧
    seen (exec .exit bare) (·.exit) = some true ∧ seen (exec .high bare) (·.hires) = some true ∧
    seen (exec (.ldI 0x300) bare) (·.i) = some 0x300 ∧
    seen (exec (.ldDTVx 1) (withV [(1, 9)] bare)) (·.dt) = some 9 ∧
    seen (exec (.ldSTVx 1) (withV [(1, 9)] bare)) (·.st) = some 9 ∧
    seen (exec (.call 0x300) bare) (·.sp) = some 0x0F2 := by decide +kernel
theorem witness_OnlyFlagWritersWriteVF : mayWriteVF (.ldImm 14 0x55) = false ∧
    seen (exec (.ldImm 14 0x55) bare) (·.getV 14) = some 0x55 := by decide +kernel
theorem witness_ResetReinitializes : bare.config.quirks.ramInit = false ∧
    (quirks (fun q => { q with ramInit := true }) bare).config.quirks.ramInit = true ∧ 0x0FFF < 0x1000 := by
  decide +kernel
theorem witness_ConstructionSeedsResetsAndLoadsTheFont : bare.mem.wf ∧ 239 < 240 ∧ workedStep.config.cpuFreq ≠ 0 ∧
    workedStep.config.timerFreq ≠ 0 ∧ workedStep.config.refreshFreq ≠ 0 := by decide +kernel
theorem witness_ProgramLoadAndSoftReset : bare.mem.wf ∧
    bare.config.programStart.toNat + (List.replicate 3584 (1 : Byte)).length ≤ 0x1000 ∧
    0x1000 < bare.config.programStart.toNat + (List.replicate 3585 (1 : Byte)).length := by decide +kernel
theorem witness_HostActsBetweenSteps : bare.hostPlan = [] ∧ bare.mem.wf ∧
    State.hostPlan { bare with hostPlan := [[.reset], []] } = [.reset] :: [[]] := by decide +kernel
/-- A state with every part of the invariant at work, and the smallest faulted one. -/
theorem witness_EveryStepKeepsTheInvariant : State.Inv { due1 0x2300 with sp := 0x1FE, st := 1, beep := true } ∧
    State.Inv { bare with sp := 0x200, latch := ⟨some .stackOverflow, 0x200, 0x200⟩ } := by
  refine ⟨⟨?_, ?_, ?_, ?_, ?_, ?_, ?_⟩, ⟨?_, ?_, ?_, ?_, ?_, ?_, ?_⟩⟩
  all_goals decide +kernel
theorem witness_ReachableStatesStep : ∃ s, Reachable s :=
  ⟨_, .planned _ [[.softReset]] (.constructed Config.default bare (by decide))⟩
theorem witness_MemoryReadsWhatWasWritten : Memory.wf [] ∧ 0x0FFF < 0x1000 ∧ 0x0FFE + 1 < 0x1000 ∧
    (State.pc { bare with pc := 0x0FFE }).toNat + 1 ≤ 0x0FFF := by decide +kernel

end Sys2Proof.Tests
end

/-! PROOFS. Every step from a legal state answers a legal next state, so every reachable state is legal and steps on
(R10, R14, R345). -/

namespace Sys2Proof.Machine

/-- The part of `State.Inv` that holds throughout a step: sampling leaves `keypad` open until the executor has run,
and the timers leave `sound` open until part (d). -/
structure State.MidStep (s : State) : Prop where
  memory : s.mem.wf
  params : s.params.wf = true
  stack  : s.stackOk
  ticks  : s.soundCum = s.delayCum
  latch  : s.latchOk

theorem State.Inv.midStep {s : State} (h : s.Inv) : s.MidStep :=
  ⟨h.memory, h.params, h.stack, h.ticks, h.latch⟩

theorem State.MidStep.sampled {s : State} (h : s.MidStep) : (sampled s).MidStep :=
  ⟨h.memory, h.params, h.stack, h.ticks, h.latch⟩

/-- Without a latched fault the latch registers are empty (R33). -/
theorem State.MidStep.latch_clear {s : State} (h : s.MidStep) (hf : s.faulted = false) :
    s.latch = FaultLatch.clear := by
  simpa [State.latchOk, hf] using h.latch

/-- No fault latched and the latch registers empty is a consistent latch, whatever `executed` says. -/
theorem latchOk_of_clear {s : State} (h : s.latch = FaultLatch.clear) : s.latchOk := by
  simp [State.latchOk, State.faulted, h, FaultLatch.clear]

/-- A step that runs no instruction keeps what holds throughout a step; a latched fault agrees with `executed` = 0
(R283, R307). -/
theorem State.MidStep.idle {s : State} (h : s.MidStep) :
    State.MidStep { accumulateCpu s with executed := false } := by
  refine ⟨h.memory, h.params, h.stack, h.ticks, ?_⟩
  cases hf : s.faulted with
  | false => exact latchOk_of_clear (h.latch_clear hf)
  | true =>
    have hl : s.latch.pc = s.pc ∧ s.executed = false := by simpa [State.latchOk, hf] using h.latch
    exact (if_pos hf).mpr ⟨hl.1, rfl⟩

/-- A completed instruction, its keys collapsed, keeps what holds throughout a step. -/
theorem State.MidStep.completed {s t : State} (h : s.MidStep) (hf : s.faulted = false)
    (hc : Completed (advancePc s) t) : State.MidStep { collapseKeys t with executed := !(collapseKeys t).faulted } where
  memory := hc.mem h.memory
  params := by
    show t.params.wf = true
    rw [hc.rest]; exact h.params
  stack := hc.stack h.params h.stack
  ticks := by
    show t.soundCum = t.delayCum
    rw [hc.rest]; exact h.ticks
  latch := latchOk_of_clear (by
    show t.latch = FaultLatch.clear
    rw [hc.rest]; exact h.latch_clear hf)

/-- A fault taken at the instruction's own address keeps what holds throughout a step (R306). -/
theorem State.MidStep.takeFault {s : State} (h : s.MidStep) (c : Cause) (a : Addr) :
    State.MidStep { takeFault c s.pc a s with executed := false } :=
  ⟨h.memory, h.params, h.stack, h.ticks, rfl, rfl⟩

/-- Part (b) answers a next state and leaves no release after an executed instruction (R243, R282, R283). -/
theorem executorPart_midStep {s : State} (h : s.MidStep) :
    ∃ t, executorPart s = .next t ∧ t.MidStep ∧ t.keysOk := by
  cases hd : executorDue (accumulateCpu s) with
  | false => exact ⟨_, executorPart_idle hd, h.idle, fun he => nomatch he⟩
  | true =>
    have hf : s.faulted = false := executorDue_not_faulted (s := accumulateCpu s) hd
    have hu : State.MidStep { accumulateCpu s with cpuCum := 0 } :=
      ⟨h.memory, h.params, h.stack, h.ticks, h.latch⟩
    rw [executorPart_due hd]
    rcases execute_outcomes (s := { accumulateCpu s with cpuCum := 0 }) hf with
      ⟨t, he, hc, -, -⟩ | ⟨c, a, he⟩ | ⟨a, -, hbad⟩
    · rw [he]
      exact ⟨_, rfl, hu.completed hf hc, fun _ k => key_collapseKeys_ne_released t k⟩
    · rw [he]
      exact ⟨_, rfl, hu.takeFault c a, fun hx => nomatch hx⟩
    · exact absurd ⟨h.params, h.stack⟩ hbad

/-- Parts (c) to (e) restore the whole invariant: `beep` follows `ST` again (R286). -/
theorem timingParts_inv {s : State} (h : s.MidStep) (hk : s.keysOk) : (timingParts s).Inv where
  memory := by rw [timingParts_rest]; exact h.memory
  params := by rw [timingParts_rest]; exact h.params
  stack := by rw [timingParts_rest]; exact h.stack
  ticks := timingParts_ticks h.ticks
  sound := timingParts_beep s
  latch := by rw [timingParts_rest]; exact h.latch
  keypad := by rw [timingParts_rest]; exact hk

/-- One step, the host's turn included, from a legal state (R10, R14, R280). -/
theorem step_next_inv {s : State} (h : s.Inv) : ∃ t, step s = .next t ∧ t.Inv := by
  obtain ⟨t, ht, hm, hk⟩ := executorPart_midStep (hostTurn_inv h).midStep.sampled
  exact ⟨timingParts t, by rw [step, schedulerStep, ht, onNext_next], timingParts_inv hm hk⟩

/-- The host's choice of its coming actions touches no part of the invariant. -/
theorem State.Inv.withHostPlan {s : State} (h : s.Inv) (plan : List (List HostAction)) :
    State.Inv { s with hostPlan := plan } :=
  ⟨h.memory, h.params, h.stack, h.ticks, h.sound, h.latch, h.keypad⟩

/-- The invariant holds at construction and every move keeps it, so it holds of every reachable state (R345). -/
theorem Reachable.inv {s : State} (h : Reachable s) : s.Inv := by
  induction h with
  | constructed cfg s hp => exact construct_inv cfg hp
  | planned s plan _ ih => exact ih.withHostPlan plan
  | stepped s t _ hst ih =>
    obtain ⟨u, hu, hinv⟩ := step_next_inv ih
    have htu : t = u := Host.Outcome.next.inj (hst.symm.trans hu)
    exact htu ▸ hinv

/-- Settles O59: the invariant holds of every reachable state, and from it every step answers a next state. -/
theorem reachableStatesStep : Obligations.ReachableStatesStep := by
  intro s hs
  obtain ⟨t, ht, -⟩ := step_next_inv hs.inv
  exact ⟨hs.inv, t, ht, .stepped s t hs ht⟩

end Sys2Proof.Machine

/-! PROOFS. The state's own rules (10_state.md): the invariant of a step, which instruction writes which field, who
writes VF and the configuration, the host's turn and the power-on state. -/

namespace Sys2Proof.Machine

/-- Settles O58: the host's turn keeps the invariant, the executor completes from every state that meets it, and the
timing parts restore what the step left open (`step_next_inv`). -/
theorem everyStepKeepsTheInvariant : Obligations.EveryStepKeepsTheInvariant :=
  fun _ h => step_next_inv h

/-! Which instruction writes which field. -/

/-- The instruction computes a value for the index register and writes nothing else (R181, R182, R184, R185). -/
def OnlyWritesIndex (i : Instr) : Prop :=
  (∃ nnn, i = .ldI nnn) ∨ (∃ x, i = .addI x) ∨ (∃ x, i = .ldF x) ∨ ∃ x, i = .ldHF x

/-- What an instruction's next state can be, by the fields that differ from the state it started in: one constructor
for each family of instructions that write the same fields. -/
inductive Footprint (s : State) : Instr → State → Prop
  /-- any instruction that faults (R306) -/
  | fault (i : Instr) (c : Cause) (a : Addr) : Footprint s i (takeFault c (s.pc - 2) a s)
  /-- jumps, skips, the waiting Fx0A, and the instructions that do nothing -/
  | control (i : Instr) (pc : Addr) : Footprint s i (s.setPc pc)
  /-- one general register, the instruction's destination `x`, perhaps after a draw of the generator -/
  | register {i : Instr} (x : Reg) (b : Byte) (r : RngState) (hvf : mayWriteVF i = (x == regVF)) :
      Footprint s i ((s.setRng r).setV x b)
  /-- a result and its flag -/
  | flagged {i : Instr} (x : Reg) (r : Flagged) (hvf : mayWriteVF i = true) : Footprint s i (s.setFlagged x r)
  /-- the index register alone -/
  | index {i : Instr} (a : Addr) (hi : OnlyWritesIndex i) : Footprint s i (s.setI a)
  /-- clear and scroll -/
  | display {i : Instr} (fb : FrameBuffer) (hi : mayWriteDisplay i = true) : Footprint s i (s.setFb fb)
  /-- a draw: the display, then its count in VF -/
  | drw (x y : Reg) (n : BitVec 4) (fb : FrameBuffer) (b : Byte) :
      Footprint s (.drw x y n) ((s.setFb fb).setV regVF b)
  /-- a mode switch, which may clear the display -/
  | mode {i : Instr} (hires : Bool) (fb : FrameBuffer) (hi : i = .low ∨ i = .high) :
      Footprint s i ((s.setHires hires).setFb fb)
  | exit : Footprint s .exit s.setExit
  | call (nnn : BitVec 12) (m : Memory) (sp pc : Addr) :
      Footprint s (.call nnn) (((s.setMem m).setSp sp).setPc pc)
  | ret (sp pc : Addr) : Footprint s .ret ((s.setSp sp).setPc pc)
  | ldDTVx (x : Reg) (b : Byte) : Footprint s (.ldDTVx x) (s.setDT b)
  | ldSTVx (x : Reg) (b : Byte) : Footprint s (.ldSTVx x) (s.setST b)
  | ldB (x : Reg) (m : Memory) : Footprint s (.ldB x) (s.setMem m)
  | storeRegs (x : Reg) (m : Memory) (a : Addr) : Footprint s (.storeRegs x) ((s.setMem m).setI a)
  | loadRegs (x : Reg) (a : Addr) : Footprint s (.loadRegs x) { s with v := loadedRegs x s, i := a }

/-- The next state an instruction answers, if it answers one, is in its footprint. -/
def WithinFootprint (s : State) (i : Instr) (o : Result) : Prop := ∀ t, o = .next t → Footprint s i t

theorem WithinFootprint.next {s t : State} {i : Instr} (h : Footprint s i t) : WithinFootprint s i (.next t) := by
  rintro _ ⟨⟩; exact h

/-- A stop of the model answers no next state. -/
theorem WithinFootprint.stop {s : State} {i : Instr} (r : Fault) : WithinFootprint s i (.fault r) :=
  fun _ h => nomatch h

theorem WithinFootprint.skipWhen {s : State} {i : Instr} (b : Bool) : WithinFootprint s i (skipWhen b s) := by
  cases b with
  | false => exact .next (.control i s.pc)
  | true => exact .next (.control i (s.pc + 2))

/-- An access through `I` is within the footprint when its effect is; else it faults (R76). -/
theorem WithinFootprint.throughI {s : State} {i : Instr} {k : Nat} {effect : State → State}
    (h : Footprint s i (effect s)) : WithinFootprint s i (throughI k effect s) := by
  by_cases hr : s.i.toNat + k ≤ lastAddr
  · rw [throughI_inRange hr]; exact .next h
  · rw [throughI_outOfRange (by omega)]; exact .next (.fault i _ _)

theorem WithinFootprint.push {s : State} (nnn : BitVec 12) (ret a : Addr) :
    WithinFootprint s (.call nnn) (push ret (fun t => t.setPc a) s) := by
  by_cases hfull : s.params.stackEnd.toNat < s.sp.toNat + 2
  · rw [push_full hfull]; exact .next (.fault _ _ _)
  · by_cases hnone : lastAddr < s.sp.toNat + 1
    · rw [Machine.push, if_neg hfull, if_pos hnone]; exact .stop _
    · rw [push_room (by omega) (by omega)]; exact .next (.call nnn _ _ _)

theorem WithinFootprint.popPc {s : State} : WithinFootprint s .ret (popPc s) := by
  by_cases hempty : s.sp.toNat < stackBase.toNat + 2
  · rw [popPc_empty hempty]; exact .next (.fault _ _ _)
  · by_cases hnone : lastAddr + 1 < s.sp.toNat
    · rw [Machine.popPc, if_neg hempty, if_pos hnone]; exact .stop _
    · rw [popPc_entry (by omega) (by omega)]; exact .next (.ret _ _)

/-- Every instruction writes only its own fields. -/
theorem exec_withinFootprint (i : Instr) (s : State) : WithinFootprint s i (exec i s) := by
  cases i with
  | scd n => exact .next (.display _ rfl)
  | scu n => exact .next (.display _ rfl)
  | cls => exact .next (.display _ rfl)
  | ret => exact .popPc
  | scr => exact .next (.display _ rfl)
  | scl => exact .next (.display _ rfl)
  | exit => exact .next .exit
  | low => exact .next (.mode _ _ (.inl rfl))
  | high => exact .next (.mode _ _ (.inr rfl))
  | jp nnn => exact .next (.control _ _)
  | call nnn => exact .push nnn _ _
  | seImm x kk => exact .skipWhen _
  | sneImm x kk => exact .skipWhen _
  | seReg x y => exact .skipWhen _
  | ldImm x kk => exact .next (.register x _ s.rng rfl)
  | addImm x kk => exact .next (.register x _ s.rng rfl)
  | ldReg x y => exact .next (.register x _ s.rng rfl)
  | orReg x y => exact .next (.register x _ s.rng rfl)
  | andReg x y => exact .next (.register x _ s.rng rfl)
  | xorReg x y => exact .next (.register x _ s.rng rfl)
  | addReg x y => exact .next (.flagged x _ rfl)
  | subReg x y => exact .next (.flagged x _ rfl)
  | shr x y => exact .next (.flagged x _ rfl)
  | subn x y => exact .next (.flagged x _ rfl)
  | shl x y => exact .next (.flagged x _ rfl)
  | sneReg x y => exact .skipWhen _
  | ldI nnn => exact .next (.index _ (.inl ⟨nnn, rfl⟩))
  | jpV0 nnn x => exact .next (.control _ _)
  | rnd x kk => exact .next (.register x _ _ rfl)
  | drw x y n =>
    show WithinFootprint s (.drw x y n) (execDrw x y n s)
    exact .throughI (.drw x y n _ _)
  | skp x => exact .skipWhen _
  | sknp x => exact .skipWhen _
  | ldVxDT x => exact .next (.register x _ s.rng rfl)
  | ldVxK x =>
    show WithinFootprint s (.ldVxK x) (execLdVxK x s)
    unfold execLdVxK
    split
    · exact .next (.register x _ s.rng rfl)
    · exact .next (.control _ _)
  | ldDTVx x => exact .next (.ldDTVx x _)
  | ldSTVx x => exact .next (.ldSTVx x _)
  | addI x => exact .next (.index _ (.inr (.inl ⟨x, rfl⟩)))
  | ldF x => exact .next (.index _ (.inr (.inr (.inl ⟨x, rfl⟩))))
  | ldHF x => exact .next (.index _ (.inr (.inr (.inr ⟨x, rfl⟩))))
  | ldB x =>
    show WithinFootprint s (.ldB x) (execLdB x s)
    exact .throughI (.ldB x _)
  | storeRegs x =>
    show WithinFootprint s (.storeRegs x) (execStoreRegs x s)
    exact .throughI (.storeRegs x _ _)
  | loadRegs x =>
    show WithinFootprint s (.loadRegs x) (execLoadRegs x s)
    exact .throughI (.loadRegs x _)
  | saveFlags x => exact .next (.control _ s.pc)
  | restoreFlags x => exact .next (.control _ s.pc)

/-- The inversion: a next state of an instruction is in the instruction's footprint. -/
theorem exec_footprint {i : Instr} {s t : State} (h : exec i s = .next t) : Footprint s i t :=
  exec_withinFootprint i s t h

/-- Settles O50, by the families of `Footprint`: each names the fields it writes. -/
theorem instructionsWriteOnlyTheirOwn : Obligations.InstructionsWriteOnlyTheirOwn := by
  intro i s t h
  cases exec_footprint h with
  | flagged => simp [State.setFlagged]
  | index a hi => obtain ⟨_, rfl⟩ | ⟨_, rfl⟩ | ⟨_, rfl⟩ | ⟨_, rfl⟩ := hi <;> simp
  | display fb hi => simp [hi]
  | mode hires fb hi => obtain rfl | rfl := hi <;> simp [mayWriteDisplay]
  | _ => simp [mayWriteMemory, mayWriteDisplay]

/-- Fx65 leaves the registers above its last one alone (R193). -/
theorem getElem_loadedRegs_above {x : Reg} {s : State} {k : Nat} (hk : k < 16) (hx : x.toNat < k) :
    (loadedRegs x s)[k] = s.v[k] := by
  simp [loadedRegs, hk, show ¬ k ≤ x.toNat by omega]

/-- A register other than VF is numbered below it. -/
theorem toNat_lt_of_ne_regVF {x : Reg} (h : x ≠ regVF) : x.toNat < 15 := by
  have hx := x.isLt
  have : x.toNat ≠ 15 := fun h' => h (BitVec.eq_of_toNat_eq h')
  omega

/-- Settles O51, by the families of `Footprint`: a register write reaches VF only when VF is the destination, and
flagged results and draws are the writers the statement leaves out. -/
theorem onlyFlagWritersWriteVF : Obligations.OnlyFlagWritersWriteVF := by
  intro i s t h hvf
  cases exec_footprint h with
  | register x b r hi =>
    have hx : x ≠ regVF := by simpa [hi] using hvf
    rw [State.getV_setV, if_neg (Ne.symm hx)]
    rfl
  | flagged x r hi => simp [hi] at hvf
  | drw => simp [mayWriteVF] at hvf
  | loadRegs x a =>
    have hx : x ≠ regVF := by simpa [mayWriteVF] using hvf
    exact getElem_loadedRegs_above (by omega) (toNat_lt_of_ne_regVF hx)
  | _ => exact State.getV_congr rfl _

/-! The configuration and the parameters. -/

/-- No update an instruction makes reaches the configuration or the parameters (R28, R9). -/
theorem exec_config_params {i : Instr} {s t : State} (h : exec i s = .next t) :
    t.config = s.config ∧ t.params = s.params := by
  cases exec_footprint h <;> exact ⟨rfl, rfl⟩

/-- Part (b) of a step keeps the configuration and the parameters. -/
theorem executorPart_config_params {s t : State} (h : executorPart s = .next t) :
    t.config = s.config ∧ t.params = s.params := by
  cases hd : executorDue (accumulateCpu s) with
  | false =>
    rw [executorPart_idle hd] at h
    cases h
    exact ⟨rfl, rfl⟩
  | true =>
    rw [executorPart_due hd] at h
    obtain ⟨u, hu, hut⟩ := onNext_eq_next h
    cases hut
    have hf : s.faulted = false := executorDue_not_faulted (s := accumulateCpu s) hd
    rcases execute_outcomes (s := { accumulateCpu s with cpuCum := 0 }) hf with
      ⟨w, hw, hc, -, -⟩ | ⟨c, a, hw⟩ | ⟨a, hw, -⟩
    · cases hw.symm.trans hu
      show w.config = s.config ∧ w.params = s.params
      rw [hc.rest]
      exact ⟨rfl, rfl⟩
    · cases hw.symm.trans hu
      exact ⟨rfl, rfl⟩
    · cases hw.symm.trans hu

/-- A step, after the host's turn, keeps the configuration and the parameters. -/
theorem schedulerStep_config_params {s t : State} (h : schedulerStep s = .next t) :
    t.config = s.config ∧ t.params = s.params := by
  obtain ⟨u, hu, hut⟩ := onNext_eq_next h
  cases hut
  have hfixed := executorPart_config_params hu
  rw [timingParts_rest]
  exact hfixed

/-- A program load writes memory and the remembered image, and nothing else (R342). -/
theorem loadProgram_rest (image : List Byte) (s : State) :
    loadProgram image s =
      { s with mem := (loadProgram image s).mem, programImage := (loadProgram image s).programImage } := by
  unfold loadProgram
  split <;> rfl

@[simp] theorem loadProgram_config (image : List Byte) (s : State) : (loadProgram image s).config = s.config := by
  rw [loadProgram_rest]

@[simp] theorem loadProgram_params (image : List Byte) (s : State) : (loadProgram image s).params = s.params := by
  rw [loadProgram_rest]

/-- No host action writes the parameters. -/
theorem applyAction_params (s : State) (a : HostAction) : (applyAction s a).params = s.params := by
  cases a with
  | softReset => exact loadProgram_params _ _
  | loadProgram image => exact loadProgram_params image s
  | _ => rfl

/-- Only construction writes the configuration (R28, R340). -/
theorem applyAction_config {s : State} {a : HostAction} (ha : ∀ cfg, a ≠ .construct cfg) :
    (applyAction s a).config = s.config := by
  cases a with
  | construct cfg => exact absurd rfl (ha cfg)
  | softReset => exact loadProgram_config _ _
  | loadProgram image => exact loadProgram_config image s
  | _ => rfl

/-- Host actions in order keep the parameters. -/
theorem applyActions_params (s : State) (actions : List HostAction) :
    (actions.foldl applyAction s).params = s.params := by
  induction actions generalizing s with
  | nil => rfl
  | cons a as ih => exact (ih _).trans (applyAction_params s a)

/-! The host's turn. -/

/-- With no plan left the host does nothing. -/
theorem hostTurn_nil {s : State} (h : s.hostPlan = []) : hostTurn s = s := by
  simp [hostTurn, h]

/-- The host takes the first entry of its plan. -/
theorem hostTurn_cons {s : State} {actions : List HostAction} {rest : List (List HostAction)}
    (h : s.hostPlan = actions :: rest) : hostTurn s = actions.foldl applyAction { s with hostPlan := rest } := by
  simp [hostTurn, h]

/-- The host's turn keeps the parameters. -/
theorem hostTurn_params (s : State) : (hostTurn s).params = s.params := by
  cases h : s.hostPlan with
  | nil => rw [hostTurn_nil h]
  | cons actions rest => rw [hostTurn_cons h, applyActions_params]

/-- Settles O49, part by part: instructions, the step after the host's turn, construction, and the other actions. -/
theorem configurationIsWrittenOnlyByConstruction : Obligations.ConfigurationIsWrittenOnlyByConstruction := by
  refine ⟨fun _ _ _ => exec_config_params, fun s t h => ?_, fun _ _ => rfl,
    fun s a => ⟨applyAction_params s a, applyAction_config⟩⟩
  obtain ⟨hconfig, hparams⟩ := schedulerStep_config_params h
  exact ⟨hconfig, hparams.trans (hostTurn_params s)⟩

/-- Settles O56: the two cases of the turn, one byte through the memory port, and the input levels. -/
theorem hostActsBetweenSteps : Obligations.HostActsBetweenSteps := by
  refine ⟨fun _ => hostTurn_nil, fun _ _ _ => hostTurn_cons, ?_, fun _ _ _ => rfl⟩
  rintro s t a b hm rfl
  have hread : ∀ c, (s.mem.write a.toNat b).read c = if c = a.toNat then b else s.mem.read c :=
    fun c => Memory.read_write s.mem hm a.toNat c b
  exact ⟨rfl, (hread _).trans (if_pos rfl), fun c hc => (hread c).trans (if_neg hc)⟩

/-! The power-on state. -/

/-- Every byte of a cleared display is 0 (R35, R45). -/
theorem FrameBuffer.byte_clear (k : Nat) : FrameBuffer.clear.byte k = 0 := by
  simp [FrameBuffer.byte]

/-- Memory at power-on: the font from address 0 and zeros above it (R45, R80). -/
theorem read_reset_mem (a : Nat) : State.reset.mem.read a = (defaultFont[a]?).getD 0 := by
  have h := Memory.read_ofRun (a := 0) (bs := defaultFont.toList) (by simp [memSize]) a
  rw [show State.reset.mem = Memory.ofRun 0 defaultFont.toList from rfl, h]
  simp

/-- Power-on is one construction with legal parameters (R340), so the invariant holds. -/
theorem reset_inv : State.reset.Inv := by
  rw [reset_eq_construct]
  exact construct_inv _ (by decide)

/-- Settles O57: the state is one construction, so the invariant holds of it; its fields are read off. -/
theorem powerOnStateIsLegal : Obligations.PowerOnStateIsLegal := by
  refine ⟨reset_inv, rfl, rfl, rfl, rfl, ?_, rfl, rfl, rfl, fun k _ => FrameBuffer.byte_clear k, ?_, ?_, ?_,
    reset_eq_construct⟩
  · intro r
    simp [State.getV, State.reset]
  · intro k
    simp [State.key, State.reset]
  · intro a ha
    simp [read_reset_mem, show ¬ a < 240 by omega]
  · intro k hk
    simp [read_reset_mem, hk, Params.default]

end Sys2Proof.Machine

/-! PROOFS. Memory (20_memory.md R72, R73, R90): the two bytes of a word as numbers, most significant first,
and a fetch after a store. -/

namespace Sys2Proof.Machine

/-- The byte at the lower address of a stored word is its quotient by 256 (R73). -/
theorem toNat_highByte (v : BitVec 16) : (v.extractLsb' 8 8).toNat = v.toNat / 256 := by
  have hv : v.toNat < 65536 := v.isLt
  rw [BitVec.extractLsb'_toNat, Nat.shiftRight_eq_div_pow]
  omega

/-- The byte at the higher address of a stored word is its remainder by 256 (R73). -/
theorem toNat_lowByte (v : BitVec 16) : (v.extractLsb' 0 8).toNat = v.toNat % 256 := by
  rw [BitVec.extractLsb'_toNat, Nat.shiftRight_zero]

/-- A two-byte read as a number: the byte at the lower address counts 256 times (R72). -/
theorem Memory.toNat_read2 (m : Memory) (a : Nat) :
    (m.read2 a).toNat = 256 * (m.read a).toNat + (m.read (a + 1)).toNat := by
  rw [Memory.read2, toNat_append_eq]
  omega

/-- One byte after a two-byte write, as a number (R73). -/
theorem Memory.toNat_read_write2 {m : Memory} (hm : m.wf) {a : Nat} (ha : a + 1 < memSize) (v : BitVec 16) (b : Nat) :
    ((m.write2 a v).read b).toNat =
      if b = a then v.toNat / 256 else if b = a + 1 then v.toNat % 256 else (m.read b).toNat := by
  rw [Memory.read_write2 hm ha, ← toNat_highByte, ← toNat_lowByte]
  split_ifs <;> rfl

/-- A word stored at `pc` is the word the next fetch reads (R90). -/
theorem fetchWord_write2 {s : State} (hm : s.mem.wf) (hpc : s.pc.toNat + 1 < memSize) (w : BitVec 16) :
    fetchWord { s with mem := s.mem.write2 s.pc.toNat w } = w :=
  Memory.read2_write2 hm hpc w

/-- Settles O60, by the read-after-write lemmas: one byte, a word byte by byte, a two-byte read, and the fetch. -/
theorem memoryReadsWhatWasWritten : Obligations.MemoryReadsWhatWasWritten :=
  ⟨fun m a b v hm ha => ⟨Memory.read_write m hm a b v, Memory.write_wf hm ha v⟩,
    fun _ _ b v hm ha => Memory.toNat_read_write2 hm ha v b,
    Memory.toNat_read2,
    fun _ w hm hpc => fetchWord_write2 hm (Nat.lt_succ_of_le hpc) w⟩

end Sys2Proof.Machine

/-! PROOFS. The encoding (30_encoding.md R100 to R111): words and their digits, the round trip in both directions, the
rows of the opcode table, the unknown words. -/

namespace Sys2Proof

/-! Words, bytes and digits. -/

/-- A word is its high byte and then its low byte (R72, R101). -/
@[simp] theorem wordOfBytes_highByte_lowByte (w : BitVec 16) : wordOfBytes (highByte w) (lowByte w) = w := by
  apply BitVec.eq_of_toNat_eq
  rw [wordOfBytes, toNat_append_eq, highByte, lowByte, Machine.toNat_highByte, Machine.toNat_lowByte]
  omega

/-- An 8-bit field made of two digits is those two digits (R103). -/
theorem packK_append (c x y n : BitVec 4) : packK c x (y ++ n) = packR c x y n := by
  apply BitVec.eq_of_toNat_eq
  rw [toNat_packK, toNat_packR, toNat_append_eq]
  omega

/-- The immediate field is the last two digits (R102). -/
theorem fieldKK_eq_append (w : BitVec 16) : fieldKK w = fieldY w ++ fieldN w := by
  apply BitVec.eq_of_toNat_eq
  rw [toNat_append_eq, toNat_fieldKK, toNat_fieldY, toNat_fieldN]
  omega

/-! Packing a word's own fields gives the word back, in each format (R103). -/

theorem packA_fields {w : BitVec 16} {c : BitVec 4} (hC : fieldC w = c) : packA c (fieldNNN w) = w := by
  apply BitVec.eq_of_toNat_eq
  rw [← hC, toNat_packA, toNat_fieldC, toNat_fieldNNN]
  omega

theorem packK_fields {w : BitVec 16} {c : BitVec 4} (hC : fieldC w = c) : packK c (fieldX w) (fieldKK w) = w := by
  apply BitVec.eq_of_toNat_eq
  rw [← hC, toNat_packK, toNat_fieldC, toNat_fieldX, toNat_fieldKK]
  omega

theorem packR_fields {w : BitVec 16} {c : BitVec 4} (hC : fieldC w = c) :
    packR c (fieldX w) (fieldY w) (fieldN w) = w := by
  rw [← packK_append, ← fieldKK_eq_append, packK_fields hC]

/-- A word's `x` field is the top digit of its address field (R104, R136). -/
theorem wf_jpV0_fields (w : BitVec 16) : (Instr.jpV0 (fieldNNN w) (fieldX w)).wf = true := by
  have hX : (fieldNNN w).extractLsb' 8 4 = fieldX w := by rw [← fieldX_packA (fieldC w), packA_fields rfl]
  simp [Instr.wf, hX]

/-! From the instruction to the word and back. -/

/-- Decoding undoes encoding, one constructor at a time (R102 to R109). -/
theorem decodeWord_encode {i : Instr} (h : i.wf = true) : decodeWord (encode i) = some i := by
  cases i with
  | scd n => exact Laws.Encoding.scd n h
  | scu n => exact Laws.Encoding.scu n h
  | cls => exact Laws.Encoding.cls h
  | ret => exact Laws.Encoding.ret h
  | scr => exact Laws.Encoding.scr h
  | scl => exact Laws.Encoding.scl h
  | exit => exact Laws.Encoding.exit h
  | low => exact Laws.Encoding.low h
  | high => exact Laws.Encoding.high h
  | jp nnn => exact Laws.Encoding.jp nnn h
  | call nnn => exact Laws.Encoding.call nnn h
  | seImm x kk => exact Laws.Encoding.seImm x kk h
  | sneImm x kk => exact Laws.Encoding.sneImm x kk h
  | seReg x y => exact Laws.Encoding.seReg x y h
  | ldImm x kk => exact Laws.Encoding.ldImm x kk h
  | addImm x kk => exact Laws.Encoding.addImm x kk h
  | ldReg x y => exact Laws.Encoding.ldReg x y h
  | orReg x y => exact Laws.Encoding.orReg x y h
  | andReg x y => exact Laws.Encoding.andReg x y h
  | xorReg x y => exact Laws.Encoding.xorReg x y h
  | addReg x y => exact Laws.Encoding.addReg x y h
  | subReg x y => exact Laws.Encoding.subReg x y h
  | shr x y => exact Laws.Encoding.shr x y h
  | subn x y => exact Laws.Encoding.subn x y h
  | shl x y => exact Laws.Encoding.shl x y h
  | sneReg x y => exact Laws.Encoding.sneReg x y h
  | ldI nnn => exact Laws.Encoding.ldI nnn h
  | jpV0 nnn x => exact Laws.Encoding.jpV0 nnn x h
  | rnd x kk => exact Laws.Encoding.rnd x kk h
  | drw x y n => exact Laws.Encoding.drw x y n h
  | skp x => exact Laws.Encoding.skp x h
  | sknp x => exact Laws.Encoding.sknp x h
  | ldVxDT x => exact Laws.Encoding.ldVxDT x h
  | ldVxK x => exact Laws.Encoding.ldVxK x h
  | ldDTVx x => exact Laws.Encoding.ldDTVx x h
  | ldSTVx x => exact Laws.Encoding.ldSTVx x h
  | addI x => exact Laws.Encoding.addI x h
  | ldF x => exact Laws.Encoding.ldF x h
  | ldHF x => exact Laws.Encoding.ldHF x h
  | ldB x => exact Laws.Encoding.ldB x h
  | storeRegs x => exact Laws.Encoding.storeRegs x h
  | loadRegs x => exact Laws.Encoding.loadRegs x h
  | saveFlags x => exact Laws.Encoding.saveFlags x h
  | restoreFlags x => exact Laws.Encoding.restoreFlags x h

/-- Two bytes in front of others decode exactly when their word does, and the others are left over. -/
theorem decode_cons_cons_eq_ok_iff {hi lo : Byte} {rest rest' : List Byte} {i : Instr} :
    decode (hi :: lo :: rest) = .ok (i, rest') ↔ decodeWord (wordOfBytes hi lo) = some i ∧ rest' = rest := by
  unfold decode
  cases h : decodeWord (wordOfBytes hi lo) <;> simp [h, eq_comm]

theorem decode_bytes_of_decodeWord {w : BitVec 16} {i : Instr} (h : decodeWord w = some i) (rest : List Byte) :
    decode (highByte w :: lowByte w :: rest) = .ok (i, rest) :=
  decode_cons_cons_eq_ok_iff.mpr ⟨by rw [wordOfBytes_highByte_lowByte, h], rfl⟩

/-- The opcode table numbers the bits of a 16-bit word as the word itself does. -/
theorem decodeTableWord_of_decodeWord {w : BitVec 16} {i : Instr} (h : decodeWord w = some i) :
    decodeTableWord 16 w.toNat = some i := by
  have hw : BitVec.ofNat 16 (w.toNat % 2 ^ 16) = w := by
    rw [Nat.mod_eq_of_lt w.isLt, BitVec.ofNat_toNat, BitVec.setWidth_eq]
  simp only [decodeTableWord, Nat.lt_irrefl, if_false, hw, decode_bytes_of_decodeWord h]

/-- Settles O2: the word decodes back (`decodeWord_encode`), and the other two readings are of the same word. -/
theorem decodeOfEncodeIsTheInstruction : Obligations.DecodeOfEncodeIsTheInstruction := fun _ h =>
  have hd := decodeWord_encode h
  ⟨hd, decode_bytes_of_decodeWord hd, decodeTableWord_of_decodeWord hd⟩

/-! From the word to the instruction and back. -/

/-- The instruction, if there is one, is well formed and encodes to this word. -/
def EncodesBack (w : BitVec 16) (o : Option Instr) : Prop := ∀ i, o = some i → i.wf = true ∧ encode i = w

theorem EncodesBack.none {w : BitVec 16} : EncodesBack w none := fun _ h => nomatch h

theorem EncodesBack.some {w : BitVec 16} {i : Instr} (hwf : i.wf = true) (hw : encode i = w) :
    EncodesBack w (some i) := by
  rintro _ ⟨⟩; exact ⟨hwf, hw⟩

/-- One test of the decoder: the instruction it finds encodes to the word when the test succeeds. -/
theorem EncodesBack.ite {w : BitVec 16} {i : Instr} {o : Option Instr} {p : Prop} [Decidable p] (hwf : i.wf = true)
    (hw : p → encode i = w) (ho : EncodesBack w o) : EncodesBack w (if p then .some i else o) :=
  iteInduction (fun hp => .some hwf (hw hp)) fun _ => ho

/-! The four classes with sub-opcodes: each test fixes the digits the format does not take from the operands. -/

theorem encodesBack_decodeClass0 (x y n : BitVec 4) :
    EncodesBack (packR 0x0 x y n) (decodeClass0 x y n (y ++ n)) := by
  unfold decodeClass0
  refine iteInduction (fun _ => .none) fun hx => ?_
  obtain rfl := not_not.mp hx
  refine .ite rfl (fun h => h ▸ rfl) (.ite rfl (fun h => h ▸ rfl) ?_)
  rw [← packK_append]
  repeat refine .ite rfl (fun h => h ▸ rfl) ?_
  exact .none

theorem encodesBack_decodeClass8 (x y : Reg) (n : BitVec 4) :
    EncodesBack (packR 0x8 x y n) (decodeClass8 x y n) := by
  unfold decodeClass8
  repeat refine .ite rfl (fun h => h ▸ rfl) ?_
  exact .none

theorem encodesBack_decodeClassE (x : Reg) (kk : Byte) : EncodesBack (packK 0xE x kk) (decodeClassE x kk) := by
  unfold decodeClassE
  repeat refine .ite rfl (fun h => h ▸ rfl) ?_
  exact .none

theorem encodesBack_decodeClassF (x : Reg) (kk : Byte) : EncodesBack (packK 0xF x kk) (decodeClassF x kk) := by
  unfold decodeClassF
  repeat refine .ite rfl (fun h => h ▸ rfl) ?_
  exact .none

/-- What a word decodes to, by its class (R106 to R109): six classes test further digits, in the other ten every word
encodes an instruction. -/
inductive DecodeByClass (w : BitVec 16) : Option Instr → Prop
  | zero (hC : fieldC w = 0x0) : DecodeByClass w (decodeClass0 (fieldX w) (fieldY w) (fieldN w) (fieldKK w))
  | five (hC : fieldC w = 0x5) :
      DecodeByClass w (if fieldN w = 0x0 then some (.seReg (fieldX w) (fieldY w)) else none)
  | eight (hC : fieldC w = 0x8) : DecodeByClass w (decodeClass8 (fieldX w) (fieldY w) (fieldN w))
  | nine (hC : fieldC w = 0x9) :
      DecodeByClass w (if fieldN w = 0x0 then some (.sneReg (fieldX w) (fieldY w)) else none)
  | fourteen (hC : fieldC w = 0xE) : DecodeByClass w (decodeClassE (fieldX w) (fieldKK w))
  | fifteen (hC : fieldC w = 0xF) : DecodeByClass w (decodeClassF (fieldX w) (fieldKK w))
  | always {c : BitVec 4} {i : Instr} (hC : fieldC w = c) (hc : c ∉ [0x0, 0x5, 0x8, 0x9, 0xE, 0xF])
      (hwf : i.wf = true) (hw : encode i = w) : DecodeByClass w (some i)

/-- The last of the sixteen digits. -/
theorem eq_fifteen {c : BitVec 4} : c ≠ 0x0 → c ≠ 0x1 → c ≠ 0x2 → c ≠ 0x3 → c ≠ 0x4 → c ≠ 0x5 → c ≠ 0x6 →
    c ≠ 0x7 → c ≠ 0x8 → c ≠ 0x9 → c ≠ 0xA → c ≠ 0xB → c ≠ 0xC → c ≠ 0xD → c ≠ 0xE → c = 0xF := by
  bv_omega

theorem decodeWord_byClass (w : BitVec 16) : DecodeByClass w (decodeWord w) := by
  unfold decodeWord
  refine iteInduction .zero fun h0 => ?_
  refine iteInduction (fun h => .always h (by decide) rfl (packA_fields h)) fun h1 => ?_
  refine iteInduction (fun h => .always h (by decide) rfl (packA_fields h)) fun h2 => ?_
  refine iteInduction (fun h => .always h (by decide) rfl (packK_fields h)) fun h3 => ?_
  refine iteInduction (fun h => .always h (by decide) rfl (packK_fields h)) fun h4 => ?_
  refine iteInduction .five fun h5 => ?_
  refine iteInduction (fun h => .always h (by decide) rfl (packK_fields h)) fun h6 => ?_
  refine iteInduction (fun h => .always h (by decide) rfl (packK_fields h)) fun h7 => ?_
  refine iteInduction .eight fun h8 => ?_
  refine iteInduction .nine fun h9 => ?_
  refine iteInduction (fun h => .always h (by decide) rfl (packA_fields h)) fun hA => ?_
  refine iteInduction (fun h => .always h (by decide) (wf_jpV0_fields w) (packA_fields h)) fun hB => ?_
  refine iteInduction (fun h => .always h (by decide) rfl (packK_fields h)) fun hC => ?_
  refine iteInduction (fun h => .always h (by decide) rfl (packR_fields h)) fun hD => ?_
  refine iteInduction .fourteen fun hE => ?_
  exact .fifteen (eq_fifteen h0 h1 h2 h3 h4 h5 h6 h7 h8 h9 hA hB hC hD hE)

theorem DecodeByClass.encodesBack {w : BitVec 16} {o : Option Instr} (h : DecodeByClass w o) : EncodesBack w o := by
  cases h with
  | zero hC =>
    have h := encodesBack_decodeClass0 (fieldX w) (fieldY w) (fieldN w)
    rwa [← fieldKK_eq_append, packR_fields hC] at h
  | five hC => exact .ite rfl (fun hn => (congrArg (packR _ _ _) hn.symm).trans (packR_fields hC)) .none
  | eight hC =>
    have h := encodesBack_decodeClass8 (fieldX w) (fieldY w) (fieldN w)
    rwa [packR_fields hC] at h
  | nine hC => exact .ite rfl (fun hn => (congrArg (packR _ _ _) hn.symm).trans (packR_fields hC)) .none
  | fourteen hC =>
    have h := encodesBack_decodeClassE (fieldX w) (fieldKK w)
    rwa [packK_fields hC] at h
  | fifteen hC =>
    have h := encodesBack_decodeClassF (fieldX w) (fieldKK w)
    rwa [packK_fields hC] at h
  | always hC hc hwf hw => exact .some hwf hw

/-- Settles O3, class by class (`DecodeByClass.encodesBack`). -/
theorem encodeOfDecodeIsTheWord : Obligations.EncodeOfDecodeIsTheWord :=
  fun w => (decodeWord_byClass w).encodesBack

/-! The unknown words. -/

/-- One test of the decoder rejects when it fails and the tests after it reject. -/
theorem ite_some_eq_none_iff {i : Instr} {o : Option Instr} {p : Prop} [Decidable p] :
    (if p then some i else o) = none ↔ ¬ p ∧ o = none := by
  by_cases hp : p <;> simp [hp]

theorem decodeClass0_eq_none_iff {x y n : BitVec 4} {kk : Byte} :
    decodeClass0 x y n kk = none ↔
      x ≠ 0 ∨ (y ≠ 0xC ∧ y ≠ 0xD ∧ kk ∉ [0xE0, 0xEE, 0xFB, 0xFC, 0xFD, 0xFE, 0xFF]) := by
  by_cases hx : x = 0#4 <;> simp [decodeClass0, ite_some_eq_none_iff, hx]

theorem decodeClass8_eq_none_iff {x y n : BitVec 4} :
    decodeClass8 x y n = none ↔ n ∉ [0x0, 0x1, 0x2, 0x3, 0x4, 0x5, 0x6, 0x7, 0xE] := by
  simp [decodeClass8, ite_some_eq_none_iff]

theorem decodeClassE_eq_none_iff {x : Reg} {kk : Byte} : decodeClassE x kk = none ↔ kk ∉ [0x9E, 0xA1] := by
  simp [decodeClassE, ite_some_eq_none_iff]

theorem decodeClassF_eq_none_iff {x : Reg} {kk : Byte} :
    decodeClassF x kk = none ↔
      kk ∉ [0x07, 0x0A, 0x15, 0x18, 0x1E, 0x29, 0x30, 0x33, 0x55, 0x65, 0x75, 0x85] := by
  simp [decodeClassF, ite_some_eq_none_iff]

/-- The digits of an unknown word, class by class (R111). -/
def HasUnknownDigits (w : BitVec 16) : Prop :=
  (fieldC w = 0x0 ∧ (fieldX w ≠ 0x0 ∨ (fieldY w ≠ 0xC ∧ fieldY w ≠ 0xD ∧
    fieldKK w ∉ [0xE0, 0xEE, 0xFB, 0xFC, 0xFD, 0xFE, 0xFF]))) ∨
  (fieldC w = 0x5 ∧ fieldN w ≠ 0x0) ∨
  (fieldC w = 0x8 ∧ fieldN w ∉ [0x0, 0x1, 0x2, 0x3, 0x4, 0x5, 0x6, 0x7, 0xE]) ∨
  (fieldC w = 0x9 ∧ fieldN w ≠ 0x0) ∨
  (fieldC w = 0xE ∧ fieldKK w ∉ [0x9E, 0xA1]) ∨
  (fieldC w = 0xF ∧ fieldKK w ∉ [0x07, 0x0A, 0x15, 0x18, 0x1E, 0x29, 0x30, 0x33, 0x55, 0x65, 0x75, 0x85])

theorem DecodeByClass.eq_none_iff {w : BitVec 16} {o : Option Instr} (h : DecodeByClass w o) :
    o = none ↔ HasUnknownDigits w := by
  unfold HasUnknownDigits
  cases h with
  | zero hC => rw [decodeClass0_eq_none_iff]; simp [hC]
  | five hC => simp [hC]
  | eight hC => rw [decodeClass8_eq_none_iff]; simp [hC]
  | nine hC => simp [hC]
  | fourteen hC => rw [decodeClassE_eq_none_iff]; simp [hC]
  | fifteen hC => rw [decodeClassF_eq_none_iff]; simp [hC]
  | always hC hc hwf hw =>
    subst hC
    refine iff_of_false (by simp) fun hU => hc ?_
    rcases hU with ⟨h, -⟩ | ⟨h, -⟩ | ⟨h, -⟩ | ⟨h, -⟩ | ⟨h, -⟩ | ⟨h, -⟩ <;> simp [h]

theorem decodeWord_eq_none_iff {w : BitVec 16} : decodeWord w = none ↔ HasUnknownDigits w :=
  (decodeWord_byClass w).eq_none_iff

/-- Settles O5: the digits of an unknown word, as the numbers R111 lists. -/
theorem unknownWordsAreExactlyThoseListed : Obligations.UnknownWordsAreExactlyThoseListed := by
  intro w
  rw [decodeWord_eq_none_iff, HasUnknownDigits]
  simp only [← BitVec.toNat_inj, ne_eq, List.mem_cons, List.not_mem_nil, or_false, not_or, toNat_fieldC, toNat_fieldX,
    toNat_fieldY, toNat_fieldN, toNat_fieldKK, BitVec.ofNat_eq_ofNat, BitVec.reduceToNat]
  refine or_congr ?zero (or_congr Iff.rfl (or_congr ?eight Iff.rfl))
  case zero => omega
  case eight => omega

/-! The rows of the opcode table. -/

theorem fieldC_and (a b : BitVec 16) : fieldC (a &&& b) = fieldC a &&& fieldC b := BitVec.extractLsb'_and
theorem fieldX_and (a b : BitVec 16) : fieldX (a &&& b) = fieldX a &&& fieldX b := BitVec.extractLsb'_and
theorem fieldY_and (a b : BitVec 16) : fieldY (a &&& b) = fieldY a &&& fieldY b := BitVec.extractLsb'_and
theorem fieldN_and (a b : BitVec 16) : fieldN (a &&& b) = fieldN a &&& fieldN b := BitVec.extractLsb'_and
theorem fieldKK_and (a b : BitVec 16) : fieldKK (a &&& b) = fieldKK a &&& fieldKK b := BitVec.extractLsb'_and

/-- Masking works digit by digit. -/
theorem and_packR (w : BitVec 16) (c x y n : BitVec 4) :
    w &&& packR c x y n = packR (fieldC w &&& c) (fieldX w &&& x) (fieldY w &&& y) (fieldN w &&& n) := by
  rw [← packR_fields (w := w &&& packR c x y n) rfl, fieldC_and, fieldX_and, fieldY_and, fieldN_and,
    fieldC_packR, fieldX_packR, fieldY_packR, fieldN_packR]

theorem digit_and_F (d : BitVec 4) : d &&& 0xF = d := BitVec.and_allOnes
theorem byte_and_FF (b : Byte) : b &&& 0xFF = b := BitVec.and_allOnes

/-! What each mask of the table keeps of a word (R106 to R109). -/

theorem and_F000 (w : BitVec 16) : w &&& 0xF000 = packR (fieldC w) 0 0 0 := by
  show w &&& packR 0xF 0x0 0x0 0x0 = _
  rw [and_packR, digit_and_F]; simp

theorem and_F00F (w : BitVec 16) : w &&& 0xF00F = packR (fieldC w) 0 0 (fieldN w) := by
  show w &&& packR 0xF 0x0 0x0 0xF = _
  rw [and_packR, digit_and_F, digit_and_F]; simp

theorem and_FFF0 (w : BitVec 16) : w &&& 0xFFF0 = packR (fieldC w) (fieldX w) (fieldY w) 0 := by
  show w &&& packR 0xF 0xF 0xF 0x0 = _
  simp only [and_packR, digit_and_F]; simp

theorem and_F0FF (w : BitVec 16) : w &&& 0xF0FF = packK (fieldC w) 0 (fieldKK w) := by
  show w &&& packR 0xF 0x0 0xF 0xF = _
  simp only [and_packR, digit_and_F, fieldKK_eq_append, packK_append]; simp

/-- An instruction's row selects its encoding, by the row's mask (R105). -/
theorem encode_and_row_mask (i : Instr) : encode i &&& i.row.mask = i.row.value := by
  cases i with
  | jp nnn | call nnn | ldI nnn | jpV0 nnn x => exact (and_F000 _).trans (by rw [encode, fieldC_packA]; rfl)
  | seImm x kk | sneImm x kk | ldImm x kk | addImm x kk | rnd x kk =>
    exact (and_F000 _).trans (by rw [encode, fieldC_packK]; rfl)
  | drw x y n => exact (and_F000 _).trans (by rw [encode, fieldC_packR]; rfl)
  | seReg x y | sneReg x y | ldReg x y | orReg x y | andReg x y | xorReg x y | addReg x y | subReg x y | shr x y
  | subn x y | shl x y => exact (and_F00F _).trans (by rw [encode, fieldC_packR, fieldN_packR]; rfl)
  | skp x | sknp x | ldVxDT x | ldVxK x | ldDTVx x | ldSTVx x | addI x | ldF x | ldHF x | ldB x | storeRegs x
  | loadRegs x | saveFlags x | restoreFlags x =>
    exact (and_F0FF _).trans (by rw [encode, fieldC_packK, fieldKK_packK]; rfl)
  | scd n | scu n => exact (and_FFF0 _).trans (by rw [encode, fieldC_packR, fieldX_packR, fieldY_packR]; rfl)
  | cls | ret | scr | scl | exit | low | high => rfl

theorem row_mem_opcodeTable (i : Instr) : i.row ∈ opcodeTable := by
  cases i <;> simp only [Instr.row] <;> decide

theorem opcodeTable_nodup : opcodeTable.Nodup := by decide

/-- Two different rows of the table disagree on a bit that both masks keep. -/
theorem opcodeTable_disagree :
    ∀ r ∈ opcodeTable, ∀ q ∈ opcodeTable, r.value &&& q.mask = q.value &&& r.mask → r = q := by
  decide

/-- No word matches two rows (R105). -/
theorem row_unique {r q : OpcodeRow} (hr : r ∈ opcodeTable) (hq : q ∈ opcodeTable) {w : BitVec 16}
    (hwr : w &&& r.mask = r.value) (hwq : w &&& q.mask = q.value) : r = q := by
  refine opcodeTable_disagree r hr q hq ?_
  rw [← hwr, ← hwq, BitVec.and_assoc, BitVec.and_assoc, BitVec.and_comm r.mask]

/-- The row's mask covers every digit the decoder tests in the row's class (R106 to R109). -/
def OpcodeRow.FixesTestedDigits (r : OpcodeRow) : Prop :=
  fieldC r.mask = 0xF ∧
  (fieldC r.value = 0x0 → fieldX r.mask = 0xF ∧ fieldY r.mask = 0xF ∧
    (fieldY r.value = 0xC ∨ fieldY r.value = 0xD ∨ fieldKK r.mask = 0xFF)) ∧
  (fieldC r.value ∈ [0x5, 0x8, 0x9] → fieldN r.mask = 0xF) ∧
  (fieldC r.value ∈ [0xE, 0xF] → fieldKK r.mask = 0xFF)

theorem opcodeTable_fixesTestedDigits : ∀ r ∈ opcodeTable, r.FixesTestedDigits := by
  unfold OpcodeRow.FixesTestedDigits
  decide

/-- The word of a row whose operand digits are all 0 is known. -/
theorem opcodeTable_decodes : ∀ r ∈ opcodeTable, decodeWord r.value ≠ none := by
  decide

/-- Two words of one class that agree on the digits the decoder tests there are unknown together. -/
theorem HasUnknownDigits.congr {w v : BitVec 16} (hC : fieldC w = fieldC v)
    (hzero : fieldC v = 0x0 → fieldX w = fieldX v ∧ fieldY w = fieldY v ∧
      (fieldY v = 0xC ∨ fieldY v = 0xD ∨ fieldKK w = fieldKK v))
    (hN : fieldC v ∈ [0x5, 0x8, 0x9] → fieldN w = fieldN v) (hKK : fieldC v ∈ [0xE, 0xF] → fieldKK w = fieldKK v)
    (hU : HasUnknownDigits w) : HasUnknownDigits v := by
  unfold HasUnknownDigits at hU ⊢
  rw [hC] at hU
  rcases hU with ⟨hc, hU⟩ | ⟨hc, hU⟩ | ⟨hc, hU⟩ | ⟨hc, hU⟩ | ⟨hc, hU⟩ | ⟨hc, hU⟩
  · obtain ⟨hX, hY, hYKK⟩ := hzero hc
    rw [hX, hY] at hU
    refine .inl ⟨hc, hU.imp_right fun ⟨hYC, hYD, hlisted⟩ => ⟨hYC, hYD, ?_⟩⟩
    rwa [← (hYKK.resolve_left hYC).resolve_left hYD]
  · exact .inr (.inl ⟨hc, hN (by simp [hc]) ▸ hU⟩)
  · exact .inr (.inr (.inl ⟨hc, hN (by simp [hc]) ▸ hU⟩))
  · exact .inr (.inr (.inr (.inl ⟨hc, hN (by simp [hc]) ▸ hU⟩)))
  · exact .inr (.inr (.inr (.inr (.inl ⟨hc, hKK (by simp [hc]) ▸ hU⟩))))
  · exact .inr (.inr (.inr (.inr (.inr ⟨hc, hKK (by simp [hc]) ▸ hU⟩))))

/-- A word a row selects is known, because the row's own value is and has the same tested digits. -/
theorem decodeWord_ne_none_of_row {r : OpcodeRow} (hr : r ∈ opcodeTable) {w : BitVec 16}
    (hsel : w &&& r.mask = r.value) : decodeWord w ≠ none := by
  obtain ⟨hC, hzero, hN, hKK⟩ := opcodeTable_fixesTestedDigits r hr
  have hv := opcodeTable_decodes r hr
  rw [ne_eq, decodeWord_eq_none_iff] at hv ⊢
  refine fun hU => hv (hU.congr ?_ (fun hc => ?_) (fun hc => ?_) fun hc => ?_)
  · rw [← hsel, fieldC_and, hC, digit_and_F]
  · obtain ⟨hX, hY, hYKK⟩ := hzero hc
    refine ⟨?_, ?_, hYKK.imp_right (Or.imp_right fun hm => ?_)⟩
    · rw [← hsel, fieldX_and, hX, digit_and_F]
    · rw [← hsel, fieldY_and, hY, digit_and_F]
    · rw [← hsel, fieldKK_and, hm, byte_and_FF]
  · rw [← hsel, fieldN_and, hN hc, digit_and_F]
  · rw [← hsel, fieldKK_and, hKK hc, byte_and_FF]

/-- A decoded word is selected by its instruction's row and by no other. -/
theorem selects_iff_of_decodeWord {w : BitVec 16} {i : Instr} (h : decodeWord w = some i) {r : OpcodeRow}
    (hr : r ∈ opcodeTable) : w &&& r.mask = r.value ↔ r = i.row := by
  have hsel : w &&& i.row.mask = i.row.value := by
    rw [← (encodeOfDecodeIsTheWord w i h).2, encode_and_row_mask]
  exact ⟨fun hw => row_unique hr (row_mem_opcodeTable i) hw hsel, fun hri => hri ▸ hsel⟩

/-- Settles O4: on the table, being selected by the word is being its instruction's row. -/
theorem decodingSelectsTheMatchingRow : Obligations.DecodingSelectsTheMatchingRow := by
  intro w
  cases h : decodeWord w with
  | none => exact fun r hr hsel => decodeWord_ne_none_of_row hr hsel h
  | some i =>
    have hpred : ∀ r ∈ opcodeTable, (w &&& r.mask == r.value) = (r == i.row) := fun r hr => by
      rw [Bool.eq_iff_iff, beq_iff_eq, beq_iff_eq]
      exact selects_iff_of_decodeWord h hr
    show opcodeTable.filter _ = _
    rw [List.filter_congr hpred, List.filter_beq,
      List.count_eq_one_of_mem opcodeTable_nodup (row_mem_opcodeTable i), List.replicate_one]

/-- A word no row selects is unknown (R105, R110). -/
theorem decodeWord_eq_none_of_no_row {w : BitVec 16} (h : ∀ r ∈ opcodeTable, w &&& r.mask ≠ r.value) :
    decodeWord w = none := by
  cases hd : decodeWord w with
  | none => rfl
  | some i =>
    have hi := row_mem_opcodeTable i
    exact absurd ((selects_iff_of_decodeWord hd hi).mpr rfl) (h i.row hi)

/-- Settles O1: each word is written out, so the decoder is run on it. -/
theorem specWordsDecode : Obligations.SpecWordsDecode := by
  unfold Obligations.SpecWordsDecode
  decide

end Sys2Proof

/-! PROOFS. The step around an instruction (46_scheduler_step.md R270, R280, R282, R283; 45_system.md R262). -/

namespace Sys2Proof.Machine

/-- Continuations compose. -/
theorem onNext_onNext (o : Result) (f g : State → Result) :
    onNext (onNext o f) g = onNext o fun s => onNext (f s) g := by
  cases o <;> rfl

/-- The pacing condition with the thresholds written out is the executor's own (R39, R282). -/
theorem executorDue_accumulateCpu {u : State} (hf : u.faulted = false) (hp : u.PacedNow) :
    executorDue (accumulateCpu u) = true := by
  have hf' : (accumulateCpu u).faulted = false := hf
  rw [executorDue, hf', Bool.not_false, Bool.true_and, due, Bool.or_eq_true, beq_iff_eq, decide_eq_true_iff]
  refine or_iff_not_imp_left.mpr fun h0 => ?_
  have hmax : cpuMax u.config = 1000 / u.config.cpuFreq := if_neg h0
  show (cpuMax u.config).toNat ≤ _
  rw [hmax]
  exact hp.resolve_left h0

/-- A fetch inside memory runs the fetched word (R270). -/
theorem execute_inRange {s : State} (hpc : s.pc.toNat + 1 ≤ lastAddr) :
    execute s = onNext (runWord (fetchWord s) (advancePc s)) fun t =>
      .next (if t.faulted then t else collapseKeys t) :=
  if_neg (Nat.not_lt.mpr hpc)

/-- The keypad collapse at the end of an instruction does not touch the fault latch. -/
theorem faulted_collapse (t : State) : State.faulted (if t.faulted then t else collapseKeys t) = t.faulted := by
  split <;> rfl

/-- A due step with a fetch inside memory, whatever the word (R270, R280, R282, R283). -/
theorem step_runWord {s u : State} (hu : u = sampled (hostTurn s)) (hf : u.faulted = false) (hp : u.PacedNow)
    (hpc : u.pc.toNat + 1 ≤ lastAddr) :
    step s = onNext (runWord (u.mem.read2 u.pc.toNat) { u with cpuCum := 0, pc := u.pc + 2 }) fun t =>
      .next (timingParts { (if t.faulted then t else collapseKeys t) with executed := !t.faulted }) := by
  have he := execute_inRange (s := { accumulateCpu u with cpuCum := 0 }) hpc
  rw [step, schedulerStep, ← hu, executorPart_due (executorDue_accumulateCpu hf hp), he, onNext_onNext, onNext_onNext]
  simp only [onNext_next, faulted_collapse]
  rfl

theorem runWord_some {w : BitVec 16} {i : Instr} (h : decodeWord w = some i) (s : State) : runWord w s = exec i s := by
  rw [runWord, h]

theorem runWord_none {w : BitVec 16} (h : decodeWord w = none) (s : State) : runWord w s = .next s := by
  rw [runWord, h]; rfl

/-- Settles O6: the two bytes at `pc` are the word `step_runWord` runs. -/
theorem stepRunsTheDecodedInstruction : Obligations.StepRunsTheDecodedInstruction := by
  intro s u i hu hf hp hpc hd
  have hw : decodeWord (u.mem.read2 u.pc.toNat) = some i := (decode_cons_cons_eq_ok_iff.mp hd).1
  rw [step_runWord hu hf hp hpc, runWord_some hw]

/-- The delay timer after part (c) (R284). -/
theorem delayPart_dt (s : State) : (delayPart s).dt =
    if due s.config.timerFreq (s.delayCum + s.elapsed) (timerMax s.config) then tick s.dt else s.dt := by
  unfold delayPart
  dsimp only
  split <;> rfl

/-- The sound timer after part (c) (R285). -/
theorem soundPart_st (s : State) : (soundPart s).st =
    if due s.config.timerFreq (s.soundCum + s.elapsed) (timerMax s.config) then tick s.st else s.st := by
  unfold soundPart
  dsimp only
  split <;> rfl

/-- After part (c) nothing in the step reaches the delay timer. -/
theorem timingParts_dt (s : State) : (timingParts s).dt = (delayPart s).dt := by
  unfold timingParts refreshPart beepPart soundPart
  dsimp only
  split <;> split <;> rfl

/-- The delay timer's tick does not reach the sound timer, nor does anything after part (c). -/
theorem timingParts_st (s : State) : (timingParts s).st = (soundPart s).st := by
  have hrest : (timingParts s).st = (soundPart (delayPart s)).st := by
    unfold timingParts refreshPart beepPart
    dsimp only
    split <;> rfl
  rw [hrest, soundPart_st, soundPart_st]
  unfold delayPart
  dsimp only
  split <;> rfl

/-- Part (b) of a due step over an unknown word (R262, R282, R283). -/
def noOpExecuted (u : State) : State :=
  { collapseKeys { u with cpuCum := 0, pc := u.pc + 2 } with executed := true }

/-- A due step over an unknown word executes the no-op, then the timing parts (R110, R262). -/
theorem step_unknownWord {s u : State} (hu : u = sampled (hostTurn s)) (hf : u.faulted = false) (hp : u.PacedNow)
    (hpc : u.pc.toNat + 1 ≤ lastAddr) (hw : decodeWord (u.mem.read2 u.pc.toNat) = none) :
    step s = .next (timingParts (noOpExecuted u)) := by
  have hf' : State.faulted { u with cpuCum := 0, pc := u.pc + 2 } = false := hf
  rw [step_runWord hu hf hp hpc, runWord_none hw, onNext_next, hf']
  rfl

/-- Settles O7: the word is unknown because no row selects it, and the timing parts leave the no-op's state alone but
for their own fields. -/
theorem unknownWordIsAnExecutedNoOp : Obligations.UnknownWordIsAnExecutedNoOp := by
  intro s u hu hf hp hpc hrow
  have hw : decodeWord (u.mem.read2 u.pc.toNat) = none := decodeWord_eq_none_of_no_row hrow
  have hkeys : ∀ k, (noOpExecuted u).key k = if u.key k = .released then .up else u.key k := key_collapseKeys _
  have hdt : (timingParts (noOpExecuted u)).dt = (delayPart u).dt := by
    rw [timingParts_dt, delayPart_dt, delayPart_dt]; rfl
  have hst : (timingParts (noOpExecuted u)).st = (soundPart u).st := by
    rw [timingParts_st, soundPart_st, soundPart_st]; rfl
  refine ⟨_, step_unknownWord hu hf hp hpc hw, ?_⟩
  rw [hdt, hst, timingParts_rest]
  exact ⟨rfl, rfl, rfl, hkeys, rfl, rfl, rfl, rfl, rfl, rfl, rfl, rfl, hf, rfl, rfl⟩

end Sys2Proof.Machine

/-! PROOFS. Control transfer (40_control_flow.md R131 to R141): targets as numbers, the stack, the skips. -/

namespace Sys2Proof.Machine

/-- A 12-bit target is zero-extended (R104, R131). -/
@[simp] theorem toNat_addrOf (nnn : BitVec 12) : (addrOf nnn).toNat = nnn.toNat :=
  BitVec.toNat_setWidth_of_le (by decide)

/-- A register's value is zero-extended (R136, R182). -/
@[simp] theorem toNat_wide (b : Byte) : (wide b).toNat = b.toNat :=
  BitVec.toNat_setWidth_of_le (by decide)

/-- An index added to a 12-bit base is at most 0x10FE, so no bit of the sum is lost (R136). -/
theorem toNat_addrOf_add_wide (nnn : BitVec 12) (b : Byte) : (addrOf nnn + wide b).toNat = nnn.toNat + b.toNat := by
  have hn : nnn.toNat < 4096 := nnn.isLt
  have hb : b.toNat < 256 := b.isLt
  rw [BitVec.toNat_add_of_lt (by rw [toNat_addrOf, toNat_wide]; omega), toNat_addrOf, toNat_wide]

/-- A skip writes `pc` alone (R138 to R141, R245, R246). -/
theorem skipWhen_eq (taken : Bool) (s : State) :
    skipWhen taken s = .next { s with pc := if taken then s.pc + 2 else s.pc } := by
  cases taken <;> rfl

/-- A skip on equality (R138, R140). -/
theorem skipWhen_beq (a b : Byte) (s : State) :
    skipWhen (a == b) s = .next { s with pc := if a = b then s.pc + 2 else s.pc } := by
  simp only [skipWhen_eq, beq_iff_eq]

/-- A skip on difference (R139, R141). -/
theorem skipWhen_bne (a b : Byte) (s : State) :
    skipWhen (a != b) s = .next { s with pc := if a = b then s.pc else s.pc + 2 } := by
  simp only [skipWhen_eq, bne_iff_ne, ne_eq, ite_not]

/-- 2nnn is a push of the address after it, then a jump (R132). -/
theorem exec_call (nnn : BitVec 12) (s : State) :
    exec (.call nnn) s = push s.pc (fun t => t.setPc (addrOf nnn)) s := rfl

/-- 00EE is a pop into `pc` (R134). -/
theorem exec_ret (s : State) : exec .ret s = popPc s := rfl

/-- Settles O11: a legal `STACK_END` keeps the entry inside memory, so a push with room stores it (`push_room`); without
room the push only takes its fault (`push_full`). -/
theorem callPushesAndJumps : Obligations.CallPushesAndJumps := by
  intro nnn s hp hm
  obtain ⟨-, hend, -⟩ := Params.wf_bounds hp
  refine ⟨rfl, fun hroom => ?_, fun hfull => ⟨_, (exec_call nnn s).trans (push_full hfull), rfl, rfl⟩⟩
  have hsp : s.sp.toNat + 1 ≤ 0x0FFF := by omega
  have hsp2 : (s.sp + 2).toNat = s.sp.toNat + 2 := BitVec.toNat_add_of_lt (show s.sp.toNat + 2 < 65536 by omega)
  have hread := Memory.toNat_read_write2 hm (Nat.lt_succ_of_le hsp) s.pc
  refine ⟨_, (exec_call nnn s).trans (push_room hroom hsp), toNat_addrOf nnn, hsp2, ?_, ?_, ?_, rfl⟩
  · exact (hread _).trans (if_pos rfl)
  · exact (hread _).trans (by rw [if_neg (Nat.succ_ne_self _), if_pos rfl])
  · intro a h0 h1
    exact BitVec.eq_of_toNat_eq ((hread a).trans (by rw [if_neg h0, if_neg h1]))

/-- Settles O12: `SP` within a legal `STACK_END` keeps the entry inside memory, so a stack that holds one pops it
(`popPc_entry`); an empty one only takes its fault (`popPc_empty`). -/
theorem returnPopsTheAddress : Obligations.ReturnPopsTheAddress := by
  intro s hp hs
  obtain ⟨-, hend, -⟩ := Params.wf_bounds hp
  refine ⟨rfl, fun hentry => ?_, fun hempty => ⟨_, (exec_ret s).trans (popPc_empty hempty), rfl, rfl⟩⟩
  have htop : s.sp.toNat ≤ 0x1000 := by omega
  have hsp2 : (s.sp - 2).toNat = s.sp.toNat - 2 := BitVec.toNat_sub_of_le (show 2 ≤ s.sp.toNat by omega)
  have hlow : s.sp.toNat - 2 + 1 = s.sp.toNat - 1 := by omega
  refine ⟨_, (exec_ret s).trans (popPc_entry hentry htop), hsp2, ?_, rfl⟩
  exact (Memory.toNat_read2 s.mem (s.sp.toNat - 2)).trans (by rw [hlow])

/-- Settles O10: the target is `nnn` zero-extended, and only `pc` is written. -/
theorem jumpGoesToItsTarget : Obligations.JumpGoesToItsTarget :=
  fun nnn s => ⟨rfl, s.setPc (addrOf nnn), rfl, toNat_addrOf nnn, rfl⟩

/-- Settles O13: the sum fits in `pc` whichever register the quirk selects. -/
theorem indexedJumpAddsTheRegister : Obligations.IndexedJumpAddsTheRegister :=
  fun nnn x s _ => ⟨rfl, s.setPc (indexedTarget s nnn x), rfl, rfl, toNat_addrOf_add_wide nnn _⟩

/-- Settles O14: two skips on equality and two on difference. -/
theorem compareSkipsMovePcByTwo : Obligations.CompareSkipsMovePcByTwo :=
  fun _ _ _ s => ⟨⟨rfl, skipWhen_beq _ _ s⟩, ⟨rfl, skipWhen_bne _ _ s⟩, ⟨rfl, skipWhen_beq _ _ s⟩,
    ⟨rfl, skipWhen_bne _ _ s⟩⟩

end Sys2Proof.Machine

/-! PROOFS. Loads, arithmetic, logic, shifts, random (41_load_alu.md R150 to R168): results and flags as numbers, a
register or a flagged result written alone, who draws from the generator. -/

namespace Sys2Proof.Machine

/-! What a register write and a flagged result leave, register by register. -/

theorem State.getV_setV_of_ne (s : State) {x y : Reg} (b : Byte) (h : y ≠ x) : (s.setV x b).getV y = s.getV y := by
  rw [State.getV_setV, if_neg h]

/-- VF holds the flag even when it is the destination (R151). -/
theorem State.getV_regVF_setFlagged (s : State) (x : Reg) (r : Flagged) :
    (s.setFlagged x r).getV regVF = flagByte r.flag := by
  rw [State.getV_setFlagged, if_pos rfl]

theorem State.getV_setFlagged_same (s : State) {x : Reg} (r : Flagged) (h : x ≠ regVF) :
    (s.setFlagged x r).getV x = r.value := by
  rw [State.getV_setFlagged, if_neg h, if_pos rfl]

theorem State.getV_setFlagged_of_ne (s : State) {x y : Reg} (r : Flagged) (hx : y ≠ x) (hvf : y ≠ regVF) :
    (s.setFlagged x r).getV y = s.getV y := by
  rw [State.getV_setFlagged, if_neg hvf, if_neg hx]

/-- An instruction that answers a flagged result: `n` in its destination unless that is VF, `f` in VF, no other
register and no other field (R151). -/
theorem exists_next_setFlagged (s : State) (x : Reg) (r : Flagged) {n f : Nat} (hn : r.value.toNat = n)
    (hf : (flagByte r.flag).toNat = f) :
    ∃ t : State, (.next (s.setFlagged x r) : Result) = .next t ∧
      (x ≠ 15 → (t.getV x).toNat = n) ∧ (t.getV 15).toNat = f ∧
      (∀ y, y ≠ x → y ≠ 15 → t.getV y = s.getV y) ∧ t = { s with v := t.v } := by
  refine ⟨s.setFlagged x r, rfl, fun hx => ?_, ?_, fun y => s.getV_setFlagged_of_ne r, s.setFlagged_eq x r⟩
  · rw [s.getV_setFlagged_same r hx, hn]
  · rw [s.getV_regVF_setFlagged x r, hf]

/-! Results and flags as numbers (R150, R151). -/

@[simp] theorem toNat_flagByte (b : Bool) : (flagByte b).toNat = b.toNat := by
  cases b <;> rfl

/-- A flag that answers a question is 1 when the answer is yes. -/
theorem toNat_flagByte_decide (p : Prop) [Decidable p] : (flagByte (decide p)).toNat = if p then 1 else 0 :=
  (toNat_flagByte _).trans (apply_ite Bool.toNat p true false)

/-- A flag that is a bit of a byte is that binary digit. -/
theorem toNat_flagByte_getLsbD (b : Byte) (j : Nat) : (flagByte (b.getLsbD j)).toNat = b.toNat / 2 ^ j % 2 :=
  (toNat_flagByte _).trans (Nat.toNat_testBit b.toNat j)

/-- The sum's low eight bits (R158). -/
theorem toNat_addFlagged_value (a b : Byte) : (addFlagged a b).value.toNat = (a.toNat + b.toNat) % 256 := by
  rw [addFlagged_value, BitVec.toNat_add]

/-- The carry out of the full sum (R158). -/
theorem toNat_addFlagged_flag (a b : Byte) :
    (flagByte (addFlagged a b).flag).toNat = if 255 < a.toNat + b.toNat then 1 else 0 :=
  toNat_flagByte_decide _

/-- The difference, the minuend first; 256 keeps the subtraction in the naturals (R160, R163). -/
theorem toNat_subFlagged_value (a b : Byte) : (subFlagged a b).value.toNat = (a.toNat + 256 - b.toNat) % 256 := by
  have hb : b.toNat < 256 := b.isLt
  rw [subFlagged_value, BitVec.toNat_sub]
  omega

/-- The flag is the absence of a borrow (R160, R163). -/
theorem toNat_subFlagged_flag (a b : Byte) :
    (flagByte (subFlagged a b).flag).toNat = if b.toNat ≤ a.toNat then 1 else 0 :=
  toNat_flagByte_decide _

/-- A shift right halves (R162). -/
theorem toNat_shrFlagged_value (v : Byte) : (shrFlagged v).value.toNat = v.toNat / 2 :=
  BitVec.toNat_ushiftRight v 1

/-- R162: the lowest bit goes out. -/
theorem toNat_shrFlagged_flag (v : Byte) : (flagByte (shrFlagged v).flag).toNat = v.toNat % 2 := by
  have hbit : (flagByte (shrFlagged v).flag).toNat = v.toNat / 1 % 2 := toNat_flagByte_getLsbD v 0
  rw [hbit, Nat.div_one]

/-- A shift left doubles, modulo 256 (R164). -/
theorem toNat_shlFlagged_value (v : Byte) : (shlFlagged v).value.toNat = 2 * v.toNat % 256 := by
  have hshift : (shlFlagged v).value.toNat = v.toNat <<< 1 % 256 := BitVec.toNat_shiftLeft
  rw [hshift, Nat.shiftLeft_eq, Nat.mul_comm]

/-- R164: the highest bit goes out, the byte's quotient by 128. -/
theorem toNat_shlFlagged_flag (v : Byte) : (flagByte (shlFlagged v).flag).toNat = v.toNat / 128 := by
  have hv : v.toNat < 256 := v.isLt
  have hbit : (flagByte (shlFlagged v).flag).toNat = v.toNat / 128 % 2 := toNat_flagByte_getLsbD v 7
  omega

/-! The flag writers. -/

/-- Settles O18: 8xy4 answers the flagged sum. -/
theorem addWritesSumThenCarry : Obligations.AddWritesSumThenCarry :=
  fun x _ s => ⟨rfl, exists_next_setFlagged s x _ (toNat_addFlagged_value _ _) (toNat_addFlagged_flag _ _)⟩

/-- Settles O19: 8xy5 and 8xy7 answer the flagged difference, with the operands in either order. -/
theorem subtractsWriteDifferenceThenNoBorrow : Obligations.SubtractsWriteDifferenceThenNoBorrow :=
  fun x _ s =>
    ⟨⟨rfl, exists_next_setFlagged s x _ (toNat_subFlagged_value _ _) (toNat_subFlagged_flag _ _)⟩,
      ⟨rfl, exists_next_setFlagged s x _ (toNat_subFlagged_value _ _) (toNat_subFlagged_flag _ _)⟩⟩

/-- Settles O20: the quirk's choice of the source is `shiftSource`, and the shifts answer its flagged shift. -/
theorem shiftsMoveOneBitIntoVF : Obligations.ShiftsMoveOneBitIntoVF := by
  intro x y s v hv
  obtain rfl : v = shiftSource s x y := hv
  exact ⟨⟨rfl, exists_next_setFlagged s x _ (toNat_shrFlagged_value _) (toNat_shrFlagged_flag _)⟩,
    ⟨rfl, exists_next_setFlagged s x _ (toNat_shlFlagged_value _) (toNat_shlFlagged_flag _)⟩⟩

/-! The generator. -/

/-- The next state, if the result is one, has the generator where `s` has it. -/
def KeepsRng (s : State) (o : Result) : Prop := ∀ t, o = .next t → t.rng = s.rng

theorem KeepsRng.next {s t : State} (h : t.rng = s.rng) : KeepsRng s (.next t) := by
  rintro _ ⟨⟩; exact h

/-- A stop of the model answers no next state. -/
theorem KeepsRng.stop {s : State} (r : Fault) : KeepsRng s (.fault r) :=
  fun _ h => nomatch h

theorem KeepsRng.ite {s : State} {p : Prop} [Decidable p] {a b : Result} (ha : KeepsRng s a) (hb : KeepsRng s b) :
    KeepsRng s (if p then a else b) := by
  split
  · exact ha
  · exact hb

theorem KeepsRng.skipWhen {s : State} (b : Bool) : KeepsRng s (skipWhen b s) := by
  rw [skipWhen_eq]; exact .next rfl

/-- An access through `I` draws only if its effect does (R76). -/
theorem KeepsRng.throughI {s : State} {k : Nat} {effect : State → State} (h : (effect s).rng = s.rng) :
    KeepsRng s (throughI k effect s) :=
  .ite (.next h) (.next rfl)

theorem KeepsRng.push {s : State} (ret a : Addr) : KeepsRng s (push ret (fun t => t.setPc a) s) :=
  .ite (.next rfl) (.ite (.stop _) (.next rfl))

theorem KeepsRng.popPc {s : State} : KeepsRng s (popPc s) :=
  .ite (.next rfl) (.ite (.stop _) (.next rfl))

/-- Fx0A writes a register or waits (R248). -/
theorem KeepsRng.ldVxK {s : State} (x : Reg) : KeepsRng s (execLdVxK x s) := by
  unfold execLdVxK
  split
  · exact .next rfl
  · exact .next rfl

/-- No instruction but Cxkk draws (R168). -/
theorem exec_keepsRng {i : Instr} (hi : ∀ x kk, i ≠ .rnd x kk) (s : State) : KeepsRng s (exec i s) := by
  cases i with
  | rnd x kk => exact absurd rfl (hi x kk)
  | call => exact .push _ _
  | ret => exact .popPc
  | seImm | sneImm | seReg | sneReg | skp | sknp => exact .skipWhen _
  | drw x y n =>
    show KeepsRng s (execDrw x y n s)
    exact .throughI rfl
  | ldB x =>
    show KeepsRng s (execLdB x s)
    exact .throughI rfl
  | storeRegs x =>
    show KeepsRng s (execStoreRegs x s)
    exact .throughI rfl
  | loadRegs x =>
    show KeepsRng s (execLoadRegs x s)
    exact .throughI rfl
  | ldVxK x => exact .ldVxK x
  | _ => exact .next rfl

/-- Cxkk draws once, then writes the masked byte (R168). -/
theorem exec_rnd (x : Reg) (kk : Byte) (s : State) :
    exec (.rnd x kk) s =
      .next ((s.setRng (Config.rngNext s.rng).1).setV x ((Config.rngNext s.rng).2 &&& kk)) := rfl

/-- Settles O21: the draw is `exec_rnd`'s; no other instruction draws (`exec_keepsRng`), nor does the no-op. -/
theorem randomDrawsOnceAndMasks : Obligations.RandomDrawsOnceAndMasks := by
  refine ⟨fun x kk s => ⟨rfl, _, exec_rnd x kk s, rfl, fun j => ?_, fun y => State.getV_setV_of_ne _ _, rfl⟩,
    fun i s t h hi => exec_keepsRng hi s t h, fun _ => KeepsRng.next rfl⟩
  rw [State.getV_setV_same, BitVec.getLsbD_and]

/-! The instructions that write one register and no flag. -/

/-- Settles O16: only the immediate add's value needs an argument, that a byte's sum is modulo 256. -/
theorem loadsAndImmediateAdd : Obligations.LoadsAndImmediateAdd := by
  intro x y kk s
  refine ⟨⟨rfl, s.setV x kk, rfl, s.getV_setV_same x kk, fun r => s.getV_setV_of_ne _, rfl⟩,
    ⟨rfl, s.setV x (s.getV x + kk), rfl, ?_, fun r => s.getV_setV_of_ne _, rfl⟩,
    ⟨rfl, s.setV x (s.getV y), rfl, s.getV_setV_same x _, fun r => s.getV_setV_of_ne _, rfl⟩⟩
  rw [State.getV_setV_same, BitVec.toNat_add]

/-- Settles O17: a bit of each bitwise result is from the two bits at its place. -/
theorem logicIsBitwiseAndLeavesVF : Obligations.LogicIsBitwiseAndLeavesVF := by
  intro x y s
  refine ⟨⟨rfl, s.setV x (s.getV x ||| s.getV y), rfl, fun j => ?_, fun r => s.getV_setV_of_ne _, rfl⟩,
    ⟨rfl, s.setV x (s.getV x &&& s.getV y), rfl, fun j => ?_, fun r => s.getV_setV_of_ne _, rfl⟩,
    ⟨rfl, s.setV x (s.getV x ^^^ s.getV y), rfl, fun j => ?_, fun r => s.getV_setV_of_ne _, rfl⟩⟩
  · rw [State.getV_setV_same, BitVec.getLsbD_or]
  · rw [State.getV_setV_same, BitVec.getLsbD_and]
  · rw [State.getV_setV_same, BitVec.getLsbD_xor]

end Sys2Proof.Machine

/-! PROOFS. Index register and memory (42_index_memory.md R181 to R197): glyph addresses as numbers, a run of bytes
read back by address, registers moved to and from memory. -/

namespace Sys2Proof.Machine

/-! The writers of `I` alone. -/

/-- The highest standard glyph's address is 0x04FB, so no bit of the product is lost (R184). -/
@[simp] theorem toNat_standardGlyph (d : Byte) : (standardGlyph d).toNat = 5 * d.toNat := by
  have hd : d.toNat < 256 := d.isLt
  exact Nat.mod_eq_of_lt (by omega)

/-- The highest extended glyph's address is 0x0A46, so no bit of the sum is lost (R185). -/
@[simp] theorem toNat_extendedGlyph (d : Byte) : (extendedGlyph d).toNat = 0x50 + 10 * d.toNat := by
  have hd : d.toNat < 256 := d.isLt
  exact Nat.mod_eq_of_lt (by omega)

/-- The index sum keeps 16 bits (R182). -/
theorem toNat_add_wide (a : Addr) (b : Byte) : (a + wide b).toNat = (a.toNat + b.toNat) % 65536 := by
  rw [BitVec.toNat_add, toNat_wide]

/-- Settles O22: each of the four answers its address in `I`; the address as a number is the operand form's lemma. -/
theorem indexRegisterLoads : Obligations.IndexRegisterLoads :=
  fun nnn x s =>
    ⟨⟨rfl, s.setI (addrOf nnn), rfl, toNat_addrOf nnn, rfl⟩,
      ⟨rfl, s.setI (s.i + wide (s.getV x)), rfl, toNat_add_wide s.i (s.getV x), rfl⟩,
      ⟨rfl, s.setI (standardGlyph (s.getV x)), rfl, toNat_standardGlyph (s.getV x), rfl⟩,
      ⟨rfl, s.setI (extendedGlyph (s.getV x)), rfl, toNat_extendedGlyph (s.getV x), rfl⟩⟩

/-- Settles O26: both arms answer the state they are given. -/
theorem userFlagStubsDoNothing : Obligations.UserFlagStubsDoNothing :=
  fun _ _ => ⟨rfl, rfl, rfl, rfl⟩

/-! A run of bytes, read back by address. -/

theorem Memory.read_writeBytes_inside {m : Memory} (hm : m.wf) {a : Nat} {bs : List Byte}
    (ha : a + bs.length ≤ memSize) {k : Nat} (hk : k < bs.length) : (m.writeBytes a bs).read (a + k) = bs[k] := by
  rw [Memory.read_writeBytes hm ha, if_pos (Nat.le_add_right a k), Nat.add_sub_cancel_left,
    List.getElem?_eq_getElem hk, Option.getD_some]

theorem Memory.read_writeBytes_outside {m : Memory} (hm : m.wf) {a : Nat} {bs : List Byte}
    (ha : a + bs.length ≤ memSize) {b : Nat} (hb : b < a ∨ a + bs.length ≤ b) :
    (m.writeBytes a bs).read b = m.read b := by
  rw [Memory.read_writeBytes hm ha]
  rcases hb with hbelow | habove
  · exact if_neg (by omega)
  · rw [if_pos (by omega), List.getElem?_eq_none (by omega), Option.getD_none]

/-! Fx33. -/

/-- Memory with the decimal digits of Vx from `I` upward (R187). -/
def memoryWithDigits (x : Reg) (s : State) : Memory := s.mem.writeBytes s.i.toNat (decimalDigits (s.getV x))

/-- Fx33 is a write through `I` of three bytes (R187). -/
theorem exec_ldB (x : Reg) (s : State) :
    exec (.ldB x) s = throughI 2 (fun s => s.setMem (memoryWithDigits x s)) s := rfl

/-- The digits as numbers, hundreds first: each is small enough for its byte (R187). -/
theorem map_toNat_decimalDigits (v : Byte) :
    (decimalDigits v).map BitVec.toNat = [v.toNat / 100, v.toNat / 10 % 10, v.toNat % 10] := by
  have hv : v.toNat < 256 := v.isLt
  simp (disch := omega) only [decimalDigits, List.map_cons, List.map_nil, BitVec.toNat_ofNat, Nat.mod_eq_of_lt]

/-- The run Fx33 writes stays in memory when its last address does. -/
theorem decimalDigits_fit {a : Nat} (v : Byte) (h : a + 2 ≤ lastAddr) : a + (decimalDigits v).length ≤ memSize :=
  Nat.succ_le_succ h

/-- Each of the three bytes at `I` is its digit (R187). -/
theorem toNat_read_memoryWithDigits {x : Reg} {s : State} (hm : s.mem.wf) (h : s.i.toNat + 2 ≤ lastAddr) {k : Nat}
    (hk : k < 3) :
    ((memoryWithDigits x s).read (s.i.toNat + k)).toNat =
      [(s.getV x).toNat / 100, (s.getV x).toNat / 10 % 10, (s.getV x).toNat % 10][k] := by
  have hdigit : (memoryWithDigits x s).read (s.i.toNat + k) = (decimalDigits (s.getV x))[k]'hk :=
    Memory.read_writeBytes_inside hm (decimalDigits_fit _ h) hk
  simp only [hdigit, ← map_toNat_decimalDigits]
  exact (List.getElem_map BitVec.toNat).symm

/-- Settles O23: in range the three digits are read back (`toNat_read_memoryWithDigits`) and the rest of memory is
outside their run; out of range the access only takes its fault (`throughI_outOfRange`). -/
theorem decimalDigitsAreStored : Obligations.DecimalDigitsAreStored := by
  intro x s hm
  refine ⟨rfl, fun hin => ?_, fun hout => (exec_ldB x s).trans (throughI_outOfRange hout)⟩
  have hdigit {k : Nat} (hk : k < 3) := toNat_read_memoryWithDigits (x := x) hm hin hk
  exact ⟨_, (exec_ldB x s).trans (throughI_inRange hin), hdigit (k := 0) (by decide), hdigit (k := 1) (by decide),
    hdigit (k := 2) (by decide), fun _ => Memory.read_writeBytes_outside hm (decimalDigits_fit _ hin), rfl⟩

/-! Fx55 and Fx65. -/

/-- V0 to Vx in order, the bytes Fx55 stores (R192). -/
def regsThrough (x : Reg) (s : State) : List Byte := s.v.toList.take (x.toNat + 1)

theorem length_regsThrough (x : Reg) (s : State) : (regsThrough x s).length = x.toNat + 1 := by
  have hx : x.toNat < 16 := x.isLt
  rw [regsThrough, List.length_take_of_le (by rw [Vector.length_toList]; omega)]

theorem getElem_regsThrough {x r : Reg} {s : State} (h : r.toNat < (regsThrough x s).length) :
    (regsThrough x s)[r.toNat] = s.getV r := by
  simp [regsThrough, State.getV]

/-- Memory with V0 to Vx stored from `I` upward (R192). -/
def memoryWithRegs (x : Reg) (s : State) : Memory := s.mem.writeBytes s.i.toNat (regsThrough x s)

/-- Fx55 is a write through `I` of V0 to Vx (R192). -/
theorem exec_storeRegs (x : Reg) (s : State) :
    exec (.storeRegs x) s =
      throughI x.toNat (fun s => (s.setMem (memoryWithRegs x s)).setI (indexAfterMove s x)) s := rfl

/-- Fx65 is a read through `I` into V0 to Vx (R193). -/
theorem exec_loadRegs (x : Reg) (s : State) :
    exec (.loadRegs x) s =
      throughI x.toNat (fun s => { s with v := loadedRegs x s, i := indexAfterMove s x }) s := rfl

/-- The run Fx55 writes stays in memory when its last address does. -/
theorem regsThrough_fits {x : Reg} {s : State} (h : s.i.toNat + x.toNat ≤ lastAddr) :
    s.i.toNat + (regsThrough x s).length ≤ memSize := by
  rw [length_regsThrough]
  exact Nat.succ_le_succ h

theorem read_memoryWithRegs {x r : Reg} {s : State} (hm : s.mem.wf) (h : s.i.toNat + x.toNat ≤ lastAddr)
    (hr : r.toNat ≤ x.toNat) : (memoryWithRegs x s).read (s.i.toNat + r.toNat) = s.getV r := by
  have hk : r.toNat < (regsThrough x s).length := by rw [length_regsThrough]; omega
  exact (Memory.read_writeBytes_inside hm (regsThrough_fits h) hk).trans (getElem_regsThrough hk)

theorem read_memoryWithRegs_outside {x : Reg} {s : State} (hm : s.mem.wf) (h : s.i.toNat + x.toNat ≤ lastAddr)
    {a : Nat} (ha : a < s.i.toNat ∨ s.i.toNat + x.toNat < a) : (memoryWithRegs x s).read a = s.mem.read a :=
  Memory.read_writeBytes_outside hm (regsThrough_fits h) (by rw [length_regsThrough]; omega)

/-- Fx65 reads each of V0 to Vx at its place from `I` (R193). -/
theorem getV_loadedRegs {x r : Reg} {s t : State} (ht : t.v = loadedRegs x s) (hr : r.toNat ≤ x.toNat) :
    t.getV r = s.mem.read (s.i.toNat + r.toNat) := by
  simp [State.getV, ht, loadedRegs, hr]

/-- `I` moves past the registers, or stays under `Q_LOADSTORE`; an access in range leaves it no bit to lose (R192). -/
theorem toNat_indexAfterMove {x : Reg} {s : State} (h : s.i.toNat + x.toNat ≤ lastAddr) :
    (indexAfterMove s x).toNat = if s.config.quirks.loadStore then s.i.toNat else s.i.toNat + x.toNat + 1 := by
  have hsum : s.i.toNat + x.toNat ≤ 0x0FFF := h
  rw [indexAfterMove, apply_ite BitVec.toNat, BitVec.toNat_add, BitVec.toNat_ofNat]
  congr 1
  omega

/-- Settles O24: in range the stored run is read back register by register and the rest of memory is outside it; out of
range the access only takes its fault. -/
theorem registersAreStored : Obligations.RegistersAreStored := by
  intro x s hm
  refine ⟨rfl, fun hin => ?_, fun hout => (exec_storeRegs x s).trans (throughI_outOfRange hout)⟩
  exact ⟨_, (exec_storeRegs x s).trans (throughI_inRange hin), fun _ => read_memoryWithRegs hm hin,
    fun _ => read_memoryWithRegs_outside hm hin, toNat_indexAfterMove hin, rfl⟩

/-- A load in range reads back what a store in range wrote, from memory and `I` alone (R193). -/
theorem load_after_store {x : Reg} {s t u w : State} (hm : s.mem.wf) (hin : s.i.toNat + x.toNat ≤ lastAddr)
    (hstore : exec (.storeRegs x) s = .next t) (hmem : u.mem = t.mem) (hi : u.i = s.i)
    (hload : exec (.loadRegs x) u = .next w) {r : Reg} (hr : r.toNat ≤ x.toNat) : w.getV r = s.getV r := by
  have hinu : u.i.toNat + x.toNat ≤ lastAddr := by rw [hi]; exact hin
  rw [exec_storeRegs, throughI_inRange hin] at hstore
  rw [exec_loadRegs, throughI_inRange hinu] at hload
  cases hstore
  cases hload
  calc
    _ = u.mem.read (u.i.toNat + r.toNat) := getV_loadedRegs rfl hr
    _ = (memoryWithRegs x s).read (s.i.toNat + r.toNat) := by rw [hmem, hi]; rfl
    _ = s.getV r := read_memoryWithRegs hm hin hr

/-- Settles O25: a load in range fills V0 to Vx from memory and keeps the registers above, out of range it only takes
its fault; the law is `load_after_store`. -/
theorem registersAreLoadedAndRoundTrip : Obligations.RegistersAreLoadedAndRoundTrip := by
  refine ⟨fun x s => ⟨rfl, fun hin => ?_, fun hout => (exec_loadRegs x s).trans (throughI_outOfRange hout)⟩,
    fun _ _ _ _ _ hm hin hstore hmem hi hload _ => load_after_store hm hin hstore hmem hi hload⟩
  exact ⟨_, (exec_loadRegs x s).trans (throughI_inRange hin), fun _ => getV_loadedRegs rfl,
    fun r => getElem_loadedRegs_above r.isLt, toNat_indexAfterMove hin, rfl⟩

end Sys2Proof.Machine

/-! PROOFS. The display (43_display.md R200 to R227): the pixel primitives, scrolling, clear and mode switches, the
range check of the accesses through `I`, the sprite draw and its XOR law. -/

namespace Sys2Proof.Machine

/-! Pixels and the bits of the buffer's bytes. -/

/-- A bit of the buffer's bytes as a pixel (R35, R201). -/
theorem FrameBuffer.getLsbD_byte (fb : FrameBuffer) {k j : Nat} (hj : j < 8) :
    (fb.byte k).getLsbD j = fb.getPixel (8 * (k % 16) + (7 - j)) (k / 16) := by
  rw [FrameBuffer.getPixel_eq_byte fb (by omega), show k / 16 * 16 + (8 * (k % 16) + (7 - j)) / 8 = k by omega,
    show 7 - (8 * (k % 16) + (7 - j)) % 8 = j by omega]

/-- A bit of the buffer's bytes after `SetPixel` (R202). -/
theorem FrameBuffer.getLsbD_byte_setPixel (fb : FrameBuffer) {px py : Nat} (hpx : px < 128) (hpy : py < 64) (b : Bool)
    {k j : Nat} (hj : j < 8) :
    ((fb.setPixel px py b).byte k).getLsbD j =
      if k = py * 16 + px / 8 ∧ j = 7 - px % 8 then b else (fb.byte k).getLsbD j := by
  rw [FrameBuffer.getLsbD_byte _ hj, FrameBuffer.getLsbD_byte _ hj,
    FrameBuffer.getPixel_setPixel fb hpx hpy b (by omega)]
  exact if_congr (by omega) rfl rfl

/-- Setting a pixel to one value twice is setting it once (R202). -/
theorem FrameBuffer.setPixel_setPixel (fb : FrameBuffer) {px py : Nat} (hpx : px < 128) (hpy : py < 64) (b : Bool) :
    (fb.setPixel px py b).setPixel px py b = fb.setPixel px py b := by
  refine FrameBuffer.ext_of_getPixel fun qx qy hqx _ => ?_
  rw [FrameBuffer.getPixel_setPixel _ hpx hpy b hqx, FrameBuffer.getPixel_setPixel fb hpx hpy b hqx]
  split_ifs <;> rfl

/-- Settles O28: pixels are bits of the bytes, so `SetPixel`'s effect on pixels is its effect on those bits. -/
theorem pixelPrimitivesAddressOneBit : Obligations.PixelPrimitivesAddressOneBit :=
  fun fb _ _ b hpx hpy => ⟨fb.getPixel_eq_byte hpx, fun _ _ _ hj => fb.getLsbD_byte_setPixel hpx hpy b hj,
    fb.setPixel_setPixel hpx hpy b⟩

/-- Settles O29: the value toggled is the logical pixel's, and its complement is set on every physical pixel of it. -/
theorem toggleInvertsOneLogicalPixel : Obligations.ToggleInvertsOneLogicalPixel :=
  fun hires fb _ _ hlx hly => ⟨rfl, fun _ _ hpx _ => fb.getPixel_setLogical hires hlx hly _ hpx⟩

/-! Scrolling. -/

/-- Two movements along one axis that do not turn back: neither goes against the other (R206). -/
def SameDirection (a b : Int) : Prop := (0 ≤ a ∧ 0 ≤ b) ∨ (a ≤ 0 ∧ b ≤ 0)

theorem FrameBuffer.scroll_zero (fb : FrameBuffer) : fb.scroll 0 0 = fb := by
  refine FrameBuffer.ext_of_getPixel fun px py hpx hpy => ?_
  rw [FrameBuffer.getPixel_scroll fb 0 0 hpx hpy, if_pos (by omega)]
  simp only [Int.sub_zero, Int.toNat_natCast]

/-- Scrolls that do not turn back compose: a pixel that leaves the buffer in the first has left it in the sum (R206). -/
theorem FrameBuffer.scroll_scroll (fb : FrameBuffer) {dx dy ex ey : Int} (hx : SameDirection dx ex)
    (hy : SameDirection dy ey) : (fb.scroll dx dy).scroll ex ey = fb.scroll (dx + ex) (dy + ey) := by
  unfold SameDirection at hx hy
  refine FrameBuffer.ext_of_getPixel fun px py hpx hpy => ?_
  rw [FrameBuffer.getPixel_scroll _ ex ey hpx hpy, FrameBuffer.getPixel_scroll fb _ _ hpx hpy]
  by_cases hin : 0 ≤ (px : Int) - ex ∧ (px : Int) - ex ≤ 127 ∧ 0 ≤ (py : Int) - ey ∧ (py : Int) - ey ≤ 63
  · obtain ⟨hx0, hx1, hy0, hy1⟩ := hin
    rw [if_pos ⟨hx0, hx1, hy0, hy1⟩, FrameBuffer.getPixel_scroll fb dx dy (by omega) (by omega),
      Int.toNat_of_nonneg hx0, Int.toNat_of_nonneg hy0, Int.sub_sub, Int.sub_sub, Int.add_comm ex, Int.add_comm ey]
  · rw [if_neg hin, if_neg (by omega)]

/-- Settles O30: the pixels after a scroll, and the two laws; along one axis the other's movement is 0 both times. -/
theorem scrollShiftsTheWholeBuffer : Obligations.ScrollShiftsTheWholeBuffer :=
  have still : SameDirection 0 0 := .inl ⟨Int.le_refl 0, Int.le_refl 0⟩
  ⟨fun fb dx dy _ _ _ hpx hpy => fb.getPixel_scroll dx dy hpx hpy, FrameBuffer.scroll_zero,
    fun fb _ _ h => ⟨fb.scroll_scroll h still, fb.scroll_scroll still h⟩⟩

/-! A pixel after a scroll by `p` pixels in each of the four directions (R211 to R214). -/

section ScrollDirections

variable (fb : FrameBuffer) (p : Nat) {px py : Nat} (hpx : px < 128) (hpy : py < 64)
include hpx hpy

theorem FrameBuffer.getPixel_scroll_down :
    (fb.scroll 0 p).getPixel px py = if p ≤ py then fb.getPixel px (py - p) else false := by
  rw [FrameBuffer.getPixel_scroll fb 0 p hpx hpy, Int.sub_zero, Int.toNat_natCast, Int.toNat_sub]
  exact if_congr (by omega) rfl rfl

theorem FrameBuffer.getPixel_scroll_right :
    (fb.scroll p 0).getPixel px py = if p ≤ px then fb.getPixel (px - p) py else false := by
  rw [FrameBuffer.getPixel_scroll fb p 0 hpx hpy, Int.sub_zero, Int.toNat_natCast, Int.toNat_sub]
  exact if_congr (by omega) rfl rfl

theorem FrameBuffer.getPixel_scroll_up :
    (fb.scroll 0 (-p)).getPixel px py = if py + p < 64 then fb.getPixel px (py + p) else false := by
  rw [FrameBuffer.getPixel_scroll fb 0 (-p) hpx hpy, Int.sub_zero, Int.toNat_natCast, Int.sub_neg, ← Int.natCast_add,
    Int.toNat_natCast]
  exact if_congr (by omega) rfl rfl

theorem FrameBuffer.getPixel_scroll_left :
    (fb.scroll (-p) 0).getPixel px py = if px + p < 128 then fb.getPixel (px + p) py else false := by
  rw [FrameBuffer.getPixel_scroll fb (-p) 0 hpx hpy, Int.sub_zero, Int.toNat_natCast, Int.sub_neg, ← Int.natCast_add,
    Int.toNat_natCast]
  exact if_congr (by omega) rfl rfl

end ScrollDirections

/-- A scroll amount in physical pixels, with the scale as a number (R207). -/
theorem scrollPixels_eq (s : State) (amount : Nat) :
    scrollPixels s amount =
      if s.hires then amount else amount * (if s.params.scrollScale = .two then 2 else 1) := by
  unfold scrollPixels
  cases s.params.scrollScale <;> rfl

/-- Settles O32: each instruction is one scroll by `scrollPixels`, and the pixels after it are its direction's lemma. -/
theorem scrollInstructionsMoveThePicture : Obligations.ScrollInstructionsMoveThePicture := by
  intro n s p q hp hq
  rw [← scrollPixels_eq] at hp hq
  subst hp hq
  exact ⟨⟨rfl, s.setFb _, rfl, rfl, fun _ _ => s.fb.getPixel_scroll_down _⟩,
    ⟨rfl, s.setFb _, rfl, rfl, fun _ _ => s.fb.getPixel_scroll_up _⟩,
    ⟨rfl, s.setFb _, rfl, rfl, fun _ _ => s.fb.getPixel_scroll_right _⟩,
    ⟨rfl, s.setFb _, rfl, rfl, fun _ _ => s.fb.getPixel_scroll_left _⟩⟩

/-! Clear and the mode switches. -/

/-- Settles O31: the buffer left is the clear one. -/
theorem clearZeroesTheDisplay : Obligations.ClearZeroesTheDisplay :=
  fun s => ⟨rfl, s.setFb .clear, rfl, fun k _ => FrameBuffer.byte_clear k, rfl⟩

theorem modeSwitchFb_kept {s : State} (h : s.config.quirks.modeKeep = true) : modeSwitchFb s = s.fb := if_pos h

theorem modeSwitchFb_cleared {s : State} (h : s.config.quirks.modeKeep = false) :
    modeSwitchFb s = FrameBuffer.clear := by
  rw [modeSwitchFb, h]
  rfl

/-- Settles O33: both switches leave the buffer `modeSwitchFb`, whatever the mode was. -/
theorem modeSwitchesClearUnlessKept : Obligations.ModeSwitchesClearUnlessKept := by
  intro s
  have hclear : s.config.quirks.modeKeep = false → ∀ k, k < 1024 → (modeSwitchFb s).byte k = 0 := fun h k _ => by
    rw [modeSwitchFb_cleared h, FrameBuffer.byte_clear]
  exact ⟨⟨rfl, (s.setHires false).setFb (modeSwitchFb s), rfl, rfl, rfl, modeSwitchFb_kept, hclear⟩,
    ⟨rfl, (s.setHires true).setFb (modeSwitchFb s), rfl, rfl, rfl, modeSwitchFb_kept, hclear⟩⟩

/-! The sprite's shape and bits: the three rows of R221's table. -/

theorem spriteShape_of_ne_zero {hires : Bool} {q : Quirks} {n : BitVec 4} (hn : n ≠ 0) :
    spriteShape hires q n = { rows := n.toNat, bpr := 1 } := if_pos hn

theorem spriteShape_zero_wide {hires : Bool} {q : Quirks} (h : hires = true ∨ q.bigSpriteLores = false) :
    spriteShape hires q 0 = { rows := 16, bpr := 2 } := by
  rcases h with h | h <;> simp [spriteShape, h]

theorem spriteShape_zero_narrow {hires : Bool} {q : Quirks} (hh : hires = false) (hq : q.bigSpriteLores = true) :
    spriteShape hires q 0 = { rows := 16, bpr := 1 } := by
  simp [spriteShape, hh, hq]

/-- The sprite bit of a row of one byte (R221). -/
theorem spriteBit_one (m : Memory) (base r : Nat) {c : Nat} (hc : c < 8) :
    spriteBit m base 1 r c = (m.read (base + r)).getLsbD (7 - c) := by
  rw [spriteBit, Nat.mul_one, Nat.div_eq_of_lt hc, Nat.mod_eq_of_lt hc, Nat.add_zero]

/-- The sprite bit in the left byte of a row of two (R221). -/
theorem spriteBit_two_left (m : Memory) (base r : Nat) {c : Nat} (hc : c < 8) :
    spriteBit m base 2 r c = (m.read (base + 2 * r)).getLsbD (7 - c) := by
  rw [spriteBit, Nat.mul_comm, Nat.div_eq_of_lt hc, Nat.mod_eq_of_lt hc, Nat.add_zero]

/-- The sprite bit in the right byte of a row of two (R221). -/
theorem spriteBit_two_right (m : Memory) (base r : Nat) {c : Nat} (hc : c < 8) :
    spriteBit m base 2 r (c + 8) = (m.read (base + 2 * r + 1)).getLsbD (7 - c) := by
  rw [spriteBit, Nat.mul_comm, show (c + 8) / 8 = 1 by omega, show (c + 8) % 8 = c by omega]

/-- Settles O34, row by row of the table. -/
theorem spriteShapeAndBits : Obligations.SpriteShapeAndBits := by
  refine ⟨fun hires q n => ⟨spriteShape_of_ne_zero, ?_, ?_, rfl⟩,
    fun m base r c hc => ⟨spriteBit_one m base r hc, spriteBit_two_left m base r hc, spriteBit_two_right m base r hc⟩⟩
  · rintro rfl
    exact spriteShape_zero_wide
  · rintro rfl
    exact spriteShape_zero_narrow

/-! The draw as an access through `I`. -/

/-- The state a draw that stays in memory leaves: the buffer, then the count in VF (R220, R225). -/
def drawn (x y : Reg) (n : BitVec 4) (s : State) : State :=
  let d := drawingOf x y n s
  let r := d.runRows s.fb d.shape.rows
  (s.setFb r.1).setV regVF (collisionByte s.config.quirks r.2)

/-- Dxyn is an access through `I` to all of the sprite's bytes (R226). -/
theorem exec_drw (x y : Reg) (n : BitVec 4) (s : State) :
    exec (.drw x y n) s = throughI ((drawingOf x y n s).shape.len - 1) (drawn x y n) s := rfl

/-- A sprite has at least one byte, so its last one is `len - 1` past `I` (R221). -/
theorem add_drawingOf_len (x y : Reg) (n : BitVec 4) (s : State) (a : Nat) :
    a + ((drawingOf x y n s).shape.len - 1) =
      a + (drawingOf x y n s).shape.rows * (drawingOf x y n s).shape.bpr - 1 :=
  (Nat.add_sub_assoc (spriteShape_bounds s.hires s.config.quirks n).2.2 a).symm

theorem exec_drw_inRange {x y : Reg} {n : BitVec 4} {s : State}
    (h : s.i.toNat + (drawingOf x y n s).shape.rows * (drawingOf x y n s).shape.bpr - 1 ≤ 0x0FFF) :
    exec (.drw x y n) s = .next (drawn x y n s) := by
  rw [exec_drw, throughI_inRange (by rw [add_drawingOf_len]; exact h)]

theorem exec_drw_outOfRange {x y : Reg} {n : BitVec 4} {s : State}
    (h : 0x0FFF < s.i.toNat + (drawingOf x y n s).shape.rows * (drawingOf x y n s).shape.bpr - 1) :
    exec (.drw x y n) s = .next (takeFault .memRange (s.pc - 2) (firstBeyond s.i) s) := by
  rw [exec_drw, throughI_outOfRange (by rw [add_drawingOf_len]; exact h)]

/-- An access from state `s` whose highest address is `highest` latches MemRange exactly when that is beyond memory, and
then changes nothing else; else it touches neither latch nor `pc` (R76, R226, R302). -/
def FaultsExactlyBeyond (s : State) (highest : Nat) (o : Result) : Prop :=
  ∃ t : State, o = .next t ∧
    (0x0FFF < highest →
      t.latch.code = 2 ∧ t.latch.addr.toNat = max s.i.toNat 0x1000 ∧ t.latch.pc = s.pc - 2 ∧
      t = { s with pc := s.pc - 2, latch := t.latch }) ∧
    (highest ≤ 0x0FFF → t.latch = s.latch ∧ t.pc = s.pc)

theorem throughI_faultsExactlyBeyond {k highest : Nat} {effect : State → State} {s : State}
    (hk : highest = s.i.toNat + k) (hlatch : (effect s).latch = s.latch) (hpc : (effect s).pc = s.pc) :
    FaultsExactlyBeyond s highest (throughI k effect s) := by
  subst hk
  by_cases hin : s.i.toNat + k ≤ lastAddr
  · exact ⟨_, throughI_inRange hin, fun hout => absurd hin (Nat.not_le_of_lt hout), fun _ => ⟨hlatch, hpc⟩⟩
  · have hout : lastAddr < s.i.toNat + k := Nat.lt_of_not_le hin
    exact ⟨_, throughI_outOfRange hout, fun _ => ⟨rfl, firstBeyond_toNat s.i, rfl, rfl⟩, fun h => absurd h hin⟩

/-- The highest address of a draw is its shape's (R221, R226). -/
theorem exec_drw_faultsExactlyBeyond {x y : Reg} {n : BitVec 4} {s : State} {shape : SpriteShape} {highest : Nat}
    (hshape : spriteShape s.hires s.config.quirks n = shape)
    (hhigh : highest = s.i.toNat + shape.rows * shape.bpr - 1) :
    FaultsExactlyBeyond s highest (exec (.drw x y n) s) := by
  subst hshape
  rw [exec_drw]
  exact throughI_faultsExactlyBeyond (hhigh.trans (add_drawingOf_len x y n s _).symm) rfl rfl

/-- Settles O27: each form is one access through `I`, a draw's with the length of its shape. -/
theorem accessBeyondMemoryFaults : Obligations.AccessBeyondMemoryFaults := by
  intro i x y n s highest hform
  obtain ⟨rfl, hhigh⟩ | ⟨rfl, hhigh⟩ | ⟨rfl, hhigh⟩ | ⟨rfl, hn, hhigh⟩ | ⟨rfl, rfl, hwide, hhigh⟩ |
    ⟨rfl, rfl, hlores, hq, hhigh⟩ := hform
  · rw [exec_ldB]
    exact throughI_faultsExactlyBeyond hhigh rfl rfl
  · rw [exec_storeRegs]
    exact throughI_faultsExactlyBeyond hhigh rfl rfl
  · rw [exec_loadRegs]
    exact throughI_faultsExactlyBeyond hhigh rfl rfl
  · exact exec_drw_faultsExactlyBeyond (spriteShape_of_ne_zero hn) (by rw [hhigh, Nat.mul_one])
  · exact exec_drw_faultsExactlyBeyond (spriteShape_zero_wide hwide) hhigh
  · exact exec_drw_faultsExactlyBeyond (spriteShape_zero_narrow hlores hq) hhigh

/-! What a draw leaves: pixels, VF, the rest. -/

/-- The value of VF after a draw, as a number: a sprite has too few rows for its byte to lose a bit (R225). -/
theorem toNat_collisionByte (q : Quirks) {count : Nat} (h : count ≤ 16) :
    (collisionByte q count).toNat = if q.collisionCount then count else min 1 count := by
  unfold collisionByte
  split
  · exact Nat.mod_eq_of_lt (by omega)
  · rw [toNat_flagByte_decide]
    split <;> omega

open Classical in
/-- `Drawing.runRows_spec` for the whole sprite of a state (R220 to R225). -/
theorem drawingOf_runRows (x y : Reg) (n : BitVec 4) (s : State) {d : Drawing} (hd : d = drawingOf x y n s) :
    (∀ px py, px < 128 → (d.runRows s.fb d.shape.rows).1.getPixel px py =
      if d.Covers (blockOf s.hires px) (blockOf s.hires py)
      then !s.fb.getLogical s.hires (blockOf s.hires px) (blockOf s.hires py) else s.fb.getPixel px py) ∧
    (d.runRows s.fb d.shape.rows).2 = Nat.count (fun r => d.RowCounts s.fb r) d.shape.rows := by
  subst hd
  obtain ⟨hrows, hcols, -⟩ := spriteShape_bounds s.hires s.config.quirks n
  have hW := logicalWidth_ge s.hires
  have hH := logicalHeight_ge s.hires
  exact Drawing.runRows_spec _ s.fb hrows hcols (Nat.mod_lt _ (by omega)) (Nat.mod_lt _ (by omega))

open Classical in
/-- A pixel after a draw (R220, R223, R224). -/
theorem getPixel_drawn (x y : Reg) (n : BitVec 4) (s : State) {px : Nat} (py : Nat) (hpx : px < 128) :
    (drawn x y n s).fb.getPixel px py =
      if (drawingOf x y n s).Covers (blockOf s.hires px) (blockOf s.hires py)
      then !s.fb.getLogical s.hires (blockOf s.hires px) (blockOf s.hires py) else s.fb.getPixel px py :=
  (drawingOf_runRows x y n s rfl).1 px py hpx

open Classical in
/-- VF after a draw, as a number (R225). -/
theorem toNat_getV_regVF_drawn (x y : Reg) (n : BitVec 4) (s : State) {d : Drawing} (hd : d = drawingOf x y n s) :
    ((drawn x y n s).getV regVF).toNat =
      if s.config.quirks.collisionCount then Nat.count (fun r => d.RowCounts s.fb r) d.shape.rows
      else min 1 (Nat.count (fun r => d.RowCounts s.fb r) d.shape.rows) := by
  have hcount := (drawingOf_runRows x y n s hd).2
  subst hd
  have hle : Nat.count (fun r => (drawingOf x y n s).RowCounts s.fb r) (drawingOf x y n s).shape.rows ≤ 16 :=
    (Nat.count_le _).trans (spriteShape_bounds s.hires s.config.quirks n).1
  rw [← toNat_collisionByte _ hle, ← hcount, drawn, State.getV_setV_same]

theorem getV_drawn_of_ne (x y : Reg) (n : BitVec 4) (s : State) {r : Reg} (h : r ≠ regVF) :
    (drawn x y n s).getV r = s.getV r := State.getV_setV_of_ne _ _ h

/-- Settles O35: in range the draw completes in `drawn`, whose pixels and VF are said above; out of range the access
only takes its fault. -/
theorem drawXorsTheSpriteAndCountsCollisions : Obligations.DrawXorsTheSpriteAndCountsCollisions := by
  rintro x y n s d rfl
  exact ⟨rfl, fun hin => ⟨_, exec_drw_inRange hin, fun px py hpx _ => getPixel_drawn x y n s py hpx,
    toNat_getV_regVF_drawn x y n s rfl, fun r hr => getV_drawn_of_ne x y n s hr, rfl⟩, exec_drw_outOfRange⟩

/-! The XOR law. -/

/-- Every physical pixel has the value of the logical pixel it belongs to (R204). -/
def FrameBuffer.BlocksUniform (hires : Bool) (fb : FrameBuffer) : Prop :=
  ∀ px py, px < 128 → py < 64 → fb.getPixel px py = fb.getLogical hires (blockOf hires px) (blockOf hires py)

@[simp] theorem FrameBuffer.getLogical_clear (hires : Bool) (lx ly : Nat) :
    FrameBuffer.clear.getLogical hires lx ly = false := by
  rw [FrameBuffer.getLogical_eq, FrameBuffer.getPixel_clear]

theorem FrameBuffer.blocksUniform_clear (hires : Bool) : FrameBuffer.clear.BlocksUniform hires := fun px py _ _ => by
  rw [FrameBuffer.getPixel_clear, FrameBuffer.getLogical_clear]

/-- In hi-res mode a logical pixel is one physical pixel. -/
theorem FrameBuffer.blocksUniform_hires (fb : FrameBuffer) : fb.BlocksUniform true := fun _ _ _ _ => rfl

open Classical in
/-- A logical pixel after a draw: inverted where a 1-bit lands (R220). -/
theorem getLogical_drawn (x y : Reg) (n : BitVec 4) (s : State) {lx : Nat} (ly : Nat)
    (hlx : lx < logicalWidth s.hires) :
    (drawn x y n s).fb.getLogical s.hires lx ly =
      if (drawingOf x y n s).Covers lx ly then !s.fb.getLogical s.hires lx ly else s.fb.getLogical s.hires lx ly := by
  rw [FrameBuffer.getLogical_eq, getPixel_drawn x y n s _ (corner_lt hlx), blockOf_corner, blockOf_corner,
    ← FrameBuffer.getLogical_eq]

/-- A 1-bit lands on the screen (R223). -/
theorem Drawing.Covers.lt_logicalWidth {d : Drawing} {lx ly : Nat} (h : d.Covers lx ly) :
    lx < logicalWidth d.hires := by
  obtain ⟨r, c, -, -, -, -, hcol⟩ := h
  have hW := logicalWidth_ge d.hires
  exact landing_lt (by omega) hcol

/-- A draw that takes its origin from other registers than VF leaves the same draw to be made again (R222). -/
theorem drawingOf_drawn {x y : Reg} (n : BitVec 4) (s : State) (hx : x ≠ regVF) (hy : y ≠ regVF) :
    drawingOf x y n (drawn x y n s) = drawingOf x y n s := by
  simp only [drawingOf, getV_drawn_of_ne x y n s hx, getV_drawn_of_ne x y n s hy]
  rfl

/-- A second draw undoes the first where physical and logical pixels agree (R227). -/
theorem fb_drawn_drawn {x y : Reg} (n : BitVec 4) {s : State} (hx : x ≠ regVF) (hy : y ≠ regVF)
    (hfb : s.fb.BlocksUniform s.hires) : (drawn x y n (drawn x y n s)).fb = s.fb := by
  classical
  have hmode : (drawn x y n s).hires = s.hires := rfl
  refine FrameBuffer.ext_of_getPixel fun px py hpx hpy => ?_
  rw [getPixel_drawn x y n (drawn x y n s) py hpx, hmode, drawingOf_drawn n s hx hy]
  by_cases hc : (drawingOf x y n s).Covers (blockOf s.hires px) (blockOf s.hires py)
  · rw [if_pos hc, getLogical_drawn x y n s _ hc.lt_logicalWidth, if_pos hc, Bool.not_not, hfb px py hpx hpy]
  · rw [if_neg hc, getPixel_drawn x y n s py hpx, if_neg hc]

/-- An offset lands on its axis when nothing is clipped or it ends inside (R223). -/
theorem landing_ne_none {size : Nat} {clip : Bool} {origin k : Nat} (h : clip = false ∨ origin + k < size) :
    landing size clip origin k ≠ none := by
  unfold landing
  rcases h with rfl | h
  · split <;> simp
  · simp [h]

/-- On a clear display a row counts only as a bottom row (R225). -/
theorem Drawing.rowCounts_clear_iff (d : Drawing) (r : Nat) :
    d.RowCounts .clear r ↔ d.rowAt r = none ∧ d.q.bottomCollision = true := by
  simp [Drawing.RowCounts, Drawing.RowCollides]

/-- On a clear display no row counts, unless rows are clipped below the bottom and count there (R225). -/
theorem Drawing.not_rowCounts_clear {d : Drawing}
    (h : d.q.clip = false ∨ d.q.bottomCollision = false ∨ d.y0 + d.shape.rows ≤ logicalHeight d.hires) {r : Nat}
    (hr : r < d.shape.rows) : ¬ d.RowCounts .clear r := by
  rw [Drawing.rowCounts_clear_iff]
  rintro ⟨hnone, hbottom⟩
  rcases h with hclip | hoff | hfits
  · exact landing_ne_none (.inl hclip) hnone
  · exact absurd hbottom (by simp [hoff])
  · exact landing_ne_none (.inr (by omega)) hnone

/-- VF stays 0 when no row counts. -/
theorem getV_regVF_drawn_eq_zero {x y : Reg} {n : BitVec 4} {s : State} {d : Drawing} (hd : d = drawingOf x y n s)
    (h : ∀ r, r < d.shape.rows → ¬ d.RowCounts s.fb r) : (drawn x y n s).getV regVF = 0 := by
  classical
  refine BitVec.eq_of_toNat_eq ?_
  rw [toNat_getV_regVF_drawn x y n s hd, Nat.count_iff_forall_not.2 h]
  simp

/-- VF is at least 1 when some row counts. -/
theorem one_le_getV_regVF_drawn {x y : Reg} {n : BitVec 4} {s : State} {d : Drawing} (hd : d = drawingOf x y n s)
    {r : Nat} (hr : r < d.shape.rows) (h : d.RowCounts s.fb r) : 1 ≤ ((drawn x y n s).getV regVF).toNat := by
  classical
  have hcount : Nat.count (fun r => d.RowCounts s.fb r) d.shape.rows ≠ 0 := Nat.count_ne_iff_exists.2 ⟨r, hr, h⟩
  rw [toNat_getV_regVF_drawn x y n s hd]
  split <;> omega

/-- After a draw on a clear display every pixel a 1-bit lands on is 1, so its row collides in a second draw (R227). -/
theorem Drawing.Covers.exists_rowCounts_drawn {x y : Reg} {n : BitVec 4} {s : State} (hfb : s.fb = .clear) {lx ly : Nat}
    (h : (drawingOf x y n s).Covers lx ly) :
    ∃ r, r < (drawingOf x y n s).shape.rows ∧ (drawingOf x y n s).RowCounts (drawn x y n s).fb r := by
  classical
  have hset : (drawn x y n s).fb.getLogical s.hires lx ly = true := by
    rw [getLogical_drawn x y n s _ h.lt_logicalWidth, if_pos h, hfb, FrameBuffer.getLogical_clear, Bool.not_false]
  obtain ⟨r, c, hr, hc, hbit, hrow, hcol⟩ := h
  exact ⟨r, hr, .inl ⟨c, lx, ly, hc, hbit, hrow, hcol, hset⟩⟩

/-- Settles O36: the second draw is the first one again (`drawingOf_drawn`), so it undoes it (`fb_drawn_drawn`); on a
clear display only bottom rows can count in the first, and every covered row counts in the second. -/
theorem drawingTwiceRestores : Obligations.DrawingTwiceRestores := by
  rintro x y n s d rfl hin hx hy hfb
  have hagain := drawingOf_drawn n s hx hy
  have huniform : s.fb.BlocksUniform s.hires := by
    rcases hfb with hclear | hhires
    · rw [hclear]
      exact FrameBuffer.blocksUniform_clear _
    · rw [hhires]
      exact FrameBuffer.blocksUniform_hires _
  refine ⟨_, _, exec_drw_inRange hin, exec_drw_inRange (by rw [hagain]; exact hin), fb_drawn_drawn n hx hy huniform,
    fun hclear => ⟨fun hbottom => ?_, ?_⟩⟩
  · refine getV_regVF_drawn_eq_zero rfl fun r hr => ?_
    rw [hclear]
    exact Drawing.not_rowCounts_clear hbottom hr
  · rintro ⟨lx, ly, hcovers⟩
    obtain ⟨r, hr, hcounts⟩ := hcovers.exists_rowCounts_drawn hclear
    exact one_le_getV_regVF_drawn hagain.symm hr hcounts

end Sys2Proof.Machine

/-! PROOFS. Keypad and timers (44_keypad_timers.md R240 to R252): cells through sampling and collapse, the key Fx0A takes,
the key skips, the timer moves. -/

namespace Sys2Proof.Machine

/-! Cells. -/

/-- A cell by a key number is the cell by its natural number. -/
theorem State.keys_getElem?_getD (s : State) (k : BitVec 4) : s.keys[k.toNat]?.getD .up = s.key k := by
  rw [Vector.getElem?_eq_getElem k.isLt]
  rfl

/-- Cells are read from the keypad alone. -/
theorem State.key_congr {s t : State} (h : t.keys = s.keys) (k : BitVec 4) : t.key k = s.key k := by
  simp only [State.key, h]

/-- Two keypads whose cells agree are equal. -/
theorem State.keys_ext {s t : State} (h : ∀ k : BitVec 4, t.key k = s.key k) : t.keys = s.keys :=
  Vector.ext fun j hj => h (BitVec.ofNatLT j hj)

/-- The collapse changes a released cell only (R243), so with none released it changes nothing. -/
theorem collapseKeys_of_none_released {s : State} (h : ∀ k : BitVec 4, s.key k ≠ .released) : collapseKeys s = s := by
  have hkeys : (collapseKeys s).keys = s.keys :=
    State.keys_ext fun k => (key_collapseKeys s k).trans (if_neg (h k))
  show { s with keys := (collapseKeys s).keys } = s
  rw [hkeys]

/-- An instruction that completes leaves the keypad to the executor. -/
theorem Completed.key {s t : State} (h : Completed s t) (k : BitVec 4) : t.key k = s.key k :=
  State.key_congr (by rw [h.rest]) k

/-- Settles O40: after sampling, part (a) writes the times only; an executed instruction leaves the cells to the collapse,
and a fault leaves them (`execute_outcomes`). -/
theorem keypadSamplesAndCollapses : Obligations.KeypadSamplesAndCollapses := by
  refine ⟨fun s => ⟨rfl, key_sampleKeys s⟩, fun s u hu k => State.key_congr (by rw [hu]; rfl) k, ?_⟩
  intro u t hf ht k
  rcases execute_outcomes hf with ⟨v, hv, hc, hfv, -⟩ | ⟨c, a, hv⟩ | ⟨a, hv, -⟩
  · cases ht.symm.trans hv
    have hfc : (collapseKeys v).faulted = false := hfv
    have hkey : v.key k = u.key k := hc.key k
    rw [key_collapseKeys, hkey, hfc]
    simp only [true_and, collapseCell]
  · cases ht.symm.trans hv
    exact (if_neg fun h => nomatch h.1).symm
  · cases ht.symm.trans hv

/-! Fx0A. -/

/-- The key Fx0A takes is the lowest one released (R248). -/
theorem firstReleased_of_lowest {s : State} {k : BitVec 4} (hk : s.key k = .released)
    (hlow : ∀ j : BitVec 4, j.toNat < k.toNat → s.key j ≠ .released) : firstReleased s = some k.toNat := by
  rw [firstReleased, List.find?_range_eq_some]
  refine ⟨?_, List.mem_range.mpr k.isLt, fun j hj => ?_⟩
  · rw [s.keys_getElem?_getD, hk]
    rfl
  · have hj16 : j < 2 ^ 4 := hj.trans k.isLt
    have hne : s.keys[j]?.getD .up ≠ .released := by
      have hcell := s.keys_getElem?_getD (BitVec.ofNatLT j hj16)
      rw [BitVec.toNat_ofNatLT] at hcell
      rw [hcell]
      exact hlow _ (by rwa [BitVec.toNat_ofNatLT])
    rw [decide_eq_false hne]
    rfl

/-- Fx0A with a released key writes the lowest to its register (R248). -/
theorem exec_ldVxK_lowest (x : Reg) {s : State} {k : BitVec 4} (hk : s.key k = .released)
    (hlow : ∀ j : BitVec 4, j.toNat < k.toNat → s.key j ≠ .released) :
    exec (.ldVxK x) s = .next (s.setV x (BitVec.ofNat 8 k.toNat)) := by
  show execLdVxK x s = _
  rw [execLdVxK, firstReleased_of_lowest hk hlow]

/-- Fx0A with no released key waits (R248). -/
theorem exec_ldVxK_wait (x : Reg) {s : State} (h : ∀ k : BitVec 4, s.key k ≠ .released) :
    exec (.ldVxK x) s = .next { s with pc := s.pc - 2 } := by
  show execLdVxK x s = _
  rw [execLdVxK, firstReleased_none.mpr h]
  rfl

/-- Run by the executor, a waiting Fx0A leaves the state it found: `pc` moves past it and back (R130, R248). -/
theorem exec_ldVxK_wait_advanced (x : Reg) {s : State} (h : ∀ k : BitVec 4, s.key k ≠ .released) :
    exec (.ldVxK x) (advancePc s) = .next s := by
  rw [exec_ldVxK_wait x (s := advancePc s) h]
  show Host.Outcome.next { s with pc := s.pc + 2 - 2 } = .next s
  rw [pc_add_sub]

/-- Settles O37: the instruction by its two cases; in the waiting step the instruction changes nothing
(`exec_ldVxK_wait_advanced`) and the collapse finds no released cell (`collapseKeys_of_none_released`). -/
theorem waitForKeyTakesTheLowestReleased : Obligations.WaitForKeyTakesTheLowestReleased := by
  refine ⟨fun x s => ⟨rfl, fun k hk hlow => ?_, exec_ldVxK_wait x⟩, fun x s u hu hf hp hpc hd hnone => ?_⟩
  · refine ⟨_, exec_ldVxK_lowest x hk hlow, ?_, fun r => s.getV_setV_of_ne _, rfl⟩
    rw [State.getV_setV_same, BitVec.toNat_ofNat]
    exact Nat.mod_eq_of_lt (k.isLt.trans (by decide))
  · have hwait : exec (.ldVxK x) { u with cpuCum := 0, pc := u.pc + 2 } = .next { u with cpuCum := 0 } :=
      exec_ldVxK_wait_advanced x (s := { u with cpuCum := 0 }) hnone
    have hfw : State.faulted { u with cpuCum := 0 } = false := hf
    have hcollapse : collapseKeys { u with cpuCum := 0 } = { u with cpuCum := 0 } :=
      collapseKeys_of_none_released hnone
    rw [stepRunsTheDecodedInstruction s u _ hu hf hp hpc hd, hwait, onNext_next, hfw, hcollapse]
    rfl

/-! The key skips. -/

/-- The key number is the low four bits (R245, R246). -/
theorem toNat_keyNumber (b : Byte) : (keyNumber b).toNat = b.toNat % 16 := by
  simp [keyNumber]

/-- Settles O15: each is a skip on the cell the low four bits name. -/
theorem keySkipsTestTheCell : Obligations.KeySkipsTestTheCell := by
  intro x k s hk
  have hkey : keyNumber (s.getV x) = k := BitVec.eq_of_toNat_eq ((toNat_keyNumber _).trans hk.symm)
  have hskp : exec (.skp x) s = skipWhen (decide (s.key k = .down)) s := by rw [← hkey]; rfl
  have hsknp : exec (.sknp x) s = skipWhen (decide (s.key k ≠ .down)) s := by rw [← hkey]; rfl
  refine ⟨⟨rfl, ?_⟩, ⟨rfl, ?_⟩⟩
  · rw [hskp, skipWhen_eq]
    simp only [decide_eq_true_eq]
  · rw [hsknp, skipWhen_eq]
    simp only [decide_eq_true_eq, ne_eq, ite_not]

/-! The timer instructions. -/

/-- Settles O38: each is one write of a register or a timer. -/
theorem timerInstructionsMoveBytes : Obligations.TimerInstructionsMoveBytes :=
  fun x s => ⟨⟨rfl, s.setV x s.dt, rfl, s.getV_setV_same x s.dt, fun _ => s.getV_setV_of_ne _, rfl⟩, ⟨rfl, rfl⟩,
    ⟨rfl, rfl⟩⟩

end Sys2Proof.Machine

/-! PROOFS. Exit (45_system.md R260): no instruction reads the flag, so the executor does the same with it raised, and a
raised flag stays. -/

namespace Sys2Proof.Machine

/-! Operations that commute with an update of the state. -/

/-- From the updated state `m` answers what it answers from the state, updated. -/
def CommutesWith (g : State → State) (m : State → Result) : Prop := ∀ s, m (g s) = onNext (m s) fun t => .next (g t)

theorem CommutesWith.next {g f : State → State} (h : ∀ s, f (g s) = g (f s)) :
    CommutesWith g fun s => .next (f s) :=
  fun s => congrArg Host.Outcome.next (h s)

theorem CommutesWith.onNext {g : State → State} {m f : State → Result} (hm : CommutesWith g m)
    (hf : CommutesWith g f) : CommutesWith g fun s => onNext (m s) f := by
  intro s
  show Machine.onNext (m (g s)) f = Machine.onNext (Machine.onNext (m s) f) _
  rw [hm s, onNext_onNext, onNext_onNext]
  exact congrArg (Machine.onNext (m s)) (funext hf)

/-- A test the update does not change picks the same branch before and after it. -/
theorem CommutesWith.ite {g : State → State} {p : State → Prop} [DecidablePred p] {a b : State → Result}
    (hp : ∀ s, p (g s) ↔ p s) (ha : CommutesWith g a) (hb : CommutesWith g b) :
    CommutesWith g fun s => if p s then a s else b s := by
  intro s
  by_cases h : p s
  · simpa only [if_pos h, if_pos ((hp s).mpr h)] using ha s
  · simpa only [if_neg h, if_neg (h ∘ (hp s).mp)] using hb s

/-! The shared operations and the instructions, with `exit` raised. -/

theorem skipWhen_commutesWith_setExit {taken : State → Bool} (h : ∀ s, taken s.setExit = taken s) :
    CommutesWith State.setExit fun s => skipWhen (taken s) s :=
  .next fun s => by
    rw [h s]
    exact (apply_ite State.setExit (taken s = true) (s.setPc (s.pc + 2)) s).symm

theorem throughI_commutesWith_setExit {k : State → Nat} {effect : State → State} (hk : ∀ s, k s.setExit = k s)
    (he : ∀ s, effect s.setExit = (effect s).setExit) :
    CommutesWith State.setExit fun s => throughI (k s) effect s :=
  .ite (fun s => by rw [hk s]; rfl) (.next he) (.next fun _ => rfl)

theorem execCall_commutesWith_setExit (nnn : BitVec 12) : CommutesWith State.setExit (execCall nnn) :=
  .ite (fun _ => .rfl) (.next fun _ => rfl) (.ite (fun _ => .rfl) (fun _ => rfl) (.next fun _ => rfl))

theorem popPc_commutesWith_setExit : CommutesWith State.setExit popPc :=
  .ite (fun _ => .rfl) (.next fun _ => rfl) (.ite (fun _ => .rfl) (fun _ => rfl) (.next fun _ => rfl))

theorem execLdVxK_commutesWith_setExit (x : Reg) : CommutesWith State.setExit (execLdVxK x) := by
  intro s
  have hsame : firstReleased s.setExit = firstReleased s := rfl
  rw [execLdVxK, execLdVxK, hsame]
  cases firstReleased s <;> rfl

/-- No instruction reads `exit`: the tests it makes and the values it writes come from the other fields. -/
theorem exec_commutesWith_setExit (i : Instr) : CommutesWith State.setExit (exec i) := by
  cases i with
  | ret => exact popPc_commutesWith_setExit
  | call nnn => exact execCall_commutesWith_setExit nnn
  | seImm x kk => exact skipWhen_commutesWith_setExit fun _ => rfl
  | sneImm x kk => exact skipWhen_commutesWith_setExit fun _ => rfl
  | seReg x y => exact skipWhen_commutesWith_setExit fun _ => rfl
  | sneReg x y => exact skipWhen_commutesWith_setExit fun _ => rfl
  | skp x => exact skipWhen_commutesWith_setExit fun _ => rfl
  | sknp x => exact skipWhen_commutesWith_setExit fun _ => rfl
  | drw x y n => exact throughI_commutesWith_setExit (fun _ => rfl) fun _ => rfl
  | ldB x => exact throughI_commutesWith_setExit (fun _ => rfl) fun _ => rfl
  | storeRegs x => exact throughI_commutesWith_setExit (fun _ => rfl) fun _ => rfl
  | loadRegs x => exact throughI_commutesWith_setExit (fun _ => rfl) fun _ => rfl
  | ldVxK x => exact execLdVxK_commutesWith_setExit x
  | _ => exact fun _ => rfl

/-! The executor. -/

theorem runWord_commutesWith_setExit (w : BitVec 16) : CommutesWith State.setExit (runWord w) := by
  unfold runWord
  cases decodeWord w with
  | none => exact fun _ => rfl
  | some i => exact exec_commutesWith_setExit i

theorem fetchedWord_commutesWith_setExit :
    CommutesWith State.setExit fun s => runWord (fetchWord s) (advancePc s) :=
  fun s => runWord_commutesWith_setExit (fetchWord s) (advancePc s)

/-- `Execute()` (R270): the fetch and the collapse do not read the flag either. -/
theorem execute_commutesWith_setExit : CommutesWith State.setExit execute :=
  .ite (fun _ => .rfl) (.next fun _ => rfl) <|
    fetchedWord_commutesWith_setExit.onNext <| .next fun t =>
      (apply_ite State.setExit (t.faulted = true) t (collapseKeys t)).symm

/-- Part (b) (R282): the pacing does not read the flag, so the core goes on with it raised. -/
theorem executorPart_commutesWith_setExit : CommutesWith State.setExit executorPart :=
  have hrun : CommutesWith State.setExit fun s => execute { accumulateCpu s with cpuCum := 0 } :=
    fun s => execute_commutesWith_setExit { accumulateCpu s with cpuCum := 0 }
  .ite (p := fun s => executorDue (accumulateCpu s) = true) (fun _ => .rfl)
    (hrun.onNext (.next fun _ => rfl)) (.next fun _ => rfl)

/-! A raised flag stays. -/

/-- What commutes with raising the flag cannot lower it: raising a flag that is up changes nothing. -/
theorem CommutesWith.exit_of_next {m : State → Result} (h : CommutesWith State.setExit m) {s t : State}
    (hs : s.exit = true) (ht : m s = .next t) : t.exit = true := by
  have hraised : s.setExit = s := by rw [State.setExit, ← hs]
  have hagain := h s
  rw [hraised, ht, onNext_next] at hagain
  exact congrArg State.exit (Host.Outcome.next.inj hagain)

/-- A step, after the host's turn, keeps a raised flag: sampling and the timing parts do not write it. -/
theorem schedulerStep_exit {s t : State} (hs : s.exit = true) (h : schedulerStep s = .next t) : t.exit = true := by
  obtain ⟨u, hu, hut⟩ := onNext_eq_next h
  cases hut
  have hkept : (timingParts u).exit = u.exit := by rw [timingParts_rest]
  exact hkept.trans <| executorPart_commutesWith_setExit.exit_of_next (s := sampled s) hs hu

/-- Settles O39: 00FD is the one write; a raised flag stays through the scheduler step (`schedulerStep_exit`), and part
(b) commutes with raising it. -/
theorem exitFlagIsSetAndStays : Obligations.ExitFlagIsSetAndStays :=
  ⟨rfl, fun _ => rfl, fun _ _ => schedulerStep_exit, executorPart_commutesWith_setExit⟩

end Sys2Proof.Machine

/-! PROOFS. The scheduler step (46_scheduler_step.md R280 to R287): elapsed time, pacing, the two timers, the sound
flag, the refresh flag, and a word placed for the next step. -/

namespace Sys2Proof.Machine

/-! When a paced action is due. -/

/-- A counter, with this step's time added, reaches the threshold of its frequency; with frequency 0 it always does
(R39, R282, R284, R287). -/
abbrev Elapsed (freq counter elapsed : Millis) : Prop :=
  freq = 0 ∨ 1000 / freq.toNat ≤ (counter.toNat + elapsed.toNat) % 2 ^ 32

/-- The threshold is stored as 0 for frequency 0, where the action is due whatever it is (R39). -/
theorem due_threshold_iff (freq counter : Millis) :
    due freq counter (threshold freq) = true ↔ freq = 0 ∨ (1000 / freq).toNat ≤ counter.toNat := by
  rw [due, Bool.or_eq_true, beq_iff_eq, decide_eq_true_iff]
  refine or_congr_right' fun h0 => ?_
  rw [threshold, if_neg h0]

theorem due_add_threshold_iff (freq counter elapsed : Millis) :
    due freq (counter + elapsed) (threshold freq) = true ↔ Elapsed freq counter elapsed := by
  rw [due_threshold_iff, BitVec.toNat_udiv, BitVec.toNat_add]
  rfl

theorem executorDue_accumulateCpu_iff (u : State) :
    executorDue (accumulateCpu u) = true ↔ u.faulted = false ∧ Elapsed u.config.cpuFreq u.cpuCum u.elapsed := by
  rw [← due_add_threshold_iff, ← Bool.not_eq_true', ← Bool.and_eq_true]
  rfl

/-! The timing parts, field by field. -/

theorem toNat_tick (t : Byte) : (tick t).toNat = t.toNat - 1 := by
  unfold tick
  split
  · next h => subst h; rfl
  · next h => bv_omega

theorem delayPart_due {s : State} (h : Elapsed s.config.timerFreq s.delayCum s.elapsed) :
    delayPart s = { s with dt := tick s.dt, delayCum := 0 } :=
  if_pos ((due_add_threshold_iff _ _ _).mpr h)

theorem delayPart_waiting {s : State} (h : ¬ Elapsed s.config.timerFreq s.delayCum s.elapsed) :
    delayPart s = { s with delayCum := s.delayCum + s.elapsed } :=
  if_neg (h ∘ (due_add_threshold_iff _ _ _).mp)

theorem soundPart_due {s : State} (h : Elapsed s.config.timerFreq s.soundCum s.elapsed) :
    soundPart s = { s with st := tick s.st, soundCum := 0 } :=
  if_pos ((due_add_threshold_iff _ _ _).mpr h)

theorem soundPart_waiting {s : State} (h : ¬ Elapsed s.config.timerFreq s.soundCum s.elapsed) :
    soundPart s = { s with soundCum := s.soundCum + s.elapsed } :=
  if_neg (h ∘ (due_add_threshold_iff _ _ _).mp)

theorem refreshPart_due {s : State} (h : Elapsed s.config.refreshFreq s.refreshCum s.elapsed) :
    refreshPart s = { s with displayUpdated := true, refreshCum := 0 } :=
  if_pos ((due_add_threshold_iff _ _ _).mpr h)

theorem refreshPart_waiting {s : State} (h : ¬ Elapsed s.config.refreshFreq s.refreshCum s.elapsed) :
    refreshPart s = { s with displayUpdated := false, refreshCum := s.refreshCum + s.elapsed } :=
  if_neg (h ∘ (due_add_threshold_iff _ _ _).mp)

/-- No part reads what an earlier one writes, but for `beep`, which reads `ST` after its tick (R280, R286): each field
is what its own part makes of the state the timing parts start in. -/
theorem timingParts_eq (s : State) :
    timingParts s = { s with
      dt := (delayPart s).dt, delayCum := (delayPart s).delayCum, st := (soundPart s).st,
      soundCum := (soundPart s).soundCum, beep := (soundPart s).st != 0,
      displayUpdated := (refreshPart s).displayUpdated, refreshCum := (refreshPart s).refreshCum } := by
  have hd : delayPart s = { s with dt := (delayPart s).dt, delayCum := (delayPart s).delayCum } := by
    by_cases h : Elapsed s.config.timerFreq s.delayCum s.elapsed
    · rw [delayPart_due h]
    · rw [delayPart_waiting h]
  have hs : ∀ d c, soundPart { s with dt := d, delayCum := c } =
      { s with dt := d, delayCum := c, st := (soundPart s).st, soundCum := (soundPart s).soundCum } := by
    intro d c
    by_cases h : Elapsed s.config.timerFreq s.soundCum s.elapsed
    · rw [soundPart_due h, soundPart_due (s := { s with dt := d, delayCum := c }) h]
    · rw [soundPart_waiting h, soundPart_waiting (s := { s with dt := d, delayCum := c }) h]
  have hr : ∀ d c e k b, refreshPart { s with dt := d, delayCum := c, st := e, soundCum := k, beep := b } =
      { s with dt := d, delayCum := c, st := e, soundCum := k, beep := b,
               displayUpdated := (refreshPart s).displayUpdated, refreshCum := (refreshPart s).refreshCum } := by
    intro d c e k b
    by_cases h : Elapsed s.config.refreshFreq s.refreshCum s.elapsed
    · rw [refreshPart_due h,
        refreshPart_due (s := { s with dt := d, delayCum := c, st := e, soundCum := k, beep := b }) h]
    · rw [refreshPart_waiting h,
        refreshPart_waiting (s := { s with dt := d, delayCum := c, st := e, soundCum := k, beep := b }) h]
  rw [timingParts, hd, hs, beepPart, hr]

/-- Settles O43: each timer's part at its threshold and before it (`delayPart_due`, `soundPart_waiting` and their
like), the counters by `timingParts_ticks`. -/
theorem timersCountDown : Obligations.TimersCountDown := by
  rintro s c d rfl rfl
  refine ⟨fun h => ?_, fun h => ?_, fun h => ?_, fun h => ?_, timingParts_ticks, ?_⟩ <;> rw [timingParts_eq]
  · rw [delayPart_due h]
    exact ⟨toNat_tick s.dt, rfl⟩
  · rw [delayPart_waiting h]
    exact ⟨rfl, BitVec.toNat_add _ _⟩
  · rw [soundPart_due h]
    exact ⟨toNat_tick s.st, rfl⟩
  · rw [soundPart_waiting h]
    exact ⟨rfl, BitVec.toNat_add _ _⟩

/-! Part (b). -/

/-- Settles O42: the pacing condition is the executor's own, and part (b) has its two cases. -/
theorem executorIsPaced : Obligations.ExecutorIsPaced := by
  rintro s u c rfl rfl
  refine ⟨fun h => ?_, fun h => ?_⟩
  · have hdue := (executorDue_accumulateCpu_iff _).mpr h
    rw [step, schedulerStep, executorPart_due hdue, onNext_onNext]
    rfl
  · have hidle := Bool.eq_false_iff.mpr (h ∘ (executorDue_accumulateCpu_iff _).mp)
    rw [step, schedulerStep, executorPart_idle hidle, onNext_next, accumulateCpu, ← BitVec.toNat_add,
      BitVec.ofNat_toNat, BitVec.setWidth_eq]

/-- Part (b) leaves the timestamps, the other three counters, the flags of parts (d) and (e), the configuration and
all that belongs to the host as they were. -/
theorem executorPart_rest {s t : State} (h : executorPart s = .next t) :
    t = { s with v := t.v, pc := t.pc, i := t.i, sp := t.sp, dt := t.dt, st := t.st, hires := t.hires, exit := t.exit,
                 executed := t.executed, latch := t.latch, mem := t.mem, fb := t.fb, keys := t.keys, rng := t.rng,
                 cpuCum := t.cpuCum } := by
  cases hd : executorDue (accumulateCpu s) with
  | false =>
    rw [executorPart_idle hd] at h
    cases h
    rfl
  | true =>
    rw [executorPart_due hd] at h
    obtain ⟨u, hu, hut⟩ := onNext_eq_next h
    cases hut
    have hf : s.faulted = false := executorDue_not_faulted (s := accumulateCpu s) hd
    rcases execute_outcomes (s := { accumulateCpu s with cpuCum := 0 }) hf with
      ⟨w, hw, hc, -, -⟩ | ⟨c, a, hw⟩ | ⟨a, hw, -⟩
    · cases hw.symm.trans hu
      rw [hc.rest]
      rfl
    · cases hw.symm.trans hu
      rfl
    · cases hw.symm.trans hu

/-! The step at its boundary. -/

/-- A step that answers is part (b) from the sampled state, then the timing parts (R280). -/
theorem step_eq_next {s t : State} (h : step s = .next t) :
    ∃ e, executorPart (sampled (hostTurn s)) = .next e ∧ t = timingParts e := by
  obtain ⟨e, he, het⟩ := onNext_eq_next h
  cases het
  exact ⟨e, he, rfl⟩

/-- Settles O41: part (a) writes the times, and neither part (b) nor the timing parts touch them. -/
theorem stepMeasuresElapsedTime : Obligations.StepMeasuresElapsedTime := by
  intro s t h
  obtain ⟨e, he, rfl⟩ := step_eq_next h
  rw [timingParts_eq, executorPart_rest he]
  refine ⟨rfl, rfl, ?_⟩
  show ((hostTurn s).clockMs - (hostTurn s).curTime).toNat = _
  bv_omega

/-- Settles O44: part (d) comes after part (c), and part (e) touches neither `beep` nor `ST` (`timingParts_beep`). -/
theorem beepFollowsTheSoundTimer : Obligations.BeepFollowsTheSoundTimer := by
  intro s t h
  obtain ⟨e, -, rfl⟩ := step_eq_next h
  rw [timingParts_beep, bne_iff_ne, Ne, ← BitVec.toNat_inj]
  rfl

/-- Settles O45: part (b) leaves the refresh counter, the frequency and the elapsed time alone, so part (e) decides as
it would right after the host's turn. -/
theorem refreshFlagTicks : Obligations.RefreshFlagTicks := by
  rintro s h t c rfl ht rfl
  obtain ⟨e, he, rfl⟩ := step_eq_next ht
  have hconfig : (hostTurn s).config = e.config := by rw [executorPart_rest he]; rfl
  have hcum : (hostTurn s).refreshCum = e.refreshCum := by rw [executorPart_rest he]; rfl
  rw [hconfig, hcum, timingParts_eq]
  refine ⟨fun h => ?_, fun h => ?_⟩
  · rw [refreshPart_due h]
    exact ⟨rfl, rfl⟩
  · rw [refreshPart_waiting h]
    exact ⟨rfl, BitVec.toNat_add _ _⟩

/-! A word placed for the next step. -/

theorem fetchPlace_eq_pc {s : State} (h : s.pc.toNat + 1 ≤ lastAddr) : fetchPlace s = s.pc :=
  if_neg (Nat.not_lt.mpr h)

/-- A fetch at the place is possible (R90). -/
theorem fetchPlace_inRange (s : State) : (fetchPlace s).toNat + 1 ≤ lastAddr := by
  by_cases h : lastAddr < s.pc.toNat + 1
  · rw [fetchPlace, if_pos h]
    decide
  · rw [fetchPlace, if_neg h]
    exact Nat.not_lt.mp h

/-- With the placed counter the executor is due after part (a) (R282). -/
theorem due_dueCpuCum (s : State) :
    due s.config.cpuFreq (dueCpuCum s + (s.clockMs - s.curTime)) (cpuMax s.config) = true := by
  by_cases h : due s.config.cpuFreq (s.cpuCum + (s.clockMs - s.curTime)) (cpuMax s.config) = true
  · rw [dueCpuCum, if_pos h, h]
  · rw [dueCpuCum, if_neg h, BitVec.sub_add_cancel, due, decide_eq_true le_rfl, Bool.or_true]

section
variable (s : State) (nbits w : Nat)

theorem withFetchWord_faulted : (s.withFetchWord nbits w).faulted = false := by
  show (if s.faulted then FaultLatch.clear else s.latch).cause.isSome = false
  split
  · rfl
  · next h => exact Bool.eq_false_iff.mpr h

/-- The host does nothing before the step that runs the placed word, and keeps its plan for the steps after it. -/
theorem hostTurn_withFetchWord :
    hostTurn (s.withFetchWord nbits w) = { s.withFetchWord nbits w with hostPlan := s.hostPlan } := by
  cases h : s.hostPlan with
  | nil =>
    have hp : (s.withFetchWord nbits w).hostPlan = [] := by simp [State.withFetchWord, h]
    rw [hostTurn_nil hp, ← hp]
  | cons actions rest =>
    have hp : (s.withFetchWord nbits w).hostPlan = [] :: actions :: rest := by simp [State.withFetchWord, h]
    rw [hostTurn_cons hp, List.foldl_nil]

theorem withFetchWord_pacedNow : (sampled (hostTurn (s.withFetchWord nbits w))).PacedNow := by
  rw [hostTurn_withFetchWord]
  exact (due_threshold_iff _ _).mp (due_dueCpuCum s)

end

theorem withFetchWord_mem (s : State) (w : BitVec 16) :
    (s.withFetchWord 16 w.toNat).mem = s.mem.write2 (fetchPlace s).toNat w := by
  have hw : BitVec.ofNat 16 (w.toNat % 2 ^ 16) = w := by
    rw [Nat.mod_eq_of_lt w.isLt, BitVec.ofNat_toNat, BitVec.setWidth_eq]
  exact congrArg (s.mem.write2 (fetchPlace s).toNat) hw

/-- Settles O9: the placing leaves no fault latched, the executor due and the word at a place that can be fetched from,
so `step_runWord` runs the word. -/
theorem placedWordRunsNext : Obligations.PlacedWordRunsNext := by
  rintro s f u w i hm hd rfl hu
  have hin : (fetchPlace s).toNat + 1 < memSize := Nat.lt_succ_of_le (fetchPlace_inRange s)
  have hpc : u.pc = fetchPlace s := by rw [hu, hostTurn_withFetchWord]; rfl
  have hmem : u.mem = s.mem.write2 (fetchPlace s).toNat w := by
    rw [hu, hostTurn_withFetchWord, ← withFetchWord_mem]; rfl
  have hf : u.faulted = false := by
    rw [hu, hostTurn_withFetchWord]; exact withFetchWord_faulted s 16 w.toNat
  have hp : u.PacedNow := hu ▸ withFetchWord_pacedNow s 16 w.toNat
  have hword : u.mem.read2 u.pc.toNat = w := by rw [hmem, hpc, Memory.read2_write2 hm hin]
  refine ⟨?_, hpc, hword, fetchPlace_eq_pc, fun a h0 h1 => ?_, rfl⟩
  · rw [step_runWord hu hf hp (by rw [hpc]; exact fetchPlace_inRange s), hword, runWord_some hd]
  · rw [withFetchWord_mem, Memory.read_write2 hm hin]
    exact (if_neg h0).trans (if_neg h1)

end Sys2Proof.Machine

/-! PROOFS. Faults (60_exceptions.md R301, R306, R307, R310): which instruction raises which cause, the fetch outside
memory, the entry of a fault, and the step of a faulted core. -/

namespace Sys2Proof.Machine

/-! What an instruction raises. -/

/-- The instructions that can fault, each with its one cause (R310). -/
inductive Raises : Instr → Cause → Prop
  | call (nnn : BitVec 12) : Raises (.call nnn) .stackOverflow
  | ret : Raises .ret .stackUnderflow
  | ldB (x : Reg) : Raises (.ldB x) .memRange
  | storeRegs (x : Reg) : Raises (.storeRegs x) .memRange
  | loadRegs (x : Reg) : Raises (.loadRegs x) .memRange
  | drw (x y : Reg) (n : BitVec 4) : Raises (.drw x y n) .memRange

/-- The next state of `i` from `s`, if the outcome is one, has the latch of `s`, or is `s` with a cause of `i` taken at
the instruction's own address (R306). -/
def FaultsOnlyAsListed (s : State) (i : Instr) (o : Result) : Prop :=
  ∀ t, o = .next t → t.latch = s.latch ∨ ∃ c a, Raises i c ∧ t = takeFault c (s.pc - 2) a s

theorem FaultsOnlyAsListed.keeps {s t : State} {i : Instr} (h : t.latch = s.latch) :
    FaultsOnlyAsListed s i (.next t) := by
  rintro _ ⟨⟩; exact .inl h

theorem FaultsOnlyAsListed.raise {s : State} {i : Instr} {c : Cause} {a : Addr} (h : Raises i c) :
    FaultsOnlyAsListed s i (raise c a s) := by
  rintro _ ⟨⟩; exact .inr ⟨c, a, h, rfl⟩

/-- A stop of the model answers no next state. -/
theorem FaultsOnlyAsListed.stop {s : State} {i : Instr} (r : Fault) : FaultsOnlyAsListed s i (.fault r) :=
  fun _ h => nomatch h

theorem FaultsOnlyAsListed.skipWhen {s : State} {i : Instr} (taken : Bool) :
    FaultsOnlyAsListed s i (skipWhen taken s) := by
  rw [skipWhen_eq]; exact .keeps rfl

theorem FaultsOnlyAsListed.throughI {s : State} {i : Instr} {k : Nat} {effect : State → State}
    (hi : Raises i .memRange) (heffect : (effect s).latch = s.latch) :
    FaultsOnlyAsListed s i (throughI k effect s) := by
  unfold Machine.throughI
  split_ifs
  · exact .keeps heffect
  · exact .raise hi

theorem FaultsOnlyAsListed.push (s : State) (nnn : BitVec 12) :
    FaultsOnlyAsListed s (.call nnn) (push s.pc (fun t => t.setPc (addrOf nnn)) s) := by
  unfold Machine.push
  split_ifs
  · exact .raise (.call nnn)
  · exact .stop _
  · exact .keeps rfl

theorem FaultsOnlyAsListed.popPc (s : State) : FaultsOnlyAsListed s .ret (popPc s) := by
  unfold Machine.popPc
  split_ifs
  · exact .raise .ret
  · exact .stop _
  · exact .keeps rfl

theorem exec_faultsOnlyAsListed (i : Instr) (s : State) : FaultsOnlyAsListed s i (exec i s) := by
  cases i with
  | call nnn => exact .push s nnn
  | ret => exact .popPc s
  | ldB x => rw [exec_ldB]; exact .throughI (.ldB x) rfl
  | storeRegs x => rw [exec_storeRegs]; exact .throughI (.storeRegs x) rfl
  | loadRegs x => rw [exec_loadRegs]; exact .throughI (.loadRegs x) rfl
  | drw x y n => rw [exec_drw]; exact .throughI (.drw x y n) rfl
  | seImm x kk => exact .skipWhen _
  | sneImm x kk => exact .skipWhen _
  | seReg x y => exact .skipWhen _
  | sneReg x y => exact .skipWhen _
  | skp x => exact .skipWhen _
  | sknp x => exact .skipWhen _
  | ldVxK x =>
    show FaultsOnlyAsListed s (.ldVxK x) (execLdVxK x s)
    unfold execLdVxK
    split <;> exact .keeps rfl
  | _ => exact .keeps rfl

/-- Whether a fault is latched is read from the latch alone. -/
theorem State.faulted_congr {s t : State} (h : t.latch = s.latch) : t.faulted = s.faulted :=
  congrArg (fun l : FaultLatch => l.cause.isSome) h

/-- The inversion: an instruction that faults takes one of its listed causes and does nothing else (R306, R310). -/
theorem exec_eq_takeFault {i : Instr} {s t : State} (hs : s.faulted = false) (h : exec i s = .next t)
    (ht : t.faulted = true) : ∃ c a, Raises i c ∧ t = takeFault c (s.pc - 2) a s := by
  refine (exec_faultsOnlyAsListed i s t h).resolve_left fun hlatch => ?_
  exact Bool.false_ne_true (hs.symm.trans ((State.faulted_congr hlatch).symm.trans ht))

/-! The fetch. -/

/-- A fetch that leaves memory takes FetchRange at `pc` (R301). -/
theorem execute_outOfRange {s : State} (hpc : lastAddr < s.pc.toNat + 1) :
    execute s = .next (takeFault .fetchRange s.pc s.pc s) := if_pos hpc

/-- A due step whose fetch leaves memory is that fault's entry, then the timing parts (R301, R306). -/
theorem step_fetchRange {s u : State} (hu : u = sampled (hostTurn s)) (hf : u.faulted = false) (hp : u.PacedNow)
    (hpc : lastAddr < u.pc.toNat + 1) :
    step s = .next (timingParts { u with
      cpuCum := 0, executed := false, latch := { cause := some .fetchRange, pc := u.pc, addr := u.pc } }) := by
  have hexec := execute_outOfRange (s := { accumulateCpu u with cpuCum := 0 }) hpc
  rw [step, schedulerStep, ← hu, executorPart_due (executorDue_accumulateCpu hf hp), hexec]
  rfl

/-- With no fault latched the latch names no cause. -/
theorem State.cause_eq_none {s : State} (h : s.faulted = false) : s.latch.cause = none := by
  simpa [State.faulted] using h

/-- FetchRange belongs to the fetch: no word that runs raises it (R301, R310). -/
theorem runWord_cause_ne_fetchRange {w : BitVec 16} {s t : State} (hs : s.faulted = false)
    (h : runWord w s = .next t) : t.latch.cause ≠ some .fetchRange := by
  have hkept : s.latch.cause ≠ some .fetchRange := by simp [State.cause_eq_none hs]
  cases hd : decodeWord w with
  | none =>
    cases (runWord_none hd s).symm.trans h
    exact hkept
  | some i =>
    rcases exec_faultsOnlyAsListed i s t ((runWord_some hd s).symm.trans h) with hlatch | ⟨c, a, hi, rfl⟩
    · rwa [hlatch]
    · cases hi <;> simp

/-- Settles O8: the out-of-range fetch is `step_fetchRange`; a fetch inside memory runs its word, which raises other
causes only (`runWord_cause_ne_fetchRange`), and the keypad collapse leaves the latch alone. -/
theorem fetchBeyondMemoryFaults : Obligations.FetchBeyondMemoryFaults := by
  refine ⟨fun _ _ => step_fetchRange, fun _ _ => rfl, fun u t hf hpc h => ?_⟩
  rw [execute_inRange hpc] at h
  obtain ⟨w, hw, hwt⟩ := onNext_eq_next h
  have hlatch : t.latch = w.latch := by
    cases hwt
    exact (apply_ite State.latch _ _ _).trans (ite_self _)
  rw [hlatch]
  exact runWord_cause_ne_fetchRange (s := advancePc u) hf hw

/-- Settles O48: an instruction that faults takes a cause of `Raises` (`exec_eq_takeFault`), an unknown word is a no-op,
and the out-of-range fetch takes FetchRange. -/
theorem onlyTheListedInstructionsFault : Obligations.OnlyTheListedInstructionsFault := by
  refine ⟨fun i s t hs h ht => ?_, fun s t hs h => ?_, fun u t _ hpc h => ?_⟩
  · obtain ⟨c, a, hi, rfl⟩ := exec_eq_takeFault hs h ht
    cases hi with
    | call nnn => exact .inl ⟨rfl, nnn, rfl⟩
    | ret => exact .inr (.inl ⟨rfl, rfl⟩)
    | ldB x => exact .inr (.inr ⟨rfl, .inl ⟨x, rfl⟩⟩)
    | storeRegs x => exact .inr (.inr ⟨rfl, .inr (.inl ⟨x, rfl⟩)⟩)
    | loadRegs x => exact .inr (.inr ⟨rfl, .inr (.inr (.inl ⟨x, rfl⟩))⟩)
    | drw x y n => exact .inr (.inr ⟨rfl, .inr (.inr (.inr ⟨x, y, n, rfl⟩))⟩)
  · cases h
    exact hs
  · cases (execute_outOfRange hpc).symm.trans h
    rfl

/-! The entry of a fault. -/

/-- Part (b), if it latches a fault, clears the CPU counter, executes nothing, and leaves the rest, the keypad cells
included, as it was (R306). -/
theorem executorPart_faulted {u e : State} (hu : u.faulted = false) (h : executorPart u = .next e)
    (he : e.faulted = true) :
    ∃ c a, e = { u with
      cpuCum := 0, executed := false, latch := { cause := some c, pc := u.pc, addr := a } } := by
  cases hd : executorDue (accumulateCpu u) with
  | false =>
    cases (executorPart_idle hd).symm.trans h
    exact absurd (hu.symm.trans he) Bool.false_ne_true
  | true =>
    rw [executorPart_due hd] at h
    obtain ⟨w, hw, hwe⟩ := onNext_eq_next h
    cases hwe
    rcases execute_outcomes (s := { accumulateCpu u with cpuCum := 0 }) hu with
      ⟨r, hr, -, hrf, -⟩ | ⟨c, a, hr⟩ | ⟨a, hr, -⟩
    · cases hr.symm.trans hw
      exact absurd (hrf.symm.trans he) Bool.false_ne_true
    · cases hr.symm.trans hw
      exact ⟨c, a, rfl⟩
    · cases hr.symm.trans hw

/-- The timing parts do not reach the fault latch (R284 to R287). -/
theorem timingParts_faulted (s : State) : (timingParts s).faulted = s.faulted := by
  rw [timingParts_rest]
  rfl

/-- Settles O46: the instruction by its inversion `exec_eq_takeFault`, the step by `executorPart_faulted`. -/
theorem faultEntryIsPrecise : Obligations.FaultEntryIsPrecise := by
  refine ⟨fun i s t hs h ht => ?_, fun s u t hu hf h ht => ?_, fun c _ _ => ?_⟩
  · obtain ⟨c, a, -, rfl⟩ := exec_eq_takeFault hs h ht
    exact ⟨c, a, rfl⟩
  · obtain ⟨e, he, rfl⟩ := step_eq_next h
    rw [← hu] at he
    obtain ⟨c, a, rfl⟩ := executorPart_faulted hf he ((timingParts_faulted e).symm.trans ht)
    exact ⟨c, a, rfl⟩
  · cases c <;> rfl

/-! The faulted core. -/

/-- The refresh flag after part (e) (R287). -/
theorem refreshPart_displayUpdated (s : State) : (refreshPart s).displayUpdated =
    due s.config.refreshFreq (s.refreshCum + s.elapsed) (refreshMax s.config) := by
  by_cases h : Elapsed s.config.refreshFreq s.refreshCum s.elapsed
  · rw [refreshPart_due h]
    exact ((due_add_threshold_iff _ _ _).mpr h).symm
  · rw [refreshPart_waiting h]
    exact (Bool.eq_false_iff.mpr (h ∘ (due_add_threshold_iff _ _ _).mp)).symm

/-- With a fault latched the executor is not due, whatever the counters say (R307). -/
theorem step_faulted {s u : State} (hu : u = sampled (hostTurn s)) (hf : u.faulted = true) :
    step s = .next (timingParts { accumulateCpu u with executed := false }) := by
  have hidle : executorDue (accumulateCpu u) = false := by
    have hf' : (accumulateCpu u).faulted = true := hf
    rw [executorDue, hf', Bool.not_true, Bool.false_and]
  rw [step, schedulerStep, ← hu, executorPart_idle hidle, onNext_next]

/-- Settles O47: the step is the idle one (`step_faulted`), and each timing part reads what the idle part (b) left as
it was. -/
theorem faultedCoreIsFrozen : Obligations.FaultedCoreIsFrozen := by
  intro s u hu hf
  refine ⟨_, step_faulted hu hf, ?_⟩
  rw [timingParts_eq]
  refine ⟨rfl, rfl, rfl, rfl, rfl, rfl, rfl, rfl, rfl, rfl, rfl, rfl, ?_, ?_, rfl, ?_⟩
  · exact (delayPart_dt _).trans (delayPart_dt u).symm
  · exact (soundPart_st _).trans (soundPart_st u).symm
  · exact (refreshPart_displayUpdated _).trans (refreshPart_displayUpdated u).symm

end Sys2Proof.Machine

/-! PROOFS. Timing (70_reset_and_hazards.md R360): no instruction reads the counters, timestamps, frequencies or input
levels. -/

namespace Sys2Proof.Machine

/-! Shared operations that commute with an update `g` of the state. -/

section
variable {g : State → State}

theorem CommutesWith.skipWhen {taken : State → Bool} (htaken : ∀ s, taken (g s) = taken s)
    (hskip : ∀ s, (g s).setPc ((g s).pc + 2) = g (s.setPc (s.pc + 2))) :
    CommutesWith g fun s => skipWhen (taken s) s :=
  .next fun s => by
    rw [htaken s, hskip s]
    exact (apply_ite g _ _ _).symm

theorem CommutesWith.throughI {k : State → Nat} {effect : State → State}
    (hk : ∀ s, (g s).i.toNat + k (g s) = s.i.toNat + k s) (heffect : ∀ s, effect (g s) = g (effect s))
    (hraise : CommutesWith g fun s => raise .memRange (firstBeyond s.i) s) :
    CommutesWith g fun s => throughI (k s) effect s :=
  .ite (fun s => by rw [hk s]) (.next heffect) hraise

end

/-! The instructions, with the timing of another state. -/

section
variable (e : State)

theorem execCall_commutesWith_withTimingOf (nnn : BitVec 12) :
    CommutesWith (fun s => s.withTimingOf e) (execCall nnn) :=
  .ite (fun _ => .rfl) (.next fun _ => rfl) (.ite (fun _ => .rfl) (fun _ => rfl) (.next fun _ => rfl))

theorem popPc_commutesWith_withTimingOf : CommutesWith (fun s => s.withTimingOf e) popPc :=
  .ite (fun _ => .rfl) (.next fun _ => rfl) (.ite (fun _ => .rfl) (fun _ => rfl) (.next fun _ => rfl))

theorem execLdVxK_commutesWith_withTimingOf (x : Reg) :
    CommutesWith (fun s => s.withTimingOf e) (execLdVxK x) := by
  intro s
  have hsame : firstReleased (s.withTimingOf e) = firstReleased s := rfl
  rw [execLdVxK, execLdVxK, hsame]
  cases firstReleased s <;> rfl

theorem skipWhen_commutesWith_withTimingOf {taken : State → Bool}
    (h : ∀ s, taken (s.withTimingOf e) = taken s) :
    CommutesWith (fun s => s.withTimingOf e) fun s => skipWhen (taken s) s :=
  .skipWhen h fun _ => rfl

theorem throughI_commutesWith_withTimingOf {k : State → Nat} {effect : State → State}
    (hk : ∀ s, k (s.withTimingOf e) = k s)
    (heffect : ∀ s, effect (s.withTimingOf e) = (effect s).withTimingOf e) :
    CommutesWith (fun s => s.withTimingOf e) fun s => throughI (k s) effect s :=
  .throughI (fun s => congrArg (s.i.toNat + ·) (hk s)) heffect fun _ => rfl

/-- No instruction reads the timing: the tests it makes and the values it writes come from the other fields, and the
quirks are no part of the timing. -/
theorem exec_commutesWith_withTimingOf (i : Instr) : CommutesWith (fun s => s.withTimingOf e) (exec i) := by
  cases i with
  | ret => exact popPc_commutesWith_withTimingOf e
  | call nnn => exact execCall_commutesWith_withTimingOf e nnn
  | seImm x kk => exact skipWhen_commutesWith_withTimingOf e fun _ => rfl
  | sneImm x kk => exact skipWhen_commutesWith_withTimingOf e fun _ => rfl
  | seReg x y => exact skipWhen_commutesWith_withTimingOf e fun _ => rfl
  | sneReg x y => exact skipWhen_commutesWith_withTimingOf e fun _ => rfl
  | skp x => exact skipWhen_commutesWith_withTimingOf e fun _ => rfl
  | sknp x => exact skipWhen_commutesWith_withTimingOf e fun _ => rfl
  | drw x y n => exact throughI_commutesWith_withTimingOf e (fun _ => rfl) fun _ => rfl
  | ldB x => exact throughI_commutesWith_withTimingOf e (fun _ => rfl) fun _ => rfl
  | storeRegs x => exact throughI_commutesWith_withTimingOf e (fun _ => rfl) fun _ => rfl
  | loadRegs x => exact throughI_commutesWith_withTimingOf e (fun _ => rfl) fun _ => rfl
  | ldVxK x => exact execLdVxK_commutesWith_withTimingOf e x
  | _ => exact fun _ => rfl

end

/-- Settles O52: replacing the timing commutes with every instruction (`exec_commutesWith_withTimingOf`). -/
theorem instructionsIgnoreTiming : Obligations.InstructionsIgnoreTiming :=
  fun i s e => exec_commutesWith_withTimingOf e i s

end Sys2Proof.Machine

/-! PROOFS. Reset and the host's loads (70_reset_and_hazards.md R340 to R344): memory after a reset, the thresholds of a
configuration, the font load, the program load. -/

namespace Sys2Proof.Machine

/-! Reset. -/

theorem memoryAfterReset_zero {s : State} (h : s.config.quirks.ramInit = false) : memoryAfterReset s = [] :=
  if_neg (Bool.eq_false_iff.mp h)

theorem memoryAfterReset_free {s : State} (h : s.config.quirks.ramInit = true) :
    memoryAfterReset s = Memory.ofBytes (Config.freeRamByte s.ramDraws) :=
  if_pos h

@[simp] theorem getV_resetCore (s : State) (r : Reg) : (resetCore s).getV r = 0 :=
  Vector.getElem_replicate r.isLt

@[simp] theorem key_resetCore (s : State) (k : BitVec 4) : (resetCore s).key k = .up :=
  Vector.getElem_replicate k.isLt

/-- Settles O53: the fields are read off `resetCore`; register file, keypad, display and memory piece by piece. -/
theorem resetReinitializes : Obligations.ResetReinitializes := by
  rintro s t rfl
  have hzero (h : s.config.quirks.ramInit = false) (a : Nat) : (memoryAfterReset s).read a = 0 := by
    rw [memoryAfterReset_zero h]
    exact Memory.read_nil a
  have hfree (h : s.config.quirks.ramInit = true) (a : Nat) (ha : a < 0x1000) :
      (memoryAfterReset s).read a = Config.freeRamByte s.ramDraws a := by
    rw [memoryAfterReset_free h]
    exact Memory.read_ofBytes _ a ha
  exact ⟨getV_resetCore s, rfl, rfl, rfl, rfl, rfl, rfl, rfl, rfl, rfl, rfl, rfl, rfl, rfl,
    fun k _ => FrameBuffer.byte_clear k, key_resetCore s, rfl, rfl, rfl, rfl, rfl, rfl, rfl, rfl, rfl, hzero, hfree⟩

/-! Construction. -/

/-- A threshold is the quotient of 1000 by its frequency, floor (R39). -/
theorem toNat_threshold {freq : Millis} (h : freq ≠ 0) : (threshold freq).toNat = 1000 / freq.toNat := by
  rw [threshold, if_neg h]
  exact BitVec.toNat_udiv

/-- The font fits in memory (R80). -/
theorem fontImage_fits (p : Params) : 0 + p.fontImage.toList.length ≤ memSize := by
  rw [Vector.length_toList]
  decide

/-- Settles O54: construction is its own pseudocode, the thresholds follow from the frequencies (`toNat_threshold`), and
the font load writes one run of bytes. -/
theorem constructionSeedsResetsAndLoadsTheFont : Obligations.ConstructionSeedsResetsAndLoadsTheFont := by
  refine ⟨fun _ _ => rfl, ?_, ?_⟩
  · rintro cfg s t rfl
    exact ⟨rfl, rfl, rfl, toNat_threshold, toNat_threshold, toNat_threshold⟩
  · rintro s t hm rfl
    have hlen : s.params.fontImage.toList.length = 240 := Vector.length_toList
    refine ⟨rfl, fun k hk => ?_, fun a ha => ?_⟩
    · have hread := Memory.read_writeBytes_inside hm (fontImage_fits s.params) (hlen.symm ▸ hk)
      rw [Nat.zero_add] at hread
      exact hread.trans (Vector.getElem_toList _)
    · exact Memory.read_writeBytes_outside hm (fontImage_fits s.params) (.inr (by omega))

/-! The program load. -/

theorem loadProgram_fits {s : State} {image : List Byte} (h : s.config.programStart.toNat + image.length ≤ memSize) :
    loadProgram image s =
      { s with mem := s.mem.writeBytes s.config.programStart.toNat image, programImage := image } :=
  if_pos (decide_eq_true h)

/-- An image that does not fit is refused whole (R342). -/
theorem loadProgram_refused {s : State} {image : List Byte}
    (h : memSize < s.config.programStart.toNat + image.length) : loadProgram image s = s :=
  if_neg (by simpa [imageFits] using h)

/-- Settles O55: a load that fits writes one run of bytes (`loadProgram_fits`), another nothing
(`loadProgram_refused`); the reset and the font load of a soft reset keep the remembered image. -/
theorem programLoadAndSoftReset : Obligations.ProgramLoadAndSoftReset := by
  refine ⟨?_, fun _ => rfl⟩
  rintro image s t hm rfl
  refine ⟨fun hfit => ?_, loadProgram_refused⟩
  rw [loadProgram_fits hfit]
  exact ⟨rfl, fun _ => Memory.read_writeBytes_inside hm hfit, fun _ => Memory.read_writeBytes_outside hm hfit⟩

end Sys2Proof.Machine
